-- ==== Sys2Proof/Word.lean ====
section
/-! DEFINITION. The word types of the TMS34010 (R4): registers and addresses are 32 bits, memory words and instruction
words are 16 bits, memory is held in bytes. -/

namespace Sys2Proof

/-- A register, or the 32-bit address of one bit (R4, R51). -/
abbrev Word := BitVec 32

/-- A memory word or an instruction word (R4, R80). -/
abbrev Word16 := BitVec 16

/-- Eight memory bits. -/
abbrev Byte := BitVec 8

/-- The number of bits of the address space (R51). -/
abbrev addressSpaceBits : Nat := 2 ^ 32

/-- The number of bytes that hold the address space. -/
abbrev addressSpaceBytes : Nat := 2 ^ 29

end Sys2Proof
end

