-- ==== Sys2Proof/Syntax.lean ====
section
/-! DEFINITION. The instructions, one constructor per row of the opcode table (R91), with the operands of each row as
data. -/

namespace Sys2Proof

/-- The register file an instruction names (R84). -/
inductive RFile where
  | A
  | B
deriving DecidableEq, Repr

/-- The other register file: the destination's file of the cross-file MOVE (R91). -/
def RFile.other : RFile → RFile
  | .A => .B
  | .B => .A

/-- A register designator within a file: 0 to 14 name the file's own registers, 15 names SP (R83). -/
abbrev RegIdx := Fin 16

/-- The four decrement-and-jump forms (R181). -/
inductive DsjForm where
  | dsj
  | dsjeq
  | dsjne
  | dsjs
deriving DecidableEq, Repr

/-- The instructions. `f` is a register file, `src` and `dst` are register indices, `c` a condition code. -/
inductive Instr where
  /-- MOVE Rs,Rd within one file (R103). -/
  | moveSame (f : RFile) (src dst : RegIdx)
  /-- MOVE Rs,Rd between files; `f` is the file of the source (R91, R103). -/
  | moveOther (f : RFile) (src dst : RegIdx)
  /-- MOVI with a 16-bit immediate (R104). -/
  | moviIW (f : RFile) (dst : RegIdx) (imm : Word16)
  /-- MOVI with a 32-bit immediate (R104). -/
  | moviIL (f : RFile) (dst : RegIdx) (imm : Word)
  /-- ADDI with a 16-bit immediate (R105). -/
  | addiIW (f : RFile) (dst : RegIdx) (imm : Word16)
  /-- ADDI with a 32-bit immediate (R105). -/
  | addiIL (f : RFile) (dst : RegIdx) (imm : Word)
  /-- SUBXY Rs,Rd (R106). -/
  | subxy (f : RFile) (src dst : RegIdx)
  /-- PIXBLT L,L (R144). -/
  | pixbltLL
  /-- PIXBLT L,XY (R145). -/
  | pixbltLXY
  /-- PIXBLT XY,L (R146). -/
  | pixbltXYL
  /-- PIXBLT XY,XY (R147). -/
  | pixbltXYXY
  /-- PIXBLT B,L (R142). -/
  | pixbltBL
  /-- PIXBLT B,XY (R143). -/
  | pixbltBXY
  /-- FILL L (R148). -/
  | fillL
  /-- FILL XY (R149). -/
  | fillXY
  /-- LINE with its algorithm select bit (R150). -/
  | line (z : Bool)
  /-- DRAV Rs,Rd (R151). -/
  | drav (f : RFile) (src dst : RegIdx)
  /-- CVXYL Rs,Rd (R152). -/
  | cvxyl (f : RFile) (src dst : RegIdx)
  /-- CPW Rs,Rd (R153). -/
  | cpw (f : RFile) (src dst : RegIdx)
  /-- PIXT Rs,*Rd.XY (R154). -/
  | pixtToXY (f : RFile) (src dst : RegIdx)
  /-- PIXT *Rs.XY,Rd (R155). -/
  | pixtFromXY (f : RFile) (src dst : RegIdx)
  /-- PIXT *Rs.XY,*Rd.XY (R156). -/
  | pixtXYToXY (f : RFile) (src dst : RegIdx)
  /-- TRAP N (R176). -/
  | trap (n : BitVec 5)
  /-- CALLA address: CALL with an absolute address (R177). -/
  | calla (addr : Word)
  /-- CALL Rs (R178). -/
  | callRs (f : RFile) (src : RegIdx)
  /-- JAcc address (R179). -/
  | jacc (c : BitVec 4) (addr : Word)
  /-- JRcc with an 8-bit displacement (R180). -/
  | jrcc8 (c : BitVec 4) (disp : BitVec 8)
  /-- JRcc with a 16-bit displacement (R180). -/
  | jrcc16 (c : BitVec 4) (disp : Word16)
  /-- DSJ Rd,address (R181). -/
  | dsj (f : RFile) (dst : RegIdx) (disp : Word16)
  /-- DSJEQ Rd,address (R181). -/
  | dsjeq (f : RFile) (dst : RegIdx) (disp : Word16)
  /-- DSJNE Rd,address (R181). -/
  | dsjne (f : RFile) (dst : RegIdx) (disp : Word16)
  /-- DSJS Rd,address: `back` is the direction bit, `offset` the word offset (R91, R181). -/
  | dsjs (back : Bool) (offset : BitVec 5) (f : RFile) (dst : RegIdx)
  /-- JUMP Rs (R182). -/
  | jump (f : RFile) (src : RegIdx)
  /-- EXGPC Rd (R183). -/
  | exgpc (f : RFile) (dst : RegIdx)
  /-- RETS N: the return instruction (R184). -/
  | rets (n : BitVec 5)
  /-- RETI: the return from an interrupt (R235). -/
  | reti
deriving DecidableEq, Repr

end Sys2Proof
end

