-- ==== Sys2Proof/WellFormed.lean ====
section
/-! DEFINITION. Well-formed instructions: the one operand constraint of the opcode table (R91). -/

namespace Sys2Proof

/-- The two displacement bytes that an 8-bit JRcc cannot carry: they select the 16-bit form and JAcc (R91). -/
def Instr.wellFormed : Instr → Bool
  | .jrcc8 _ disp => disp != 0x00#8 && disp != 0x80#8
  | .moveSame _ _ _ | .moveOther _ _ _ | .moviIW _ _ _ | .moviIL _ _ _ | .addiIW _ _ _ | .addiIL _ _ _
  | .subxy _ _ _ | .pixbltLL | .pixbltLXY | .pixbltXYL | .pixbltXYXY | .pixbltBL | .pixbltBXY | .fillL | .fillXY
  | .line _ | .drav _ _ _ | .cvxyl _ _ _ | .cpw _ _ _ | .pixtToXY _ _ _ | .pixtFromXY _ _ _ | .pixtXYToXY _ _ _
  | .trap _ | .calla _ | .callRs _ _ | .jacc _ _ | .jrcc16 _ _ | .dsj _ _ _ | .dsjeq _ _ _ | .dsjne _ _ _
  | .dsjs _ _ _ _ | .jump _ _ | .exgpc _ _ | .rets _ | .reti => true

end Sys2Proof
end

