-- ==== Sys2Proof/Decode.lean ====
section
/-! DEFINITION. Instruction words to instructions and back (R80 to R93). Every bit pattern is the opcode table's (R91),
which the spec marks as general knowledge. PRESUMED (unsafe, log 1): D2 leaves `decode` open and lets a model take this
table. -/

namespace Sys2Proof

/-- One row of the opcode map: a first word matches when its bits under `mask` equal `pattern` and `guard` holds; then
`extra` further words follow and `build` makes the instruction of the first word and the two that may follow. -/
structure OpcodeRow where
  mask : Word16
  pattern : Word16
  extra : Nat
  guard : Word16 → Bool
  build : Word16 → Word16 → Word16 → Instr

/-- Bits 8:5, the source register index (R91). -/
def srcField (w : Word16) : RegIdx := (w.extractLsb' 5 4).toFin

/-- Bits 3:0, the destination (or only) register index (R91). -/
def dstField (w : Word16) : RegIdx := (w.extractLsb' 0 4).toFin

/-- Bit 4, the file select: 0 file A, 1 file B (R91). -/
def fileField (w : Word16) : RFile := if w.getLsbD 4 then .B else .A

/-- Bits 4:0, a trap number or a count of words (R91). -/
def countField (w : Word16) : BitVec 5 := w.extractLsb' 0 5

/-- Bits 11:8, a condition code (R91). -/
def condField (w : Word16) : BitVec 4 := w.extractLsb' 8 4

/-- A 32-bit immediate or absolute address of two instruction words, low half first (R91). -/
def longImmediate (lo hi : Word16) : Word := hi ++ lo

/-- The displacement byte of an 8-bit JRcc is neither 00000000 nor 10000000 (R91). -/
def shortDisplacement (w : Word16) : Bool :=
  w.extractLsb' 0 8 != 0x00#8 && w.extractLsb' 0 8 != 0x80#8

/-- A row without operands besides its fixed bits. -/
def OpcodeRow.fixed (pattern : Word16) (i : Instr) : OpcodeRow :=
  { mask := 0xFFFF#16, pattern, extra := 0, guard := fun _ => true, build := fun _ _ _ => i }

/-- A row with two registers of one file: seven fixed bits. -/
def OpcodeRow.twoRegs (pattern : Word16) (mk : RFile → RegIdx → RegIdx → Instr) : OpcodeRow :=
  { mask := 0xFE00#16, pattern, extra := 0, guard := fun _ => true
    build := fun w _ _ => mk (fileField w) (srcField w) (dstField w) }

/-- A row with one register: eleven fixed bits. -/
def OpcodeRow.oneReg (pattern : Word16) (extra : Nat) (mk : RFile → RegIdx → Word16 → Word16 → Instr) : OpcodeRow :=
  { mask := 0xFFE0#16, pattern, extra, guard := fun _ => true
    build := fun w w1 w2 => mk (fileField w) (dstField w) w1 w2 }

/-- The rows of the instructions on general registers (R103 to R106). -/
def generalRows : List OpcodeRow :=
  [ .twoRegs 0x4C00#16 Instr.moveSame
  , .twoRegs 0x4E00#16 Instr.moveOther
  , .oneReg 0x09C0#16 1 (fun f d w1 _ => .moviIW f d w1)
  , .oneReg 0x09E0#16 2 (fun f d w1 w2 => .moviIL f d (longImmediate w1 w2))
  , .oneReg 0x0B00#16 1 (fun f d w1 _ => .addiIW f d w1)
  , .oneReg 0x0B20#16 2 (fun f d w1 w2 => .addiIL f d (longImmediate w1 w2))
  , .twoRegs 0xE200#16 Instr.subxy ]

/-- The rows of PIXBLT and FILL (R142 to R149). -/
def arrayRows : List OpcodeRow :=
  [ .fixed 0x0F00#16 .pixbltLL
  , .fixed 0x0F20#16 .pixbltLXY
  , .fixed 0x0F40#16 .pixbltXYL
  , .fixed 0x0F60#16 .pixbltXYXY
  , .fixed 0x0F80#16 .pixbltBL
  , .fixed 0x0FA0#16 .pixbltBXY
  , .fixed 0x0FC0#16 .fillL
  , .fixed 0x0FE0#16 .fillXY ]

/-- The rows of LINE and of the single-pixel instructions (R150 to R156). -/
def pixelRows : List OpcodeRow :=
  [ { mask := 0xFF7F#16, pattern := 0xDF1A#16, extra := 0, guard := fun _ => true
      build := fun w _ _ => .line (w.getLsbD 7) }
  , .twoRegs 0xF600#16 Instr.drav
  , .twoRegs 0xE800#16 Instr.cvxyl
  , .twoRegs 0xE600#16 Instr.cpw
  , .twoRegs 0xF000#16 Instr.pixtToXY
  , .twoRegs 0xF200#16 Instr.pixtFromXY
  , .twoRegs 0xF400#16 Instr.pixtXYToXY ]

/-- The rows of calls, traps, returns and register jumps (R176 to R178, R182 to R184, R235). -/
def callRows : List OpcodeRow :=
  [ { mask := 0xFFE0#16, pattern := 0x0900#16, extra := 0, guard := fun _ => true
      build := fun w _ _ => .trap (countField w) }
  , { mask := 0xFFFF#16, pattern := 0x0D5F#16, extra := 2, guard := fun _ => true
      build := fun _ w1 w2 => .calla (longImmediate w1 w2) }
  , .oneReg 0x0920#16 0 (fun f d _ _ => .callRs f d)
  , .oneReg 0x0160#16 0 (fun f d _ _ => .jump f d)
  , .oneReg 0x0120#16 0 (fun f d _ _ => .exgpc f d)
  , { mask := 0xFFE0#16, pattern := 0x0960#16, extra := 0, guard := fun _ => true
      build := fun w _ _ => .rets (countField w) }
  , .fixed 0x0940#16 .reti ]

/-- The rows of the conditional jumps (R179 to R181). -/
def jumpRows : List OpcodeRow :=
  [ { mask := 0xF0FF#16, pattern := 0xC080#16, extra := 2, guard := fun _ => true
      build := fun w w1 w2 => .jacc (condField w) (longImmediate w1 w2) }
  , { mask := 0xF0FF#16, pattern := 0xC000#16, extra := 1, guard := fun _ => true
      build := fun w w1 _ => .jrcc16 (condField w) w1 }
  , { mask := 0xF000#16, pattern := 0xC000#16, extra := 0, guard := shortDisplacement
      build := fun w _ _ => .jrcc8 (condField w) (w.extractLsb' 0 8) }
  , .oneReg 0x0D80#16 1 (fun f d w1 _ => .dsj f d w1)
  , .oneReg 0x0DA0#16 1 (fun f d w1 _ => .dsjeq f d w1)
  , .oneReg 0x0DC0#16 1 (fun f d w1 _ => .dsjne f d w1)
  , { mask := 0xF800#16, pattern := 0x3800#16, extra := 0, guard := fun _ => true
      build := fun w _ _ => .dsjs (w.getLsbD 10) (w.extractLsb' 5 5) (fileField w) (dstField w) } ]

/-- The opcode map (R91). -/
def opcodeRows : List OpcodeRow :=
  generalRows ++ arrayRows ++ pixelRows ++ callRows ++ jumpRows

/-- Whether a first word belongs to a row. -/
def OpcodeRow.matches (r : OpcodeRow) (w : Word16) : Bool :=
  w &&& r.mask == r.pattern && r.guard w

/-- The row of a first word, if the opcode map has one (R82: the first word alone tells the length). -/
def findRow (w : Word16) : Option OpcodeRow :=
  opcodeRows.find? (fun r => r.matches w)

/-- Why words are not an instruction. -/
inductive DecodeError where
  /-- The first word is in no row of the opcode map (R92, D3). -/
  | undecodable (w : Word16)
  /-- The words end before the instruction does. -/
  | truncated (w : Word16)
  /-- There is no first word. -/
  | empty
deriving DecidableEq, Repr

/-- An instruction from its words, first word first (R80), and the words that follow it. -/
def decode : List Word16 → Except DecodeError (Instr × List Word16)
  | [] => .error .empty
  | w :: rest =>
    match findRow w with
    | none => .error (.undecodable w)
    | some r =>
      if r.extra ≤ rest.length then
        .ok (r.build w (rest.getD 0 0) (rest.getD 1 0), rest.drop r.extra)
      else .error (.truncated w)

/-- The file select bit of an encoding. -/
def fileBits : RFile → Word16
  | .A => 0x0000#16
  | .B => 0x0010#16

/-- A register index in bits 3:0. -/
def dstBits (i : RegIdx) : Word16 := BitVec.ofNat 16 i.val

/-- A register index in bits 8:5. -/
def srcBits (i : RegIdx) : Word16 := BitVec.ofNat 16 (32 * i.val)

/-- The first word of a form with two registers of one file. -/
def encodeTwoRegs (pattern : Word16) (f : RFile) (src dst : RegIdx) : Word16 :=
  pattern ||| srcBits src ||| fileBits f ||| dstBits dst

/-- The first word of a form with one register. -/
def encodeOneReg (pattern : Word16) (f : RFile) (dst : RegIdx) : Word16 :=
  pattern ||| fileBits f ||| dstBits dst

/-- The first word of a conditional jump: the condition code in bits 11:8. -/
def encodeCond (pattern : Word16) (c : BitVec 4) : Word16 :=
  pattern ||| (c.setWidth 16 <<< 8)

/-- The two extra words of a 32-bit immediate or address, low half first (R91). -/
def encodeLong (v : Word) : List Word16 := [v.extractLsb' 0 16, v.extractLsb' 16 16]

/-- The words of an instruction (R91). -/
def encode : Instr → List Word16
  | .moveSame f src dst => [encodeTwoRegs 0x4C00#16 f src dst]
  | .moveOther f src dst => [encodeTwoRegs 0x4E00#16 f src dst]
  | .moviIW f dst imm => [encodeOneReg 0x09C0#16 f dst, imm]
  | .moviIL f dst imm => encodeOneReg 0x09E0#16 f dst :: encodeLong imm
  | .addiIW f dst imm => [encodeOneReg 0x0B00#16 f dst, imm]
  | .addiIL f dst imm => encodeOneReg 0x0B20#16 f dst :: encodeLong imm
  | .subxy f src dst => [encodeTwoRegs 0xE200#16 f src dst]
  | .pixbltLL => [0x0F00#16]
  | .pixbltLXY => [0x0F20#16]
  | .pixbltXYL => [0x0F40#16]
  | .pixbltXYXY => [0x0F60#16]
  | .pixbltBL => [0x0F80#16]
  | .pixbltBXY => [0x0FA0#16]
  | .fillL => [0x0FC0#16]
  | .fillXY => [0x0FE0#16]
  | .line z => [if z then 0xDF9A#16 else 0xDF1A#16]
  | .drav f src dst => [encodeTwoRegs 0xF600#16 f src dst]
  | .cvxyl f src dst => [encodeTwoRegs 0xE800#16 f src dst]
  | .cpw f src dst => [encodeTwoRegs 0xE600#16 f src dst]
  | .pixtToXY f src dst => [encodeTwoRegs 0xF000#16 f src dst]
  | .pixtFromXY f src dst => [encodeTwoRegs 0xF200#16 f src dst]
  | .pixtXYToXY f src dst => [encodeTwoRegs 0xF400#16 f src dst]
  | .trap n => [0x0900#16 ||| n.setWidth 16]
  | .calla addr => 0x0D5F#16 :: encodeLong addr
  | .callRs f src => [encodeOneReg 0x0920#16 f src]
  | .jacc c addr => encodeCond 0xC080#16 c :: encodeLong addr
  | .jrcc8 c disp => [encodeCond 0xC000#16 c ||| disp.setWidth 16]
  | .jrcc16 c disp => [encodeCond 0xC000#16 c, disp]
  | .dsj f dst disp => [encodeOneReg 0x0D80#16 f dst, disp]
  | .dsjeq f dst disp => [encodeOneReg 0x0DA0#16 f dst, disp]
  | .dsjne f dst disp => [encodeOneReg 0x0DC0#16 f dst, disp]
  | .dsjs back offset f dst =>
    [encodeOneReg (if back then 0x3C00#16 else 0x3800#16) f dst ||| (offset.setWidth 16 <<< 5)]
  | .jump f src => [encodeOneReg 0x0160#16 f src]
  | .exgpc f dst => [encodeOneReg 0x0120#16 f dst]
  | .rets n => [0x0960#16 ||| n.setWidth 16]
  | .reti => [0x0940#16]

/-- The number of words of an instruction (R80, R91). -/
def Instr.words : Instr → Nat
  | .moviIL _ _ _ | .addiIL _ _ _ | .calla _ | .jacc _ _ => 3
  | .moviIW _ _ _ | .addiIW _ _ _ | .jrcc16 _ _ | .dsj _ _ _ | .dsjeq _ _ _ | .dsjne _ _ _ => 2
  | .moveSame _ _ _ | .moveOther _ _ _ | .subxy _ _ _ | .pixbltLL | .pixbltLXY | .pixbltXYL | .pixbltXYXY
  | .pixbltBL | .pixbltBXY | .fillL | .fillXY | .line _ | .drav _ _ _ | .cvxyl _ _ _ | .cpw _ _ _
  | .pixtToXY _ _ _ | .pixtFromXY _ _ _ | .pixtXYToXY _ _ _ | .trap _ | .callRs _ _ | .jrcc8 _ _
  | .dsjs _ _ _ _ | .jump _ _ | .exgpc _ _ | .rets _ | .reti => 1

/-- The three words of an opcode-table number: bit 0 is the least significant bit of the first word, and every bit above
`nbits` is 0. -/
def tableWords (nbits w : Nat) : List Word16 :=
  let v := w % 2 ^ nbits
  [BitVec.ofNat 16 v, BitVec.ofNat 16 (v / 2 ^ 16), BitVec.ofNat 16 (v / 2 ^ 32)]

/-- The instruction that the decoder reads from an instruction with the bits `w`. -/
def decodeTableWord (nbits w : Nat) : Option Instr :=
  match decode (tableWords nbits w) with
  | .ok (i, _) => some i
  | .error _ => none

end Sys2Proof
end

