-- ==== Sys2Proof/Config.lean ====
section
/-! DEFINITION. What an implementation fixes and what the spec leaves open: the spec's named parameters (R5), the values
the model names where the spec gives none, and the free values, opaque constants of which nothing can be proved. -/

namespace Sys2Proof

/-- Which of PC and ST an interrupt pushes first: the parameter INT_FRAME (R231, D13). -/
inductive FrameOrder where
  | pcFirst
  | stFirst
deriving DecidableEq, Repr

/-- The window option of the pixel instructions (R29, R128): none selected, option 1 (the common-rectangle function),
or another option, under which XY destinations are clipped to the window (R143, R154). DESIGN CHOICE (log 27): "pick",
which R29 names beside W, has no value of its own and brings no requirement on DYDX; what either is, is lost (R137, N45,
N51). -/
inductive WindowOption where
  | off
  | option1
  | clip
deriving DecidableEq, Repr, Inhabited

/-- The parameters that the spec leaves open and that a run fixes (R5). They are plain data held in the state and
changed by no step, so that a statement about every state is about every choice of them. -/
structure Params where
  /-- IO_ADDR_HSTCTL: the bit address of HSTCTL (R28, D21). -/
  hstctl : Word
  /-- IO_ADDR_CONTROL: the bit address of CONTROL (R28, D21). -/
  control : Word
  /-- BIT_CF: the position of the cache flush bit in HSTCTL (R28, D21). -/
  bitCF : Nat
  /-- BIT_HLT: the position of the halt bit in HSTCTL (R28, D21). -/
  bitHLT : Nat
  /-- BIT_CD: the position of the cache disable bit in CONTROL (R28, D21). -/
  bitCD : Nat
  /-- INT_FRAME (R231, D13). -/
  intFrame : FrameOrder
  /-- Whether X and Y coordinates are signed: R121 leaves it open. -/
  signedXY : Bool
  /-- Whether DRAV's address is in its second operand: R151 leaves it open. -/
  dravAddrInRd : Bool
deriving DecidableEq, Repr

/-- The items of I/O registers that the spec names without an address (R29). No instruction can reach them; they are
inputs of the pixel instructions. -/
structure GfxRegs where
  /-- The ORG bit of DPYCTL. -/
  org : Bool
  /-- The PBH bit: horizontal PIXBLT direction. -/
  pbh : Bool
  /-- The PBV bit: vertical PIXBLT direction; 1 reverses the order of the rows (R125). -/
  pbv : Bool
  /-- CONVSP, related to SPTCH. -/
  convsp : Word16
  /-- CONVDP, related to DPTCH. -/
  convdp : Word16
  /-- The window option W. -/
  window : WindowOption
  /-- PIXEL_SIZE, in bits (R5, D21): at most the 32 that an access of R52 moves (log 21). -/
  pixelSize : Fin 33
  /-- Whether transparency is in effect. -/
  transparency : Bool
  /-- Whether a pixel processing operation is in effect. -/
  pixelProcessing : Bool
  /-- Whether plane masking is in effect. -/
  planeMasking : Bool
deriving DecidableEq, Repr, Inhabited

/-- Where the value of one transferred pixel comes from, before pixel processing. -/
inductive PixelSource where
  /-- The pixel in memory at this bit address. -/
  | memory (addr : Word)
  /-- The bits of a colour register that align with the destination (R138, R139). -/
  | color (c : Word)
  /-- Bit expansion: the memory bit at `addr` selects the aligned pixel of `color0` or `color1` (R142). -/
  | expand (addr color0 color1 : Word)
  /-- The low bits of a register (R154). -/
  | value (v : Word)
  /-- The pixel at this bit address, which the same transfer overwrites: its value is open (R144, log 24). -/
  | unknown (addr : Word)
  /-- Bit expansion of a bit at `addr` that the same transfer overwrites: whether it is 0 or 1 is open (R142, log 24). -/
  | unknownBit (addr color0 color1 : Word)
deriving DecidableEq, Repr

/-- The transfer of the part of one pixel that lies in one memory word: the source pixel, the bit address of the
destination pixel, and which of its bits are written, from `lo` on and `len` of them (R233, log 23). -/
structure PixelOp where
  src : PixelSource
  dst : Word
  lo : Nat
  len : Nat
deriving DecidableEq, Repr

/-- The uses of the XY-to-linear conversion: the source or destination array of PIXBLT and FILL, the source or
destination of a single pixel (DRAV, PIXT, LINE), CVXYL. -/
inductive XYUse where
  | source
  | destination
  | pixelSource
  | pixelDestination
  | convert
deriving DecidableEq, Repr

/-- The registers that LINE reads and changes as it advances: SADDR (the decision variable), DADDR (the next point) and
B10, B11, B12 and B14 (R140, R150). B13 is none of them: it is reserved and has no effect (U5, D11). -/
structure LineRegs where
  saddr : Word
  daddr : Word
  temps : Vector Word 4
deriving DecidableEq, Repr, Inhabited

/-- What a free word stands for. -/
inductive FreeSlot where
  | regA (i : Fin 15)
  | regB (i : Fin 15)
  | sp
  | ssa (i : Fin 4)
  | hlt
  | highBits
deriving DecidableEq, Repr

namespace Config

/-- RESET_PC. DESIGN CHOICE (unsafe, log 4): the spec leaves it open (R251, D4). -/
def resetPc : Word := 0x00000000#32

/-- GPR_RESET and SP_RESET. DESIGN CHOICE (unsafe, log 3): the spec gives no value (R32, D5). -/
def gprReset : Word := 0x00000000#32

/-- SSA_RESET. DESIGN CHOICE (unsafe, log 5): the spec gives no value (R204, D6); four distinct tags of the top of
memory. -/
def ssaReset (seg : Fin 4) : BitVec 23 := 0x7FFFFF#23 - BitVec.ofNat 23 seg.val

/-- The value of ST at reset (R18, R32). -/
def stReset : Word := 0x00000010#32

/-- CF_RESET: the spec's default (D9, log 7). -/
def cfReset : Bool := false

/-- CD_RESET: the spec's default (D9, log 7). -/
def cdReset : Bool := false

/-- The parameters of `State.reset`. PRESUMED (unsafe, log 8, log 17, log 26, log 31): the family's I/O addresses and
bit positions, interrupt frame (G8), coordinates and DRAV operands. -/
def paramsReset : Params where
  hstctl := 0xC0000100#32
  control := 0xC00000B0#32
  bitCF := 14
  bitHLT := 15
  bitCD := 15
  intFrame := .pcFirst
  signedXY := true
  dravAddrInRd := true

/-- The graphics I/O items at reset. DESIGN CHOICE (unsafe, log 21): the spec gives no value; four bits per pixel is
its only example. -/
def gfxReset : GfxRegs where
  org := false
  pbh := false
  pbv := false
  convsp := 0
  convdp := 0
  window := .off
  pixelSize := 4
  transparency := false
  pixelProcessing := false
  planeMasking := false

/-- Free value: N, C, Z, V after an instruction whose flag results are not in the source (N54, log 11). -/
opaque freeFlags (count : Nat) : BitVec 4

/-- Free value: a word the spec leaves unspecified, by what it stands for (U2, U3, U7, U8; logs 19, 25, 26, 28, 29, 30,
34). -/
opaque freeWord (count : Nat) (slot : FreeSlot) : Word

/-- Free value: whether a single pixel inside the window is drawn under window option 1 (N45, log 27). -/
opaque freeBit (count : Nat) (xy : Word) : Bool

/-- Free value: the pixel moved from a source pixel that the transfer itself overwrites (R144, log 24). -/
opaque freePixel (count : Nat) (dst : Word) : Word

/-- Free value: a source bit that the transfer itself overwrites (R142, log 24). -/
opaque freeSourceBit (count : Nat) (dst : Word) : Bool

/-- Free value: the pixel left at `dst` when transparency, pixel processing or plane masking is in effect, from the
source pixel and the pixel there before (R29, R148, log 22). -/
opaque processPixel (count : Nat) (io : GfxRegs) (dst source old : Word) : Word

/-- How far from OFFSET an XY address other than the origin lies; the spec does not give the formula (R70, N44,
log 20). -/
opaque xyDisplacement (use : XYUse) (io : GfxRegs) (pitch xy : Word) : Word

/-- The lowest-address corner of the array of a PIXBLT L,L with PBH or PBV set, from its starting corner, its pitch
and the dimensions; the spec does not give it (R144, log 25). -/
opaque cornerBase (io : GfxRegs) (corner pitch dydx : Word) : Word

/-- The address an advancing DRAV leaves, from the address and the other operand (R151, log 31). -/
opaque advanceXY (addr step : Word) : Word

/-- How many points a LINE draws, from its operands (R150, log 30). -/
opaque lineLength (z : Bool) (io : GfxRegs) (wstart wend dydx : Word) (r : LineRegs) : Nat

/-- How LINE advances after a point, from its operands: the algorithm is not in the source (R150, log 30). -/
opaque lineAdvance (z : Bool) (io : GfxRegs) (wstart wend dydx : Word) (r : LineRegs) : LineRegs

/-- The result of CPW's comparison of a point with the window, from its two registers, WSTART and WEND (R153, log 33). -/
opaque cpwResult (rs rd wstart wend : Word) : Word

/-- Free value: the pixels, as sources and destinations, that a PIXBLT or FILL resumed from registers that hold no context
moves (U8, log 19). -/
opaque lostTransfers (count : Nat) : List (PixelSource × Word)

/-- Whether condition code `c` holds for a value of ST: the parameter `cond` (R179, N48, log 12). -/
opaque condition (c : BitVec 4) (st : Word) : Bool

/-- Whether a DSJ form jumps, from ST and its register (R181, log 13). -/
opaque dsjTaken (form : DsjForm) (st rd : Word) : Bool

/-- What a DSJ form leaves in its register (R181, log 13). -/
opaque dsjResult (form : DsjForm) (st rd : Word) : Word

/-- Where a DSJS that jumps goes, before its four LSBs are cleared (R181, log 13). -/
opaque dsjsTarget (pc : Word) (back : Bool) (offset : BitVec 5) : Word

/-- Free value: the absolute address that TRAP N loads (R176, log 16). -/
opaque trapAddress (count : Nat) (n : BitVec 5) : Word

/-- INT_ST: ST after interrupt entry (R231, D13, log 17). -/
opaque intSt (st : Word) : Word

/-- Free value: the graphics I/O items after a reset in mid-run, which the spec does not mention (R250, log 40). -/
opaque gfxAfterReset (count : Nat) : GfxRegs

/-- Free value: which of several segments with the same tag a lookup takes (D6, log 39). -/
opaque matchChoice (count : Nat) (addr : Word) : Nat

end Config

end Sys2Proof
end

