-- ==== Sys2Proof/Machine/State.lean ====
section
/-! DEFINITION. The state of the machine (10_state.md), as plain data, the reasons a step can stop, and the state after
reset. -/

namespace Sys2Proof.Machine

/-- Memory (R50, R51): a list of (byte number, byte) in canonical form (`Memory.wf`). Byte `k` holds the bits at
addresses `8k` to `8k + 7`, the bit at `8k + i` being bit `i` of the byte (R52). -/
abbrev Memory := List Host.Cell

/-- What a byte that the list does not hold reads as. DESIGN CHOICE (unsafe, log 10): the spec gives memory no reset
contents. -/
def Memory.unlisted : Byte := 0x00#8

/-- The canonical form: byte numbers strictly rise, lie in the address space, and no entry equals what an unlisted byte
reads as, so that equal memories are equal lists. -/
abbrev Memory.wf (m : Memory) : Prop :=
  m.Pairwise (fun x y => x.1 < y.1) ∧ ∀ x ∈ m, x.1 < addressSpaceBytes ∧ x.2 ≠ Memory.unlisted

/-- One segment of the instruction cache (R26, R193): its segment start address register, its eight present flags and
its eight subsegments of four words. -/
structure Segment where
  ssa : BitVec 23
  present : Vector Bool 8
  data : Vector (Vector Word16 4) 8
deriving DecidableEq, Repr

/-- The instruction cache (R26): four segments and the LRU stack of their numbers, most recently used first (R194). -/
structure Cache where
  segs : Vector Segment 4
  lru : List (Fin 4)
deriving DecidableEq, Repr

/-- A segment of the cache. -/
def Cache.seg (c : Cache) (g : Fin 4) : Segment := c.segs.get g

/-- A present flag of a segment (R193). -/
def Segment.isPresent (g : Segment) (sub : Fin 8) : Bool := g.present.get sub

/-- The four words of a subsegment (R193). -/
def Segment.line (g : Segment) (sub : Fin 8) : Vector Word16 4 := g.data.get sub

/-- A request for an interrupt (R231 to R233, R236): whether IE masks it, its priority, and the address it loads into PC.
The spec describes neither sources, priorities nor vectors, so they come with the request (D13, log 17). -/
structure Irq where
  maskable : Bool
  priority : Nat
  vector : Word
deriving DecidableEq, Repr

/-- A write of one 16-bit word by the host (R71, D15). -/
structure HostWrite where
  addr : Word
  value : Word16
deriving DecidableEq, Repr

/-- The data write that the CPU has issued and memory has not yet received (R31 a, R63): `len` bits of one memory word,
and what memory still holds there. -/
structure PostedWrite where
  addr : Word
  len : Nat
  value : Word
  old : Word
deriving DecidableEq, Repr

/-- What a PIXBLT or FILL still has to do and what it leaves when it completes: the transfers in order, the final B0 to
B3 and B7, the final N, C, Z and V, and whether the source registers are operands (they are not of FILL, R141). -/
structure BlitPlan where
  ops : List PixelOp
  saddr : Word
  sptch : Word
  daddr : Word
  dptch : Word
  dydx : Word
  flags : BitVec 4
  hasSource : Bool
deriving DecidableEq, Repr

/-- The context of an interrupted PIXBLT or FILL (R31 b, R126, R234): the contents of B0 to B14 that stand for it and
the rest of the instruction (log 19). -/
structure Suspended where
  bfile : Vector Word 15
  rest : BlitPlan
deriving DecidableEq, Repr

/-- What may happen next outside the CPU (R9, R71, R233, R250; log 40). -/
inductive Input where
  /-- The CPU executes one instruction. `inside` says where the host's writes fall among the instruction's memory cycles
  (R57): `none` lets one cycle of the CPU, or the lookup of one fetch, go, `some w` is a write of the host; what is left over
  falls after the last. -/
  | execute (inside : List (Option HostWrite))
  /-- An interrupt is requested at this instruction boundary (R233). -/
  | request (irq : Irq)
  /-- An interrupt is requested after `done` transfers of the PIXBLT or FILL that comes next (R233, R234); `inside` is as
  for `execute`. -/
  | interruptBlit (irq : Irq) (done : Nat) (inside : List (Option HostWrite))
  /-- The host writes one 16-bit word of local memory or of HSTCTL or CONTROL (R71, D15), after the CPU's write in
  flight. -/
  | hostWrite (addr : Word) (value : Word16)
  /-- The same, before memory has received the CPU's write in flight (R31 a, R63). -/
  | hostWriteFirst (addr : Word) (value : Word16)
  /-- The GSP is reset (R250). -/
  | reset
deriving DecidableEq, Repr

/-- The state. -/
structure State where
  /-- A0 to A14 (R10, R11). -/
  a : Vector Word 15
  /-- B0 to B14 (R10, R13). -/
  b : Vector Word 15
  /-- The one stack pointer, index 15 of both files (R12). -/
  sp : Word
  /-- The program counter (R15, R16). -/
  pc : Word
  /-- The status register (R18). -/
  st : Word
  /-- The instruction cache (R26). -/
  cache : Cache
  /-- The one memory space, HSTCTL and CONTROL included (R50), as the CPU's own accesses find it: the write in flight
  counts as made (R64). -/
  mem : Memory
  /-- The write in flight (R31 a): what of `mem` memory has not yet received. -/
  posted : Option PostedWrite
  /-- The I/O items the spec names without an address (R29). -/
  io : GfxRegs
  /-- Interrupts requested and not yet taken, in order of arrival (R31 c, R236). -/
  pending : List Irq
  /-- A return has restored PBX = 1, so the instruction at PC, a PIXBLT or FILL, is to be resumed (R31 b, R234). -/
  resuming : Bool
  /-- Contexts of interrupted PIXBLTs and FILLs, latest first (R31 b). -/
  suspended : List Suspended
  /-- The spec's open parameters (R5), constant. -/
  params : Params
  /-- The model's own: how many times free values have been drawn (log 35). -/
  freeCount : Nat
  /-- The model's own: what the outside world does next, oldest first (log 40). -/
  inputs : List Input
  /-- The model's own: where the host's writes fall among the memory cycles still to come in this step (R57, log 40). -/
  inside : List (Option HostWrite)
  /-- The model's own, read by Safety alone: the subsegments of the cache of which a word has been written in memory since
  they were loaded (R212, log 38). -/
  rewritten : List (Fin 4 × Fin 8)
deriving DecidableEq, Repr

/-- Reasons to stop with a fault. There are none: the spec describes no synchronous exception (R230), and what it calls
a fault of the program is a side condition of claims (`Safety.ProgramFault`, log 50). -/
inductive Fault where
deriving DecidableEq, Repr

/-- Reasons to refuse an instruction. -/
inductive Refusal where
  /-- The dispatch of an instruction without a meaning; no instruction is left without one. Safe. -/
  | notModelled (mnemonic : String)
  /-- The step, on a first word that is in no row of the opcode map (R92, D3). Safe: nothing is claimed of it. -/
  | undecodable (word : Word16)
deriving DecidableEq, Repr

/-- The outcome of a step. -/
abbrev Outcome := Host.Outcome State Fault Refusal

/-- A cache segment at reset: no subsegment present (R204). -/
def Segment.atReset (seg : Fin 4) : Segment where
  ssa := Config.ssaReset seg
  present := Vector.replicate 8 false
  data := Vector.replicate 8 (Vector.replicate 4 0x0000#16)

/-- The LRU stack in numerical order, 0 on top (R204, D7). -/
def lruReset : List (Fin 4) := [0, 1, 2, 3]

/-- The cache at reset (R204). -/
def Cache.atReset : Cache where
  segs := Vector.ofFn Segment.atReset
  lru := lruReset

/-- The machine right after reset (R32, R250 to R252; logs 3 to 10). -/
def State.reset : State where
  a := Vector.replicate 15 Config.gprReset
  b := Vector.replicate 15 Config.gprReset
  sp := Config.gprReset
  pc := Config.resetPc
  st := Config.stReset
  cache := Cache.atReset
  mem := []
  posted := none
  io := Config.gfxReset
  pending := []
  resuming := false
  suspended := []
  params := Config.paramsReset
  freeCount := 0
  inputs := []
  inside := []
  rewritten := []

end Sys2Proof.Machine
end

