-- ==== Sys2Proof/Machine/Flags.lean ====
section
/-! DEFINITION. The status register (R18 to R25): its fields and every flag rule the spec gives. -/

namespace Sys2Proof.Machine

/-- The two programmable data types of ST (R22). -/
inductive FieldSel where
  | field0
  | field1
deriving DecidableEq, Repr

/-- The five-bit size code FS0 or FS1 (R18). -/
def stFieldCode (st : Word) : FieldSel → BitVec 5
  | .field0 => st.extractLsb' 0 5
  | .field1 => st.extractLsb' 6 5

/-- The field size in bits: the code, or 32 for code 0 (R20). -/
def stFieldSize (st : Word) (k : FieldSel) : Nat :=
  if stFieldCode st k = 0#5 then 32 else (stFieldCode st k).toNat

/-- FE0 or FE1: whether a loaded field is sign extended (R21). -/
def stFieldSigned (st : Word) : FieldSel → Bool
  | .field0 => st.getLsbD 5
  | .field1 => st.getLsbD 11

/-- IE, the master interrupt enable (R23). -/
def stIE (st : Word) : Bool := st.getLsbD 21

/-- PBX, PixBlt executing (R24). -/
def stPBX (st : Word) : Bool := st.getLsbD 25

/-- V, overflow (R25). -/
def stV (st : Word) : Bool := st.getLsbD 28

/-- Z, zero (R25). -/
def stZ (st : Word) : Bool := st.getLsbD 29

/-- C, carry (R25). -/
def stC (st : Word) : Bool := st.getLsbD 30

/-- N, negative (R25). -/
def stN (st : Word) : Bool := st.getLsbD 31

/-- The reserved bits 20:12, 24:22 and 27:26, in place (R19). -/
def stReserved (st : Word) : Word := st &&& 0x0DDFF000#32

/-- ST with N, C, Z, V replaced by the four bits, N first, and every other bit kept. -/
def setFlags (st : Word) (nczv : BitVec 4) : Word := nczv ++ st.extractLsb' 0 28

/-- ST with PBX set to a value and every other bit kept. -/
def setPBX (st : Word) (v : Bool) : Word :=
  if v then st ||| 0x02000000#32 else st &&& 0xFDFFFFFF#32

/-- N, C, Z, V under window option 1 with no common rectangle: V "is not set" (R128), so it is 1 afterwards only where
it was 1 before and the free value says so; N, C and Z are free (log 26). -/
def flagsNoRectangle (st : Word) (free : BitVec 4) : BitVec 4 :=
  if stV st then free else free &&& 0b1110#4

/-- The state with N, C, Z, V free: the flag results of most instructions are not in the source (N54, log 11). -/
def State.withFreeFlags (s : State) : State :=
  { s with st := setFlags s.st (Config.freeFlags s.freeCount) }

end Sys2Proof.Machine
end

