-- ==== Sys2Proof/Machine/Ops.lean ====
section
/-! DEFINITION. The named operations over memory and the machine: bits and fields of memory (R52, R58), the control
bits CF, CD, HLT (R28), flushing the cache (R205), the stack (R60), loading PC (R16), and taking and leaving an
exception (R231, R235). -/

namespace Sys2Proof.Machine

/-! ### Bytes -/

/-- The byte with the given number. -/
def Memory.readByte : Memory → Nat → Byte
  | [], _ => Memory.unlisted
  | (j, b) :: m, k => if j = k then b else Memory.readByte m k

/-- An entry put in its place, over the one with its number if there is one. -/
def Memory.insertByte (k : Nat) (v : Byte) : Memory → Memory
  | [] => [(k, v)]
  | (j, b) :: m =>
    if k < j then (k, v) :: (j, b) :: m
    else if j = k then (k, v) :: m
    else (j, b) :: Memory.insertByte k v m

/-- A byte written; the value that an unlisted byte reads as is kept by listing nothing. -/
def Memory.writeByte (m : Memory) (k : Nat) (v : Byte) : Memory :=
  if v = Memory.unlisted then m.filter (fun c => c.1 != k) else Memory.insertByte k v m

/-! ### Bits and values (R51, R52) -/

/-- The number of the byte that holds the bit at an address. -/
def byteNumber (a : Word) : Nat := a.toNat / 8

/-- The place of that bit in its byte. -/
def bitNumber (a : Word) : Nat := a.toNat % 8

/-- A byte with one bit replaced. -/
def setByteBit (b : Byte) (i : Nat) (v : Bool) : Byte :=
  if v then b ||| (1#8 <<< i) else b &&& ~~~(1#8 <<< i)

/-- The memory bit at an address. -/
def Memory.readBit (m : Memory) (a : Word) : Bool :=
  (m.readByte (byteNumber a)).getLsbD (bitNumber a)

/-- The memory bit at an address, replaced. -/
def Memory.writeBit (m : Memory) (a : Word) (v : Bool) : Memory :=
  m.writeByte (byteNumber a) (setByteBit (m.readByte (byteNumber a)) (bitNumber a) v)

/-- `MemRead` (R52): bit `i` of the value is the memory bit at `a + i`, modulo 2^32. -/
def Memory.readBits (m : Memory) (a : Word) : (n : Nat) → BitVec n
  | 0 => 0#0
  | n + 1 => BitVec.cons (m.readBit (a + BitVec.ofNat 32 n)) (m.readBits a n)

/-- `MemWrite` (R52): the memory bit at `a + i` becomes bit `i` of the value, for `i` below `n`, and no other bit
changes. -/
def Memory.writeBits (m : Memory) (a : Word) : Nat → Word → Memory
  | 0, _ => m
  | n + 1, v => (m.writeBits a n v).writeBit (a + BitVec.ofNat 32 n) (v.getLsbD n)

/-- An `n`-bit value of memory as a 32-bit word, zero extended. -/
def Memory.readZext (m : Memory) (a : Word) (n : Nat) : Word := (m.readBits a n).setWidth 32

/-- `MemWrite` over every bit but the one at `keep`. -/
def Memory.writeBitsBut (m : Memory) (keep a : Word) : Nat → Word → Memory
  | 0, _ => m
  | n + 1, v =>
    let m' := m.writeBitsBut keep a n v
    if a + BitVec.ofNat 32 n = keep then m' else m'.writeBit (a + BitVec.ofNat 32 n) (v.getLsbD n)

/-- Whether the `n` bits from `a` on hold the bit at `x`. -/
def covers (a : Word) (n : Nat) (x : Word) : Bool := decide ((x - a).toNat < n)

/-! ### Control bits (R28) -/

/-- The address of the CF bit (R28, log 9). -/
def State.cfAddr (s : State) : Word := s.params.hstctl + BitVec.ofNat 32 s.params.bitCF

/-- The address of the HLT bit (R28, log 9). -/
def State.hltAddr (s : State) : Word := s.params.hstctl + BitVec.ofNat 32 s.params.bitHLT

/-- The address of the CD bit (R28, log 9). -/
def State.cdAddr (s : State) : Word := s.params.control + BitVec.ofNat 32 s.params.bitCD

/-- CF, the cache flush bit. -/
def State.cf (s : State) : Bool := s.mem.readBit s.cfAddr

/-- HLT, the halt bit. -/
def State.hlt (s : State) : Bool := s.mem.readBit s.hltAddr

/-- CD, the cache disable bit. -/
def State.cd (s : State) : Bool := s.mem.readBit s.cdAddr

/-! ### Flushing and ordering the cache -/

/-- `touch` (R196): the segment on top, the others in the order they had. -/
def touch (lru : List (Fin 4)) (seg : Fin 4) : List (Fin 4) := seg :: lru.erase seg

/-- A segment with no subsegment present. -/
def Segment.clear (g : Segment) : Segment := { g with present := Vector.replicate 8 false }

/-- `Flush` (R205, D7): every present flag 0 and the LRU stack in numerical order; SSA and data kept. -/
def Cache.flush (c : Cache) : Cache where
  segs := Vector.ofFn (fun seg : Fin 4 => (c.seg seg).clear)
  lru := lruReset

/-! ### Addresses of words (R51, R192) -/

/-- The address of the memory word that holds a bit. -/
def wordAddr (a : Word) : Word := a.extractLsb' 4 28 ++ 0#4

/-- Address bits 31:9, compared with SSA (R192). -/
def tagOf (a : Word) : BitVec 23 := a.extractLsb' 9 23

/-- Address bits 8:6, the subsegment (R192). -/
def subOf (a : Word) : Fin 8 := (a.extractLsb' 6 3).toFin

/-- Address bits 5:4, the word within the subsegment (R192). -/
def wordOf (a : Word) : Fin 4 := (a.extractLsb' 4 2).toFin

/-- The words that an access of `size` bits at `a` touches (R55, D16): for each, the first of the value's bits that lies in
it and how many do. That the lowest word comes first is a DESIGN CHOICE (log 40). An access has at most 32 bits (R52), so it
touches at most three words. -/
def wordPieces (a : Word) (size : Nat) : List (Nat × Nat) :=
  let first := min size (16 - a.toNat % 16)
  let second := min (size - first) 16
  [(0, first), (first, second), (first + second, size - first - second)].filter (fun p => p.2 != 0)

/-! ### What reaches memory -/

/-- What a write to the word at `a` leaves `rewritten` (R212): the subsegments of that tag and place, in whatever
segment. -/
def State.nowRewritten (s : State) (a : Word) : List (Fin 4 × Fin 8) :=
  let copies := ([0, 1, 2, 3].filter (fun g : Fin 4 => (s.cache.seg g).ssa == tagOf a)).map (fun g => (g, subOf a))
  s.rewritten ++ copies.filter (fun c => !s.rewritten.contains c)

/-- What a write of `n` bits of one word that leaves `m` in memory does besides: writing 1 to CF flushes the cache at once
(R205, D22). -/
def State.afterStore (s : State) (a : Word) (n : Nat) (m : Memory) : State :=
  { s with
    mem := m
    cache := if covers a n s.cfAddr && m.readBit s.cfAddr then s.cache.flush else s.cache
    rewritten := s.nowRewritten a }

/-- A host write of one 16-bit memory word, the word that holds the addressed bit (R71, D15; log 40). The CPU's write in
flight has arrived before it. -/
def State.hostStore (s : State) (addr : Word) (value : Word16) : State :=
  let t := { s with posted := none }
  t.afterStore (wordAddr addr) 16 (t.mem.writeBits (wordAddr addr) 16 (value.setWidth 32))

/-- `n` bits of one word arriving from the CPU. The write bypasses the cache (R56, R67); only the host changes HLT (R244,
D20, log 9). -/
def State.arrive (s : State) (a : Word) (n : Nat) (v : Word) : State :=
  s.afterStore a n (s.mem.writeBitsBut s.hltAddr a n v)

/-- The host's write before the CPU's write in flight (R31 a, R63): it falls on memory as it was without that write, which
arrives after it. -/
def State.hostStoreFirst (s : State) (addr : Word) (value : Word16) : State :=
  match s.posted with
  | none => s.hostStore addr value
  | some p =>
    ({ s with mem := s.mem.writeBitsBut s.hltAddr p.addr p.len p.old }.hostStore addr value).arrive p.addr p.len p.value

/-! ### The CPU's memory cycles (R55, R57)

Each word that an access touches takes one cycle, and the host may write between any two cycles (D15). DESIGN CHOICE
(log 40): the write of a part of a word is one cycle too. -/

/-- The host's writes that fall before the CPU's next cycle. -/
def State.hostTurn : List (Option HostWrite) → State → State
  | [], s => { s with inside := [] }
  | none :: rest, s => { s with inside := rest }
  | some w :: rest, s => State.hostTurn rest (s.hostStore w.addr w.value)

/-- The host's writes that fall after the CPU's last cycle. -/
def State.hostRest : List (Option HostWrite) → State → State
  | [], s => { s with inside := [] }
  | none :: rest, s => State.hostRest rest s
  | some w :: rest, s => State.hostRest rest (s.hostStore w.addr w.value)

/-- The CPU's turn for a memory cycle, or for the lookup of a fetch: what the host writes before it is written. -/
def State.cycle (s : State) : State := State.hostTurn s.inside s

/-- `MemRead` by the CPU (R52), word by word: the value, zero extended, and the state after. -/
def State.load (s : State) (a : Word) (n : Nat) : Word × State :=
  (wordPieces a n).foldl
    (fun r p =>
      let t := r.2.cycle
      (r.1 ||| (t.mem.readZext (a + BitVec.ofNat 32 p.1) p.2 <<< p.1), t))
    (0#32, s)

/-- One cycle of a `MemWrite`: bits of one word, which memory may receive only while the next instruction runs (R63). -/
def State.writeWord (s : State) (a : Word) (n : Nat) (v : Word) : State :=
  { s.arrive a n v with posted := some { addr := a, len := n, value := v, old := s.mem.readZext a n } }

/-- `MemWrite` by the CPU (R52), word by word. -/
def State.store (s : State) (a : Word) (n : Nat) (v : Word) : State :=
  (wordPieces a n).foldl (fun t p => t.cycle.writeWord (a + BitVec.ofNat 32 p.1) p.2 (v >>> p.1)) s

/-! ### Fields (R58) -/

/-- The value of a field as a register takes it (R58): `size(FSk)` bits, extended as FEk says (R21); and the state after. -/
def State.readField (s : State) (k : FieldSel) (a : Word) : Word × State :=
  let (v, t) := s.load a (stFieldSize s.st k)
  (if stFieldSigned s.st k then (v.setWidth (stFieldSize s.st k)).signExtend 32 else v, t)

/-- A field written with the low `size(FSk)` bits of a value (R58). -/
def State.writeField (s : State) (k : FieldSel) (a v : Word) : State :=
  s.store a (stFieldSize s.st k) v

/-! ### PC and the stack -/

/-- A value as PC takes it: the four LSBs set to 0 (R16, R172, R174). -/
def alignPc (a : Word) : Word := wordAddr a

/-- PC loaded with an address (R172, R174). -/
def State.loadPc (s : State) (a : Word) : State := { s with pc := alignPc a }

/-- `Push32` (R60). -/
def State.push32 (s : State) (v : Word) : State :=
  { s with sp := s.sp - 32#32 }.store (s.sp - 32#32) 32 v

/-- `Pop32` (R60): the value and the state after. -/
def State.pop32 (s : State) : Word × State :=
  let (v, t) := s.load s.sp 32
  (v, { t with sp := t.sp + 32#32 })

/-! ### Exceptions -/

/-- The state after free values have been drawn: the next ones are others (log 35). -/
def State.tick (s : State) : State := { s with freeCount := s.freeCount + 1 }

/-- The frame of an exception: PC and ST pushed in the order INT_FRAME gives (R231, D13). -/
def State.pushFrame (s : State) (pc st : Word) : State :=
  match s.params.intFrame with
  | .pcFirst => (s.push32 pc).push32 st
  | .stFirst => (s.push32 st).push32 pc

/-- Taking an exception (R231): PC and ST are pushed, ST becomes INT_ST of the ST saved, PC the target. -/
def State.enterException (s : State) (savedPc savedSt target : Word) : State :=
  { (s.pushFrame savedPc savedSt).loadPc target with st := Config.intSt savedSt }

/-- ST and PC as a return restores them: the four LSBs of PC are cleared, and PBX = 1 tells the CPU to resume the
instruction at PC (R234, R235). -/
def State.restore (s : State) (pc st : Word) : State :=
  { s.loadPc pc with st, resuming := stPBX st }

/-- Returning from an exception (R235): ST and PC are popped in the reverse order of the pushes. -/
def State.returnFromException (s : State) : State :=
  let (first, s1) := s.pop32
  let (second, s2) := s1.pop32
  match s.params.intFrame with
  | .pcFirst => s2.restore second first
  | .stFirst => s2.restore first second

/-- Whether a request may be taken now: IE masks the maskable ones (R232). -/
def State.admits (s : State) (irq : Irq) : Bool := !irq.maskable || stIE s.st

end Sys2Proof.Machine
end

