-- ==== Sys2Proof/Machine/Cache.lean ====
section
/-! DEFINITION. The instruction cache (43_instruction_cache.md): lookup, the three outcomes of a fetch, bypass, and the
fetch of a whole instruction (R170, R197). -/

namespace Sys2Proof.Machine

/-- The address `tag : sub : word : 0000` (R200). -/
def lineAddr (tag : BitVec 23) (sub : Fin 8) (word : Fin 4) : Word :=
  tag ++ (BitVec.ofFin sub : BitVec 3) ++ (BitVec.ofFin word : BitVec 2) ++ 0#4

/-- The segments whose SSA equals a tag (R198). -/
def Cache.matching (c : Cache) (tag : BitVec 23) : List (Fin 4) :=
  [0, 1, 2, 3].filter (fun seg : Fin 4 => (c.seg seg).ssa == tag)

/-- The matching segment a lookup takes; with several, any of them (D6): the one a free value picks (log 39). -/
def pickSegment (found : List (Fin 4)) (choice : Nat) : Option (Fin 4) :=
  match found with
  | [] => none
  | [seg] => some seg
  | seg :: more => some ((seg :: more).getD (choice % (more.length + 1)) seg)

/-- The three outcomes of a lookup (R198), with the segment: the matching one, or the victim. -/
inductive LookupResult where
  | hit (seg : Fin 4)
  | subsegmentMiss (seg : Fin 4)
  | segmentMiss (seg : Fin 4)
deriving DecidableEq, Repr

/-- The least recently used segment, the bottom of the LRU stack (R194, R203). -/
def Cache.victim (c : Cache) : Fin 4 := c.lru.getD 3 0

/-- The lookup of an address (R198). -/
def Cache.lookup (c : Cache) (choice : Nat) (a : Word) : LookupResult :=
  match pickSegment (c.matching (tagOf a)) choice with
  | some seg => if (c.seg seg).isPresent (subOf a) then .hit seg else .subsegmentMiss seg
  | none => .segmentMiss c.victim

/-- A segment with one subsegment loaded and marked present (R200). -/
def Segment.fill (g : Segment) (sub : Fin 8) (line : Vector Word16 4) : Segment :=
  { g with data := g.data.set sub line, present := g.present.set sub true }

/-- The cache with a subsegment loaded and its segment moved to the top of the LRU stack (R200, R201). -/
def Cache.install (c : Cache) (seg : Fin 4) (sub : Fin 8) (line : Vector Word16 4) : Cache where
  segs := c.segs.set seg ((c.seg seg).fill sub line)
  lru := touch c.lru seg

/-- The cache with the P flag of one subsegment set: its load has begun, and a flush undoes it. -/
def Cache.claim (c : Cache) (seg : Fin 4) (sub : Fin 8) : Cache :=
  { c with segs := c.segs.set seg { c.seg seg with present := (c.seg seg).present.set sub true } }

/-- The cache with a segment replaced: its present flags cleared and its SSA loaded (R201). -/
def Cache.retag (c : Cache) (seg : Fin 4) (tag : BitVec 23) : Cache :=
  { c with segs := c.segs.set seg { (c.seg seg).clear with ssa := tag } }

/-- Whether fetches bypass the cache (R206, R208). -/
def State.bypass (s : State) : Bool := s.cf || s.cd

/-- The segment choice of a fetch at an address (D6, log 39). -/
def State.fetchChoice (s : State) (a : Word) : Nat := Config.matchChoice s.freeCount a

/-- The four words of a subsegment read from memory, one cycle each (R200), and the state after. DESIGN CHOICE (log 40): the
lowest word comes first; the order is not in the source (N57). -/
def State.loadLine (s : State) (tag : BitVec 23) (sub : Fin 8) : Vector Word16 4 × State :=
  let (w0, s0) := s.load (lineAddr tag sub 0) 16
  let (w1, s1) := s0.load (lineAddr tag sub 1) 16
  let (w2, s2) := s1.load (lineAddr tag sub 2) 16
  let (w3, s3) := s2.load (lineAddr tag sub 3) 16
  (#v[w0.setWidth 16, w1.setWidth 16, w2.setWidth 16, w3.setWidth 16], s3)

/-- A miss: the subsegment is loaded into a segment and the word read from it (R200). Its P flag stands from before the
four reads, so that a flush by the host among them, which clears it, leaves nothing in the cache even if CF is 0 again by the
last of them: the first fetch after is a miss (R68, R205 to R207). DESIGN CHOICE (log 40): the fetch under way returns the
word it has read, before or after such a flush. DESIGN CHOICE (log 38): the load counts as begun when the miss is found, so
for Safety's `rewritten` a host write from then on comes after it, also one that a later one of the four reads still sees. -/
def State.fillFrom (s : State) (seg : Fin 4) (a : Word) : Word16 × State :=
  let begun := { s with
    cache := s.cache.claim seg (subOf a)
    rewritten := s.rewritten.filter (fun c => c != (seg, subOf a)) }
  let (line, t) := begun.loadLine (tagOf a) (subOf a)
  (line.get (wordOf a),
    if (t.cache.seg seg).isPresent (subOf a) then { t with cache := t.cache.install seg (subOf a) line } else t)

/-- `FetchWord` (R197) at its turn: the word and the state after. Under bypass the word is memory's and the cache
unchanged. -/
def State.fetchNow (s : State) (a : Word) : Word16 × State :=
  if s.bypass then
    let (w, t) := s.load a 16
    (w.setWidth 16, t)
  else
    match s.cache.lookup (s.fetchChoice a) a with
    | .hit seg =>
      (((s.cache.seg seg).line (subOf a)).get (wordOf a), { s with cache := { s.cache with lru := touch s.cache.lru seg } })
    | .subsegmentMiss seg => s.fillFrom seg a
    | .segmentMiss seg => { s with cache := s.cache.retag seg (tagOf a) }.fillFrom seg a

/-- `FetchWord` (R197): the word and the state after. The host may write before CF and CD are looked at, and so between two
fetches of one instruction, hits or misses (R57, D15); what it writes there counts for this fetch (R207, D22). -/
def State.fetchWord (s : State) (a : Word) : Word16 × State := s.cycle.fetchNow a

/-- The word that `FetchWord` returns. -/
def State.fetchedWord (s : State) (a : Word) : Word16 := (s.fetchWord a).1

/-- The cache after `FetchWord`. -/
def State.fetchCache (s : State) (a : Word) : Cache := (s.fetchWord a).2.cache

/-- The state after the word at PC is fetched: PC has moved on by 16 (R17, R170). -/
def State.advance (s : State) : State :=
  let t := (s.fetchWord s.pc).2
  { t with pc := t.pc + 16#32 }

/-- The words fetched from PC on, and the state after (R170). -/
def State.fetchWords (s : State) : Nat → List Word16 × State
  | 0 => ([], s)
  | n + 1 =>
    let (ws, t) := s.advance.fetchWords n
    (s.fetchedWord s.pc :: ws, t)

/-- The number of words of the instruction that a first word begins (R82). -/
def lengthOf (w : Word16) : Nat :=
  match findRow w with
  | some r => r.extra + 1
  | none => 1

/-- The fetch of one instruction (R170): its first word tells how many words are fetched, each through the cache. -/
def State.fetchInstr (s : State) : Except DecodeError (Instr × State) :=
  let (ws, t) := s.fetchWords (lengthOf (s.fetchedWord s.pc))
  match decode ws with
  | .ok (i, _) => .ok (i, t.tick)
  | .error e => .error e

end Sys2Proof.Machine
end

