-- ==== Sys2Proof/Machine/Operands.lean ====
section
/-! DEFINITION. The operand forms: registers (R83, R101), immediates and displacements (R85, R86), the implied graphics
operands (R120 to R140), XY values (R121), window and common rectangle (R128), colour alignment (R138). -/

namespace Sys2Proof.Machine

/-! ### Registers -/

/-- A register read: index 15 of either file is SP (R12, R101). -/
def State.readReg (s : State) (f : RFile) (i : RegIdx) : Word :=
  if h : i.val < 15 then
    match f with
    | .A => s.a[i.val]
    | .B => s.b[i.val]
  else s.sp

/-- A register write: index 15 of either file is SP (R12, R101). -/
def State.writeReg (s : State) (f : RFile) (i : RegIdx) (v : Word) : State :=
  if h : i.val < 15 then
    match f with
    | .A => { s with a := s.a.set i.val v }
    | .B => { s with b := s.b.set i.val v }
  else { s with sp := v }

/-- The load of a field into a register (R58). No instruction of the opcode table performs it (N46). -/
def State.fieldLoad (s : State) (k : FieldSel) (f : RFile) (dst : RegIdx) (a : Word) : State :=
  let (v, t) := s.readField k a
  t.writeReg f dst v

/-- The store of a field from a register (R58), in the spec's reading. No instruction of the opcode table performs it
(N46). -/
def State.fieldStore (s : State) (k : FieldSel) (f : RFile) (src : RegIdx) (a : Word) : State :=
  s.writeField k a (s.readReg f src)

/-- Whether two designators name one register: the same index of the same file, or SP twice (R12). -/
abbrev sameRegister (f : RFile) (i : RegIdx) (g : RFile) (j : RegIdx) : Prop :=
  i = j ∧ (i = 15 ∨ f = g)

/-- SADDR, B0 (R130). -/
def State.saddr (s : State) : Word := s.b[0]
/-- SPTCH, B1 (R131). -/
def State.sptch (s : State) : Word := s.b[1]
/-- DADDR, B2 (R132). -/
def State.daddr (s : State) : Word := s.b[2]
/-- DPTCH, B3 (R133). -/
def State.dptch (s : State) : Word := s.b[3]
/-- OFFSET, B4 (R134). -/
def State.offset (s : State) : Word := s.b[4]
/-- WSTART, B5 (R135). -/
def State.wstart (s : State) : Word := s.b[5]
/-- WEND, B6 (R136). -/
def State.wend (s : State) : Word := s.b[6]
/-- DYDX, B7 (R137). -/
def State.dydx (s : State) : Word := s.b[7]
/-- COLOR0, B8 (R138). -/
def State.color0 (s : State) : Word := s.b[8]
/-- COLOR1, B9 (R139). -/
def State.color1 (s : State) : Word := s.b[9]

/-- A free value for a B-file register. -/
def State.freeB (s : State) (i : Fin 15) : Word := Config.freeWord s.freeCount (.regB i)

/-- The B file with B10 to B14 any values (R123, U7). -/
def State.clobberTemps (s : State) (b : Vector Word 15) : Vector Word 15 :=
  ((((b.set 10 (s.freeB 10)).set 11 (s.freeB 11)).set 12 (s.freeB 12)).set 13 (s.freeB 13)).set 14 (s.freeB 14)

/-! ### Immediates and displacements -/

/-- A 16-bit immediate, sign extended (R91). PRESUMED (unsafe, log 1). -/
def shortImmediate (imm : Word16) : Word := imm.signExtend 32

/-- The offset of a signed 8-bit word displacement (R86). -/
def offset8 (disp : BitVec 8) : Word := disp.signExtend 32 <<< 4

/-- The offset of a signed 16-bit word displacement (R86). -/
def offset16 (disp : Word16) : Word := disp.signExtend 32 <<< 4

/-- Whether a condition code holds. PRESUMED (unsafe, log 12): 0000 always does; the others are the parameter `cond`
(R179, N48). -/
def conditionHolds (c : BitVec 4) (st : Word) : Bool :=
  c == 0#4 || Config.condition c st

/-! ### XY values -/

/-- The Y half, bits 31:16 (R121). -/
def yHalf (v : Word) : Word16 := v.extractLsb' 16 16

/-- The X half, bits 15:0 (R121). -/
def xHalf (v : Word) : Word16 := v.extractLsb' 0 16

/-- An XY value from its halves (R121). -/
def packXY (y x : Word16) : Word := y ++ x

/-- A coordinate as an integer; whether it is signed is a parameter (R121, log 26). -/
def coordinate (signed : Bool) (h : Word16) : Int := if signed then h.toInt else h.toNat

/-- DY, an unsigned count of rows (R137). -/
def rowsOf (dydx : Word) : Nat := (yHalf dydx).toNat

/-- DX, an unsigned count of pixels (R137). -/
def columnsOf (dydx : Word) : Nat := (xHalf dydx).toNat

/-- Each half of the destination less that of the source, without a borrow between them (R106, D17). -/
def subHalves (dst src : Word) : Word := packXY (yHalf dst - yHalf src) (xHalf dst - xHalf src)

/-- The pitch register that a use of the conversion reads, if any: R141 lists none for single pixels and CVXYL. -/
def State.pitchOf (s : State) (use : XYUse) : Word :=
  match use with
  | .source => s.sptch
  | .destination => s.dptch
  | .pixelSource | .pixelDestination | .convert => 0#32

/-- The XY-to-linear conversion of a value for a use (R70, R134): OFFSET is its base and its value at the origin; the rest
is open (log 20). -/
def State.linearOf (s : State) (use : XYUse) (xy : Word) : Word :=
  s.offset + if xy = 0#32 then 0#32 else Config.xyDisplacement use s.io (s.pitchOf use) xy

/-! ### The window -/

/-- Whether a point lies in the window, both corners included (R135, R136). -/
def State.inWindow (s : State) (x y : Int) : Bool :=
  let g := s.params.signedXY
  decide (coordinate g (xHalf s.wstart) ≤ x ∧ x ≤ coordinate g (xHalf s.wend)
    ∧ coordinate g (yHalf s.wstart) ≤ y ∧ y ≤ coordinate g (yHalf s.wend))

/-- The common rectangle of a destination array and the window, as its starting XY address and its dimensions, if the
two intersect (R128). -/
def commonRectangle (signed : Bool) (daddr dydx wstart wend : Word) : Option (Word × Word) :=
  let x0 := max (coordinate signed (xHalf daddr)) (coordinate signed (xHalf wstart))
  let y0 := max (coordinate signed (yHalf daddr)) (coordinate signed (yHalf wstart))
  let x1 := min (coordinate signed (xHalf daddr) + columnsOf dydx - 1) (coordinate signed (xHalf wend))
  let y1 := min (coordinate signed (yHalf daddr) + rowsOf dydx - 1) (coordinate signed (yHalf wend))
  if x0 ≤ x1 ∧ y0 ≤ y1 then
    some (packXY (BitVec.ofInt 16 y0) (BitVec.ofInt 16 x0),
      packXY (BitVec.ofInt 16 (y1 - y0 + 1)) (BitVec.ofInt 16 (x1 - x0 + 1)))
  else none

/-- Whether a single pixel with an XY destination is drawn: clipped to the window when a window option is selected
(R154, R156); whether option 1 draws inside it is free (N45, log 27). -/
def State.drawsAt (s : State) (xy : Word) : Bool :=
  let g := s.params.signedXY
  let inside := s.inWindow (coordinate g (xHalf xy)) (coordinate g (yHalf xy))
  match s.io.window with
  | .off => true
  | .clip => inside
  | .option1 => inside && Config.freeBit s.freeCount xy

/-! ### Colours -/

/-- The bits of a colour register that align with a destination address: bit `i` is bit `(addr + i) mod 16` of the
register, whose 16 MSBs have no effect (R138, R139). -/
def alignedColor (c addr : Word) : Word :=
  let h := xHalf c
  (((h ++ h : BitVec 32) ++ (h ++ h : BitVec 32) : BitVec 64) >>> (addr.toNat % 16)).setWidth 32

end Sys2Proof.Machine
end

