-- ==== Sys2Proof/Machine/Pixels.lean ====
section
/-! DEFINITION. Pixel transfers: one pixel (R138, R139), an array (R142 to R149), the plan of a PIXBLT or FILL, its
completion (R123, R125, R127), and its interruption and resumption (R126, R234). -/

namespace Sys2Proof.Machine

/-! ### One pixel -/

/-- The value of a transfer's source pixel, before pixel processing, and the state after it is read. -/
def State.sourcePixel (s : State) (op : PixelOp) : Word × State :=
  match op.src with
  | .memory a => s.load a s.io.pixelSize
  | .color c => (alignedColor c op.dst, s)
  | .expand a c0 c1 =>
    let (bit, t) := s.load a 1
    (alignedColor (if bit.getLsbD 0 then c1 else c0) op.dst, t)
  | .value v => (v, s)
  | .unknown _ => (Config.freePixel s.freeCount op.dst, s)
  | .unknownBit _ c0 c1 => (alignedColor (if Config.freeSourceBit s.freeCount op.dst then c1 else c0) op.dst, s)

/-- Whether transparency, pixel processing or plane masking is in effect (R29). -/
def GfxRegs.processes (io : GfxRegs) : Bool := io.transparency || io.pixelProcessing || io.planeMasking

/-- The pixel a transfer leaves, and the state after its reads: the source pixel, or a processed one that the spec does not
give (log 22). -/
def State.resultPixel (s : State) (op : PixelOp) : Word × State :=
  let (source, t) := s.sourcePixel op
  if GfxRegs.processes s.io then
    let (old, u) := t.load op.dst s.io.pixelSize
    (Config.processPixel s.freeCount s.io op.dst source old, u)
  else (source, t)

/-- The address of the first bit that a transfer writes. -/
def PixelOp.start (op : PixelOp) : Word := op.dst + BitVec.ofNat 32 op.lo

/-- One transfer: the bits `lo` to `lo + len - 1` of the pixel stored at their place. DESIGN CHOICE (log 23): each transfer
reads its source pixel, or its source bit, and then, where they are processed, the pixel at its destination by accesses of
its own, and then writes by one of its own, whatever other pixels lie in the same words; the spec does not say how many
pixels one access moves (R56). -/
def State.drawPixel (s : State) (op : PixelOp) : State :=
  let (pixel, t) := s.resultPixel op
  t.store (PixelOp.start op) op.len (pixel >>> op.lo)

/-- Transfers in order. -/
def State.drawPixels (s : State) (ops : List PixelOp) : State := ops.foldl State.drawPixel s

/-- The transfer of a whole pixel. -/
def State.wholePixel (s : State) (src : PixelSource) (dst : Word) : PixelOp :=
  { src, dst, lo := 0, len := s.io.pixelSize }

/-! ### Arrays -/

/-- How an operand of PIXBLT or FILL is addressed (R124). -/
inductive ArrayForm where
  | binary
  | linear
  | xy
deriving DecidableEq, Repr

/-- The address of element `col` of row `row` of an array: rows lie a pitch apart, elements a size apart (R125). -/
def elementAddr (base pitch : Word) (size row col : Nat) : Word :=
  base + BitVec.ofNat 32 row * pitch + BitVec.ofNat 32 (col * size)

/-- Rows or columns in the order they are moved: the highest first where a direction bit says so. -/
def inOrder (reversed : Bool) (n : Nat) : List Nat := if reversed then (List.range n).reverse else List.range n

/-- Whether a source pixel has a bit that one of the destination pixels covers. -/
def PixelSource.overwritten (src : PixelSource) (size : Nat) (dsts : List Word) : Bool :=
  match src with
  | .memory a => dsts.any (fun d => covers d size a || covers a size d)
  | .expand a _ _ => dsts.any (fun d => covers d size a)
  | .color _ | .value _ | .unknown _ | .unknownBit _ _ _ => false

/-- A source pixel whose value, or whose bit, is open. -/
def PixelSource.opened (src : PixelSource) : PixelSource :=
  match src with
  | .memory a => .unknown a
  | .expand a c0 c1 => .unknownBit a c0 c1
  | .color c => .color c
  | .value v => .value v
  | .unknown a => .unknown a
  | .unknownBit a c0 c1 => .unknownBit a c0 c1

/-- Where a source pixel lies in memory, if it does. -/
def PixelSource.address : PixelSource → Option Word
  | .memory a | .expand a _ _ | .unknown a | .unknownBit a _ _ => some a
  | .color _ | .value _ => none

/-- Transfers with every overwritten source open: the order of reads and writes within an array is not in the source
(R144, log 24). -/
def withoutOverlap (size : Nat) (ops : List PixelOp) : List PixelOp :=
  let dsts := ops.map PixelOp.dst
  ops.map (fun op => if PixelSource.overwritten op.src size dsts then { op with src := PixelSource.opened op.src } else op)

/-- The transfer of a pixel as one transfer for each memory word it lies in, since an interrupt may fall between words
(R233, R234). -/
def PixelOp.byWord (op : PixelOp) : List PixelOp :=
  (wordPieces op.dst op.len).map (fun p => { op with lo := p.1, len := p.2 })

/-- Whether element `col` of row `row` of the destination is drawn: an XY destination is clipped when a window option
is selected (R143). -/
def State.keepsElement (s : State) (dst : ArrayForm) (row col : Nat) : Bool :=
  if dst = .xy && s.io.window != .off then
    let g := s.params.signedXY
    s.inWindow (coordinate g (xHalf s.daddr) + col) (coordinate g (yHalf s.daddr) + row)
  else true

/-- The transfers of whole pixels of a DY by DX array, row by row; `up` and `left` say whether rows and columns go from
the highest to the lowest. -/
def State.arrayPixels (s : State) (up left : Bool) (dst : ArrayForm) (dstBase : Word)
    (srcOf : Nat → Nat → PixelSource) : List PixelOp :=
  (inOrder up (rowsOf s.dydx)).flatMap (fun row =>
    ((inOrder left (columnsOf s.dydx)).filter (s.keepsElement dst row)).map (fun col =>
      s.wholePixel (srcOf row col) (elementAddr dstBase s.dptch s.io.pixelSize row col)))

/-- The transfers of an array, word by word. -/
def State.arrayOps (s : State) (up left : Bool) (dst : ArrayForm) (dstBase : Word) (srcOf : Nat → Nat → PixelSource) :
    List PixelOp :=
  (withoutOverlap s.io.pixelSize (s.arrayPixels up left dst dstBase srcOf)).flatMap PixelOp.byWord

/-- Whether a pixel array operand starts at a manually adjusted corner: PIXBLT L,L with PBH or PBV (R130, R132). -/
def State.manualCorner (s : State) (src dst : ArrayForm) : Bool :=
  src = .linear && dst = .linear && (s.io.pbh || s.io.pbv)

/-- The linear address of the lowest pixel of the source array (R124, R130). -/
def State.sourceBase (s : State) (src dst : ArrayForm) : Word :=
  if src = .xy then s.linearOf .source s.saddr
  else if s.manualCorner src dst then Config.cornerBase s.io s.saddr s.sptch s.dydx
  else s.saddr

/-- The linear address of the lowest pixel of the destination array (R124, R132). -/
def State.destBase (s : State) (src dst : ArrayForm) : Word :=
  if dst = .xy then s.linearOf .destination s.daddr
  else if s.manualCorner src dst then Config.cornerBase s.io s.daddr s.dptch s.dydx
  else s.daddr

/-- A zero dimension: nothing is moved (R129). -/
def emptyArray (dydx : Word) : Bool := rowsOf dydx == 0 || columnsOf dydx == 0

/-! ### Plans -/

/-- The plan that moves nothing and keeps B0 to B3 and B7: what other plans start from. -/
def State.basePlan (s : State) (hasSource : Bool) : BlitPlan where
  ops := []
  saddr := s.saddr
  sptch := s.sptch
  daddr := s.daddr
  dptch := s.dptch
  dydx := s.dydx
  flags := Config.freeFlags s.freeCount
  hasSource := hasSource

/-- Window option 1 (R128): the common rectangle in DADDR and DYDX, any values where there is none; nothing is drawn.
SADDR is not stated and free (log 26). -/
def State.commonRectPlan (s : State) (hasSource : Bool) : BlitPlan :=
  let base := { s.basePlan hasSource with saddr := if hasSource then s.freeB 0 else s.saddr }
  match commonRectangle s.params.signedXY s.daddr s.dydx s.wstart s.wend with
  | some (start, dims) => { base with daddr := start, dydx := dims }
  | none =>
    { base with
      daddr := s.freeB 2
      dydx := s.freeB 7
      flags := flagsNoRectangle s.st (Config.freeFlags s.freeCount) }

/-- The source of element `col` of row `row` of a PIXBLT. -/
def State.pixbltSource (s : State) (src dst : ArrayForm) (row col : Nat) : PixelSource :=
  match src with
  | .binary => .expand (elementAddr (s.sourceBase src dst) s.sptch 1 row col) s.color0 s.color1
  | .linear | .xy => .memory (elementAddr (s.sourceBase src dst) s.sptch s.io.pixelSize row col)

/-- A PIXBLT from its start (R142 to R147). PBV = 1 moves the rows, PBH = 1 the columns of each row from the highest to
the lowest (R29, R125, R130; log 25). With PBV = 1 the final SADDR and DADDR are open (R125). -/
def State.pixbltPlan (s : State) (src dst : ArrayForm) : BlitPlan :=
  if dst = .xy && s.io.window = .option1 then s.commonRectPlan true
  else if emptyArray s.dydx then
    { s.basePlan true with saddr := s.freeB 0, daddr := s.freeB 2 }
  else
    { s.basePlan true with
      ops := s.arrayOps s.io.pbv s.io.pbh dst (s.destBase src dst) (s.pixbltSource src dst)
      saddr := if s.io.pbv then s.freeB 0 else s.sourceBase src dst + BitVec.ofNat 32 (rowsOf s.dydx) * s.sptch
      daddr := if s.io.pbv then s.freeB 2 else s.destBase src dst + BitVec.ofNat 32 (rowsOf s.dydx) * s.dptch }

/-- The linear address of the lowest pixel of a FILL's array (R124, R148). -/
def State.fillBase (s : State) (dst : ArrayForm) : Word :=
  if dst = .xy then s.linearOf .destination s.daddr else s.daddr

/-- A FILL from its start (R148, R149); what it leaves in DADDR is free (R132, log 29). DESIGN CHOICE (log 25): it goes
from the lowest row and column up whatever PBV and PBH are, which R29 calls PIXBLT directions. -/
def State.fillPlan (s : State) (dst : ArrayForm) : BlitPlan :=
  if dst = .xy && s.io.window = .option1 then s.commonRectPlan false
  else if emptyArray s.dydx then { s.basePlan false with daddr := s.freeB 2 }
  else
    { s.basePlan false with
      ops := s.arrayOps false false dst (s.fillBase dst) (fun _ _ => .color s.color1)
      daddr := s.freeB 2 }

/-! ### Completion, resumption, interruption -/

/-- The context that the B file now holds, if it holds one (R234, log 19). -/
def State.context (s : State) : Option Suspended :=
  s.suspended.find? (fun c => c.bfile == s.b)

/-- A resumption from registers that hold no context: what remains is not in the source (U8, log 19). -/
def State.lostPlan (s : State) (hasSource : Bool) : BlitPlan :=
  { s.basePlan hasSource with
    ops := (Config.lostTransfers s.freeCount).flatMap (fun p => PixelOp.byWord (s.wholePixel p.1 p.2))
    saddr := if hasSource then s.freeB 0 else s.saddr
    sptch := s.freeB 1
    daddr := s.freeB 2
    dptch := s.freeB 3 }

/-- What a PIXBLT or FILL does now: it resumes from the context in the B file where a return has restored PBX = 1, and
else starts afresh (R234). DESIGN CHOICE (log 18): a PBX = 1 that ST holds otherwise, as INT_ST may leave it, resumes
nothing. DESIGN CHOICE (log 19): the context alone says what is resumed, even where another PIXBLT or FILL than the
interrupted one lies at the restored PC. -/
def State.currentPlan (s : State) (fresh : BlitPlan) : BlitPlan :=
  if s.resuming then
    match s.context with
    | some c => c.rest
    | none => s.lostPlan fresh.hasSource
  else fresh

/-- The contexts left once the instruction has taken up its own. -/
def State.otherContexts (s : State) : List Suspended :=
  if s.resuming then s.suspended.eraseP (fun c => c.bfile == s.b) else s.suspended

/-- The B file after completion (R123, R125, R127, R128). -/
def State.finalB (s : State) (p : BlitPlan) : Vector Word 15 :=
  s.clobberTemps
    (((((s.b.set 0 p.saddr).set 1 p.sptch).set 2 p.daddr).set 3 p.dptch).set 7 p.dydx)

/-- A plan carried to its end: the transfers, the final registers and flags, PBX consumed (log 18). -/
def State.finishBlit (s : State) (p : BlitPlan) : State :=
  { s.drawPixels p.ops with
    b := s.finalB p
    st := setFlags (setPBX s.st false) p.flags
    resuming := false
    suspended := s.otherContexts }

/-- Whether the transfers before and from place `k` on lie in different memory words (R233, R234). -/
def wordBoundary (ops : List PixelOp) (k : Nat) : Bool :=
  match ops[k - 1]?, ops[k]? with
  | some before, some next => wordAddr (PixelOp.start before) != wordAddr (PixelOp.start next)
  | _, _ => false

/-- The B file inside a PIXBLT or FILL interrupted before a transfer: SADDR (of a PIXBLT) and DADDR point to the next word
of pixels (R126, R234, N58, log 19); B1, B3 and B10 to B14 are any values, those of a FILL too (U8). -/
def State.contextB (s : State) (p : BlitPlan) (next : Option PixelOp) : Vector Word 15 :=
  let daddr := (next.map (fun op => wordAddr (PixelOp.start op))).getD (s.freeB 2)
  let saddr := ((next.bind (fun op => PixelSource.address op.src)).map wordAddr).getD (s.freeB 0)
  s.clobberTemps
    ((((if p.hasSource then s.b.set 0 saddr else s.b).set 1 (s.freeB 1)).set 2 daddr).set 3 (s.freeB 3))

/-- A plan interrupted after `done` transfers: the B file holds the context, ST is pushed with PBX = 1 and PC with the
address of the instruction itself, which is one word long (R231, R234). DESIGN CHOICE (log 11): N, C, Z and V of the ST
pushed are as they were before the instruction; what they are in its middle is not in the source (N54). -/
def State.interruptPlan (s : State) (p : BlitPlan) (done : Nat) (irq : Irq) : State :=
  let t := s.drawPixels (p.ops.take done)
  let b := s.contextB p p.ops[done]?
  let u := { t with
    b
    resuming := false
    suspended := { bfile := b, rest := { p with ops := p.ops.drop done } } :: s.otherContexts }
  (u.enterException (s.pc - 16#32) (setPBX s.st true) irq.vector).tick

end Sys2Proof.Machine
end

