-- ==== Sys2Proof/Machine/Arrays.lean ====
section
/-! DEFINITION. PIXBLT and FILL (R142 to R149): each carries out its plan, or resumes an interrupted one (R234). -/

namespace Sys2Proof.Machine

/-- PIXBLT L,L (R144). -/
def execPixbltLL (s : State) : Outcome :=
  .next (s.finishBlit (s.currentPlan (s.pixbltPlan .linear .linear)))

/-- PIXBLT L,XY (R145). -/
def execPixbltLXY (s : State) : Outcome :=
  .next (s.finishBlit (s.currentPlan (s.pixbltPlan .linear .xy)))

/-- PIXBLT XY,L (R146). -/
def execPixbltXYL (s : State) : Outcome :=
  .next (s.finishBlit (s.currentPlan (s.pixbltPlan .xy .linear)))

/-- PIXBLT XY,XY (R147). -/
def execPixbltXYXY (s : State) : Outcome :=
  .next (s.finishBlit (s.currentPlan (s.pixbltPlan .xy .xy)))

/-- PIXBLT B,L (R142). -/
def execPixbltBL (s : State) : Outcome :=
  .next (s.finishBlit (s.currentPlan (s.pixbltPlan .binary .linear)))

/-- PIXBLT B,XY (R143). -/
def execPixbltBXY (s : State) : Outcome :=
  .next (s.finishBlit (s.currentPlan (s.pixbltPlan .binary .xy)))

/-- FILL L (R148). -/
def execFillL (s : State) : Outcome :=
  .next (s.finishBlit (s.currentPlan (s.fillPlan .linear)))

/-- FILL XY (R149). -/
def execFillXY (s : State) : Outcome :=
  .next (s.finishBlit (s.currentPlan (s.fillPlan .xy)))

/-- The plan of an interruptible instruction: PIXBLT and FILL only (R234). -/
def blitPlanOf (i : Instr) (s : State) : Option BlitPlan :=
  match i with
  | .pixbltLL => some (s.currentPlan (s.pixbltPlan .linear .linear))
  | .pixbltLXY => some (s.currentPlan (s.pixbltPlan .linear .xy))
  | .pixbltXYL => some (s.currentPlan (s.pixbltPlan .xy .linear))
  | .pixbltXYXY => some (s.currentPlan (s.pixbltPlan .xy .xy))
  | .pixbltBL => some (s.currentPlan (s.pixbltPlan .binary .linear))
  | .pixbltBXY => some (s.currentPlan (s.pixbltPlan .binary .xy))
  | .fillL => some (s.currentPlan (s.fillPlan .linear))
  | .fillXY => some (s.currentPlan (s.fillPlan .xy))
  | .moveSame _ _ _ | .moveOther _ _ _ | .moviIW _ _ _ | .moviIL _ _ _ | .addiIW _ _ _ | .addiIL _ _ _
  | .subxy _ _ _ | .line _ | .drav _ _ _ | .cvxyl _ _ _ | .cpw _ _ _ | .pixtToXY _ _ _ | .pixtFromXY _ _ _
  | .pixtXYToXY _ _ _ | .trap _ | .calla _ | .callRs _ _ | .jacc _ _ | .jrcc8 _ _ | .jrcc16 _ _ | .dsj _ _ _
  | .dsjeq _ _ _ | .dsjne _ _ _ | .dsjs _ _ _ _ | .jump _ _ | .exgpc _ _ | .rets _ | .reti => none

end Sys2Proof.Machine
end

