-- ==== Sys2Proof/Machine/Control.lean ====
section
/-! DEFINITION. The instructions that replace PC (42_program_counter_effects.md) and the return from interrupt (R235).
Each runs with PC at the next sequential instruction, the PC' of R170. -/

namespace Sys2Proof.Machine

/-- A relative branch, taken or not (R173). -/
def State.branchIf (s : State) (taken : Bool) (offset : Word) : State :=
  if taken then s.loadPc (s.pc + offset) else s

/-- A DSJ form: the register it leaves and whether it jumps are not in the source (R181, log 13). -/
def State.decrementJump (s : State) (form : DsjForm) (f : RFile) (dst : RegIdx) (target : Word) : State :=
  let rd := s.readReg f dst
  let t := s.writeReg f dst (Config.dsjResult form s.st rd)
  (if Config.dsjTaken form s.st rd then t.loadPc target else t).withFreeFlags

/-- TRAP N (R176): an absolute branch to an address the spec does not give. PRESUMED (unsafe, log 16): PC and ST are
saved and ST changes as at an interrupt between instructions, PBX = 0 in the ST saved. -/
def execTrap (n : BitVec 5) (s : State) : Outcome :=
  .next (s.enterException s.pc (setPBX s.st false) (Config.trapAddress s.freeCount n))

/-- CALLA address (R177). -/
def execCalla (addr : Word) (s : State) : Outcome :=
  .next ((s.push32 s.pc).loadPc addr).withFreeFlags

/-- CALL Rs: the register is read before the push (R178, D18). -/
def execCallRs (f : RFile) (src : RegIdx) (s : State) : Outcome :=
  .next ((s.push32 s.pc).loadPc (s.readReg f src)).withFreeFlags

/-- JAcc address (R179). -/
def execJacc (c : BitVec 4) (addr : Word) (s : State) : Outcome :=
  .next (if conditionHolds c s.st then s.loadPc addr else s)

/-- JRcc with an 8-bit displacement (R180). -/
def execJrcc8 (c : BitVec 4) (disp : BitVec 8) (s : State) : Outcome :=
  .next (s.branchIf (conditionHolds c s.st) (offset8 disp))

/-- JRcc with a 16-bit displacement (R180). -/
def execJrcc16 (c : BitVec 4) (disp : Word16) (s : State) : Outcome :=
  .next (s.branchIf (conditionHolds c s.st) (offset16 disp))

/-- DSJ Rd,address (R181). -/
def execDsj (f : RFile) (dst : RegIdx) (disp : Word16) (s : State) : Outcome :=
  .next (s.decrementJump .dsj f dst (s.pc + offset16 disp))

/-- DSJEQ Rd,address (R181). -/
def execDsjeq (f : RFile) (dst : RegIdx) (disp : Word16) (s : State) : Outcome :=
  .next (s.decrementJump .dsjeq f dst (s.pc + offset16 disp))

/-- DSJNE Rd,address (R181). -/
def execDsjne (f : RFile) (dst : RegIdx) (disp : Word16) (s : State) : Outcome :=
  .next (s.decrementJump .dsjne f dst (s.pc + offset16 disp))

/-- DSJS Rd,address (R181): R173 must not be extended to its offset, so its target is not in the source (log 13). -/
def execDsjs (back : Bool) (offset : BitVec 5) (f : RFile) (dst : RegIdx) (s : State) : Outcome :=
  .next (s.decrementJump .dsjs f dst (Config.dsjsTarget s.pc back offset))

/-- JUMP Rs (R182). -/
def execJump (f : RFile) (src : RegIdx) (s : State) : Outcome :=
  .next (s.loadPc (s.readReg f src)).withFreeFlags

/-- EXGPC Rd (R183). PRESUMED (unsafe, log 14): the register receives PC'. -/
def execExgpc (f : RFile) (dst : RegIdx) (s : State) : Outcome :=
  .next ((s.writeReg f dst s.pc).loadPc (s.readReg f dst)).withFreeFlags

/-- RETS N (R184). PRESUMED (unsafe, log 15): N further words are dropped from the stack, as R91's table says. -/
def execRets (n : BitVec 5) (s : State) : Outcome :=
  let (target, t) := s.pop32
  .next ({ t with sp := t.sp + 16#32 * n.setWidth 32 }.loadPc target).withFreeFlags

/-- RETI (R235). -/
def execReti (s : State) : Outcome :=
  .next s.returnFromException

end Sys2Proof.Machine
end

