-- ==== Sys2Proof/Machine/Drawing.lean ====
section
/-! DEFINITION. LINE and the single-pixel instructions (R150 to R156). Their flag results are not in the source and
free (log 11). -/

namespace Sys2Proof.Machine

/-- A pixel of COLOR1 at an XY address (R139). -/
def State.colorOp (s : State) (xy : Word) : PixelOp :=
  s.wholePixel (.color s.color1) (s.linearOf .pixelDestination xy)

/-- The registers LINE starts from. -/
def State.lineRegs (s : State) : LineRegs where
  saddr := s.saddr
  daddr := s.daddr
  temps := #v[s.b[10], s.b[11], s.b[12], s.b[14]]

/-- LINE's registers after it has drawn `n` points (R150). -/
def State.lineAfter (s : State) (z : Bool) : Nat → LineRegs
  | 0 => s.lineRegs
  | n + 1 => Config.lineAdvance z s.io s.wstart s.wend s.dydx (s.lineAfter z n)

/-- How many points LINE draws (R150). -/
def State.lineCount (s : State) (z : Bool) : Nat :=
  Config.lineLength z s.io s.wstart s.wend s.dydx s.lineRegs

/-- The points LINE draws: DADDR "contains the XY address of the next DDA drawing point" (R132, R150). -/
def State.linePoints (s : State) (z : Bool) : List Word :=
  (List.range (s.lineCount z)).map (fun n => (s.lineAfter z n).daddr)

/-- The B file with LINE's registers put back; B13, which LINE does not define, is any value (U7). -/
def State.withLineRegs (s : State) (r : LineRegs) : Vector Word 15 :=
  ((((((s.b.set 0 r.saddr).set 2 r.daddr).set 10 r.temps[0]).set 11 r.temps[1]).set 12 r.temps[2]).set 13
    (s.freeB 13)).set 14 r.temps[3]

/-- LINE (R150): pixels of COLOR1 at the points that DADDR runs through, clipped to the window; how many there are and how
SADDR, DADDR, B10 to B12 and B14 advance is open (log 30). -/
def execLine (z : Bool) (s : State) : Outcome :=
  let t := s.drawPixels (((s.linePoints z).filter s.drawsAt).map s.colorOp)
  .next { t with b := s.withLineRegs (s.lineAfter z (s.lineCount z)) }.withFreeFlags

/-- DRAV Rs,Rd (R151): a pixel of COLOR1 at an XY address, which then advances; which operand is the address is a
parameter, how it advances is not in the source (log 31). -/
def execDrav (f : RFile) (src dst : RegIdx) (s : State) : Outcome :=
  let addrReg := if s.params.dravAddrInRd then dst else src
  let stepReg := if s.params.dravAddrInRd then src else dst
  let xy := s.readReg f addrReg
  let t := if s.drawsAt xy then s.drawPixel (s.colorOp xy) else s
  .next (t.writeReg f addrReg (Config.advanceXY xy (s.readReg f stepReg))).withFreeFlags

/-- CVXYL Rs,Rd (R152): the linear address of an XY address (log 32). -/
def execCvxyl (f : RFile) (src dst : RegIdx) (s : State) : Outcome :=
  .next (s.writeReg f dst (s.linearOf .convert (s.readReg f src))).withFreeFlags

/-- CPW Rs,Rd (R153): a point compared with the window; the result, and that Rd receives it, is not in the source
(log 33). -/
def execCpw (f : RFile) (src dst : RegIdx) (s : State) : Outcome :=
  .next (s.writeReg f dst (Config.cpwResult (s.readReg f src) (s.readReg f dst) s.wstart s.wend)).withFreeFlags

/-- PIXT Rs,*Rd.XY (R154): the pixel in Rs to the XY address in Rd, clipped to the window. -/
def execPixtToXY (f : RFile) (src dst : RegIdx) (s : State) : Outcome :=
  let xy := s.readReg f dst
  let op := s.wholePixel (.value (s.readReg f src)) (s.linearOf .pixelDestination xy)
  .next (if s.drawsAt xy then s.drawPixel op else s).withFreeFlags

/-- PIXT *Rs.XY,Rd (R155): the pixel at the XY address in Rs to Rd; the bits above it are not in the source (log 34).
DESIGN CHOICE (log 34): the pixel is what memory holds, whether or not transparency, pixel processing or plane masking is in
effect; the spec does not say that any of them changes a pixel loaded. -/
def execPixtFromXY (f : RFile) (src dst : RegIdx) (s : State) : Outcome :=
  let (pixel, t) := s.load (s.linearOf .pixelSource (s.readReg f src)) s.io.pixelSize
  .next (t.writeReg f dst (pixel ||| (Config.freeWord s.freeCount .highBits <<< (s.io.pixelSize : Nat)))).withFreeFlags

/-- PIXT *Rs.XY,*Rd.XY (R156): the pixel at one XY address to another, clipped to the window. -/
def execPixtXYToXY (f : RFile) (src dst : RegIdx) (s : State) : Outcome :=
  let xy := s.readReg f dst
  let op := s.wholePixel (.memory (s.linearOf .pixelSource (s.readReg f src))) (s.linearOf .pixelDestination xy)
  .next (if s.drawsAt xy then s.drawPixel op else s).withFreeFlags

end Sys2Proof.Machine
end

