-- ==== Sys2Proof/Machine/General.lean ====
section
/-! DEFINITION. The instructions on general registers (40_general_register_operands.md). Each runs with PC already past
its words (R170); its flag results are not in the source and free (log 11). -/

namespace Sys2Proof.Machine

/-- MOVE Rs,Rd within a file (R103). -/
def execMoveSame (f : RFile) (src dst : RegIdx) (s : State) : Outcome :=
  .next (s.writeReg f dst (s.readReg f src)).withFreeFlags

/-- MOVE Rs,Rd from file `f` to the other file (R103). -/
def execMoveOther (f : RFile) (src dst : RegIdx) (s : State) : Outcome :=
  .next (s.writeReg f.other dst (s.readReg f src)).withFreeFlags

/-- MOVI with a 16-bit immediate (R104). -/
def execMoviIW (f : RFile) (dst : RegIdx) (imm : Word16) (s : State) : Outcome :=
  .next (s.writeReg f dst (shortImmediate imm)).withFreeFlags

/-- MOVI with a 32-bit immediate (R104). -/
def execMoviIL (f : RFile) (dst : RegIdx) (imm : Word) (s : State) : Outcome :=
  .next (s.writeReg f dst imm).withFreeFlags

/-- ADDI with a 16-bit immediate: a 32-bit addition that wraps (R105, D10). -/
def execAddiIW (f : RFile) (dst : RegIdx) (imm : Word16) (s : State) : Outcome :=
  .next (s.writeReg f dst (s.readReg f dst + shortImmediate imm)).withFreeFlags

/-- ADDI with a 32-bit immediate: a 32-bit addition that wraps (R105, D10). -/
def execAddiIL (f : RFile) (dst : RegIdx) (imm : Word) (s : State) : Outcome :=
  .next (s.writeReg f dst (s.readReg f dst + imm)).withFreeFlags

/-- SUBXY Rs,Rd: two independent 16-bit subtractions, destination minus source (R106, D17). -/
def execSubxy (f : RFile) (src dst : RegIdx) (s : State) : Outcome :=
  .next (s.writeReg f dst (subHalves (s.readReg f dst) (s.readReg f src))).withFreeFlags

end Sys2Proof.Machine
end

