-- ==== Sys2Proof/Machine/Dispatch.lean ====
section
/-! DEFINITION. One arm per instruction, each a call of its meaning. -/

namespace Sys2Proof.Machine

/-- The meaning of an instruction, run with PC past its words (R170). -/
def exec (i : Instr) (s : State) : Host.Outcome State Fault Refusal :=
  match i with
  | .moveSame f src dst => Sys2Proof.Machine.execMoveSame f src dst s
  | .moveOther f src dst => Sys2Proof.Machine.execMoveOther f src dst s
  | .moviIW f dst imm => Sys2Proof.Machine.execMoviIW f dst imm s
  | .moviIL f dst imm => Sys2Proof.Machine.execMoviIL f dst imm s
  | .addiIW f dst imm => Sys2Proof.Machine.execAddiIW f dst imm s
  | .addiIL f dst imm => Sys2Proof.Machine.execAddiIL f dst imm s
  | .subxy f src dst => Sys2Proof.Machine.execSubxy f src dst s
  | .pixbltLL => Sys2Proof.Machine.execPixbltLL s
  | .pixbltLXY => Sys2Proof.Machine.execPixbltLXY s
  | .pixbltXYL => Sys2Proof.Machine.execPixbltXYL s
  | .pixbltXYXY => Sys2Proof.Machine.execPixbltXYXY s
  | .pixbltBL => Sys2Proof.Machine.execPixbltBL s
  | .pixbltBXY => Sys2Proof.Machine.execPixbltBXY s
  | .fillL => Sys2Proof.Machine.execFillL s
  | .fillXY => Sys2Proof.Machine.execFillXY s
  | .line z => Sys2Proof.Machine.execLine z s
  | .drav f src dst => Sys2Proof.Machine.execDrav f src dst s
  | .cvxyl f src dst => Sys2Proof.Machine.execCvxyl f src dst s
  | .cpw f src dst => Sys2Proof.Machine.execCpw f src dst s
  | .pixtToXY f src dst => Sys2Proof.Machine.execPixtToXY f src dst s
  | .pixtFromXY f src dst => Sys2Proof.Machine.execPixtFromXY f src dst s
  | .pixtXYToXY f src dst => Sys2Proof.Machine.execPixtXYToXY f src dst s
  | .trap n => Sys2Proof.Machine.execTrap n s
  | .calla addr => Sys2Proof.Machine.execCalla addr s
  | .callRs f src => Sys2Proof.Machine.execCallRs f src s
  | .jacc c addr => Sys2Proof.Machine.execJacc c addr s
  | .jrcc8 c disp => Sys2Proof.Machine.execJrcc8 c disp s
  | .jrcc16 c disp => Sys2Proof.Machine.execJrcc16 c disp s
  | .dsj f dst disp => Sys2Proof.Machine.execDsj f dst disp s
  | .dsjeq f dst disp => Sys2Proof.Machine.execDsjeq f dst disp s
  | .dsjne f dst disp => Sys2Proof.Machine.execDsjne f dst disp s
  | .dsjs back offset f dst => Sys2Proof.Machine.execDsjs back offset f dst s
  | .jump f src => Sys2Proof.Machine.execJump f src s
  | .exgpc f dst => Sys2Proof.Machine.execExgpc f dst s
  | .rets n => Sys2Proof.Machine.execRets n s
  | .reti => Sys2Proof.Machine.execReti s

end Sys2Proof.Machine
end

