-- ==== Sys2Proof/Machine/Events.lean ====
section
/-! DEFINITION. What happens at an instruction boundary: an instruction, an interrupt, a halt, a host write, a reset
(R231 to R236, R244, R250). -/

namespace Sys2Proof.Machine

/-- The word a decoding error is about. -/
def DecodeError.word : DecodeError → Word16
  | .undecodable w => w
  | .truncated w => w
  | .empty => 0#16

/-- What an instruction finds once it is fetched: a resumption is of a PIXBLT or FILL only (R234). -/
def State.forInstr (s : State) (i : Instr) : State :=
  { s with resuming := s.resuming && (blitPlanOf i s).isSome }

/-- Whether a PIXBLT or FILL lies at PC, as a fetch would now find it; looking changes nothing (log 18). -/
def State.blitAtPc (s : State) : Bool :=
  match { s with inside := [] }.fetchInstr with
  | .ok (i, _) => (blitPlanOf i s).isSome
  | .error _ => false

/-- Whether the CPU stands inside a PIXBLT or FILL though between two steps: a return has just restored PBX = 1, and the
instruction at PC is one, which is to be resumed (R234, log 18). -/
def State.midTransfer (s : State) : Bool := s.resuming && s.blitAtPc

/-- An interrupt taken between instructions (R231, R234): PC is the next instruction's address, and the ST pushed has
PBX = 0, or 1 exactly where the CPU stands inside a PIXBLT or FILL (D13, log 18). -/
def State.takeInterrupt (s : State) (irq : Irq) : State :=
  { s.enterException s.pc (setPBX s.st s.midTransfer) irq.vector with resuming := false }.tick

/-- One instruction fetched and executed; a first word that decodes to nothing is refused (R92, D3). -/
def State.runInstr (s : State) : Outcome :=
  match s.fetchInstr with
  | .ok (i, t) => exec i (t.forInstr i)
  | .error e => .refused (.undecodable (DecodeError.word e))

/-- The request of the highest priority, the first of several (R236). -/
def mostUrgent : List Irq → Option Irq
  | [] => none
  | irq :: others =>
    match mostUrgent others with
    | some other => if irq.priority < other.priority then some other else some irq
    | none => some irq

/-- The request taken now, the most urgent of those that may be taken, and the requests left (R232, R236). DESIGN CHOICE
(log 17): how a pending interrupt is cleared is not in the source; a request is dropped when it is taken, and nothing but a
reset withdraws it before. -/
def State.takeable (s : State) : Option (Irq × List Irq) :=
  (mostUrgent (s.pending.filter s.admits)).map (fun irq => (irq, s.pending.erase irq))

/-- What the CPU does at a boundary: nothing while HLT = 1 (R244), else a pending interrupt (R231), else an
instruction. -/
def State.cpuStep (s : State) : Outcome :=
  if s.hlt then .next s
  else
    match s.takeable with
    | some (irq, rest) => .next ({ s with pending := rest }.takeInterrupt irq)
    | none => s.runInstr

/-- A request that now waits (R31 c, R232). -/
def State.request (s : State) (irq : Irq) : State := { s with pending := s.pending ++ [irq] }

/-- A request that falls inside the PIXBLT or FILL that comes next, after `done` of its transfers, at a boundary between
words (R233, R234). Where the next instruction is no PIXBLT or FILL, or ends earlier, or there is no such boundary, or
where an interrupt may not be taken, the request waits. DESIGN CHOICE (log 41): it waits too, and the instruction runs to
its end, where the host has set HLT before that boundary; D20 does not cover a halt inside a PIXBLT. -/
def State.stepInterrupted (s : State) (irq : Irq) (done : Nat) : Outcome :=
  if s.hlt || !s.admits irq || s.takeable.isSome then (s.request irq).cpuStep
  else
    match s.fetchInstr with
    | .ok (i, t) =>
      match blitPlanOf i t with
      | some p =>
        if 0 < done ∧ wordBoundary p.ops done = true ∧ (t.drawPixels (p.ops.take done)).hlt = false then
          .next (t.interruptPlan p done irq)
        else exec i ((t.forInstr i).request irq)
      | none => exec i ((t.forInstr i).request irq)
    | .error e => .refused (.undecodable (DecodeError.word e))

/-- The end of a step: the host's writes that are still due fall now (R57). -/
def Outcome.settled (o : Outcome) : Outcome :=
  match o with
  | .next t => .next (State.hostRest t.inside t)
  | .fault f => .fault f
  | .refused r => .refused r

/-- Memory after a reset in mid-run: CF and CD at their reset values, HLT not stated (R28, R250, D9, log 40). -/
def State.memAfterReset (s : State) : Memory :=
  ((s.mem.writeBit s.hltAddr ((Config.freeWord s.freeCount .hlt).getLsbD 0)).writeBit s.cdAddr
    Config.cdReset).writeBit s.cfAddr Config.cfReset

/-- A reset in mid-run (R250): ST, the present flags, the LRU stack, CF and PC take their reset values, memory is kept,
and what the spec does not mention is free (log 40). DESIGN CHOICE (log 36): the CPU's write in flight counts as made; the
spec does not say whether a reset lets it reach memory. The free values are drawn after the count has moved on, so that they
are none of those an instruction just before has left (log 35). -/
def State.resetEvent (s : State) : State :=
  let t := s.tick
  { t with
    a := Vector.ofFn (fun i => Config.freeWord t.freeCount (.regA i))
    b := Vector.ofFn (fun i => Config.freeWord t.freeCount (.regB i))
    sp := Config.freeWord t.freeCount .sp
    pc := Config.resetPc
    st := Config.stReset
    cache :=
      { segs := Vector.ofFn (fun g : Fin 4 =>
          { (t.cache.seg g).clear with ssa := (Config.freeWord t.freeCount (.ssa g)).setWidth 23 })
        lru := lruReset }
    mem := t.memAfterReset
    posted := none
    resuming := false
    io := Config.gfxAfterReset t.freeCount
    pending := []
    suspended := [] }

end Sys2Proof.Machine
end

