-- ==== Sys2Proof/Machine/Step.lean ====
section
/-! DEFINITION. One step: the next input of the outside world, or the CPU (R9, log 40). -/

namespace Sys2Proof.Machine

/-- The write in flight reaches memory while the next instruction begins (R63). -/
def State.received (s : State) : State := { s with posted := none }

/-- One step. With no input left, or with `execute`, the CPU moves; every other input is one event at this boundary. -/
def step (s : State) : Host.Outcome State Fault Refusal :=
  match s.inputs with
  | [] => s.received.cpuStep
  | .execute inside :: rest => Outcome.settled ({ s with inputs := rest, inside }.received.cpuStep)
  | .request irq :: rest => .next ({ s with inputs := rest }.request irq)
  | .interruptBlit irq done inside :: rest =>
    Outcome.settled ({ s with inputs := rest, inside }.received.stepInterrupted irq done)
  | .hostWrite addr value :: rest => .next ({ s with inputs := rest }.hostStore addr value)
  | .hostWriteFirst addr value :: rest => .next ({ s with inputs := rest }.hostStoreFirst addr value)
  | .reset :: rest => .next { s with inputs := rest }.resetEvent

/-- The state with an instruction stored where the next step fetches (log 42): three words at PC, all bits above `nbits`
zero, the cache flushed so that they are fetched from memory, the CPU running and nothing else due. -/
def State.withFetchWord (s : State) (nbits w : Nat) : State :=
  let v := w % 2 ^ nbits
  let m := s.mem.writeBit s.hltAddr false
  { s with
    mem := (m.writeBits s.pc 32 (BitVec.ofNat 32 v)).writeBits (s.pc + 32#32) 16 (BitVec.ofNat 32 (v / 2 ^ 32 % 2 ^ 16))
    cache := s.cache.flush
    posted := none
    pending := []
    resuming := false
    inputs := []
    inside := [] }

end Sys2Proof.Machine
end

