-- ==== Sys2Proof/Safety.lean ====
section
/-! DEFINITION. What counts as a safe run: the behaviours the spec calls a fault of the program (U1, U8, U9, U10, U15,
D12). They stop nothing; a claim about a program takes their absence as a premise. -/

namespace Sys2Proof.Machine

/-- The faults of a program (93_implementation_defined.md). -/
inductive ProgramFault where
  /-- A fetch hits a subsegment of which memory has been written since it was loaded (U1, U12, R212). -/
  | staleFetch
  /-- A PIXBLT or FILL is resumed from a B file that holds no context (U8). -/
  | contextLost
  /-- SPTCH breaks its constraint (U9, R131). -/
  | sourcePitch
  /-- DPTCH breaks its constraint (U9, R133). -/
  | destinationPitch
  /-- OFFSET is not pixel aligned (U10, R134). -/
  | offsetUnaligned
  /-- WSTART or WEND lies outside the positive quadrant, or the window ends before it starts (U15, R135, R136). -/
  | windowInvalid
deriving DecidableEq, Repr

/-- Whether a fetch at `a` would hit a subsegment of which memory has been written since it was loaded (R212, log 38), what
the host writes before the fetch counted in. -/
def State.staleAt (s : State) (a : Word) : Bool :=
  let t := s.cycle
  !t.bypass &&
    match t.cache.lookup (t.fetchChoice a) a with
    | .hit seg => t.rewritten.contains (seg, subOf a)
    | .subsegmentMiss _ | .segmentMiss _ => false

/-- Whether one of the next `n` word fetches is stale. -/
def State.staleWithin (s : State) : Nat → Bool
  | 0 => false
  | n + 1 => s.staleAt s.pc || s.advance.staleWithin n

/-- A multiple of 16 (R131, R133). -/
def multipleOf16 (v : Word) : Bool := v.toNat % 16 == 0

/-- A power of two (R131, R133). -/
def powerOfTwo (v : Word) : Bool := v != 0#32 && v &&& (v - 1#32) == 0#32

/-- Whether a window option is selected. -/
def State.windowing (s : State) : Bool := s.io.window != .off

/-- The constraint on SPTCH (R131, R258). DESIGN CHOICE (log 47): for PIXBLT L,XY a power of two is asked for where a window
option is selected or PBV = 1; "for windowing and PBV = 1" could also mean only where both hold. -/
def State.sourcePitchLegal (s : State) (src dst : ArrayForm) : Bool :=
  match src, dst with
  | .binary, .xy => !s.windowing || powerOfTwo s.sptch
  | .binary, _ => true
  | .linear, .xy => multipleOf16 s.sptch && (!(s.windowing || s.io.pbv) || powerOfTwo s.sptch)
  | .linear, _ => multipleOf16 s.sptch
  | .xy, _ => multipleOf16 s.sptch && powerOfTwo s.sptch

/-- The constraint on DPTCH of a PIXBLT (R133). -/
def State.destPitchLegal (s : State) (src dst : ArrayForm) : Bool :=
  multipleOf16 s.dptch &&
    match src, dst with
    | .binary, .xy => !s.windowing || powerOfTwo s.dptch
    | _, .xy => powerOfTwo s.dptch
    | .xy, _ => !s.io.pbv || powerOfTwo s.dptch
    | _, _ => true

/-- The constraint on DPTCH of a FILL (R133, R148, R149). -/
def State.fillPitchLegal (s : State) (dst : ArrayForm) : Bool :=
  if dst = .xy then multipleOf16 s.dptch && powerOfTwo s.dptch
  else columnsOf s.dydx == 1 || multipleOf16 s.dptch

/-- The constraint on OFFSET (R134). -/
def State.offsetLegal (s : State) : Bool := s.offset.toNat % s.io.pixelSize == 0

/-- The constraint on WSTART and WEND (R135, R136). DESIGN CHOICE (log 47): a coordinate with bit 15 set lies outside the
positive quadrant whether or not coordinates are signed, which R121 leaves open. -/
def State.windowShapeLegal (s : State) : Bool :=
  !(xHalf s.wstart).msb && !(yHalf s.wstart).msb && !(xHalf s.wend).msb && !(yHalf s.wend).msb
    && decide ((xHalf s.wstart).toNat ≤ (xHalf s.wend).toNat)
    && decide ((yHalf s.wstart).toNat ≤ (yHalf s.wend).toNat)

/-- The same constraint where drawing reads the window: when a window option is selected. -/
def State.windowLegal (s : State) : Bool := !s.windowing || s.windowShapeLegal

/-- A fault listed unless its condition is kept. -/
def faultUnless (legal : Bool) (f : ProgramFault) : List ProgramFault := if legal then [] else [f]

/-- The faults of a PIXBLT about to run; one about to resume needs its context and nothing else. -/
def State.pixbltFaults (s : State) (src dst : ArrayForm) : List ProgramFault :=
  if s.resuming then faultUnless s.context.isSome .contextLost
  else
    faultUnless (s.sourcePitchLegal src dst) .sourcePitch ++ faultUnless (s.destPitchLegal src dst) .destinationPitch
      ++ faultUnless (!(src = .xy || dst = .xy) || s.offsetLegal) .offsetUnaligned
      ++ faultUnless (!(dst = .xy) || s.windowLegal) .windowInvalid

/-- The faults of a FILL about to run; one about to resume needs its context and nothing else. -/
def State.fillFaults (s : State) (dst : ArrayForm) : List ProgramFault :=
  if s.resuming then faultUnless s.context.isSome .contextLost
  else
    faultUnless (s.fillPitchLegal dst) .destinationPitch
      ++ faultUnless (!(dst = .xy) || s.offsetLegal) .offsetUnaligned
      ++ faultUnless (!(dst = .xy) || s.windowLegal) .windowInvalid

/-- The faults of an instruction that draws or addresses pixels by XY, with or without a window. -/
def State.xyFaults (s : State) (windowed : Bool) : List ProgramFault :=
  faultUnless s.offsetLegal .offsetUnaligned ++ faultUnless (!windowed || s.windowLegal) .windowInvalid

/-- The faults of the operands of an instruction about to run in a state. -/
def operandFaults (i : Instr) (s : State) : List ProgramFault :=
  match i with
  | .pixbltLL => s.pixbltFaults .linear .linear
  | .pixbltLXY => s.pixbltFaults .linear .xy
  | .pixbltXYL => s.pixbltFaults .xy .linear
  | .pixbltXYXY => s.pixbltFaults .xy .xy
  | .pixbltBL => s.pixbltFaults .binary .linear
  | .pixbltBXY => s.pixbltFaults .binary .xy
  | .fillL => s.fillFaults .linear
  | .fillXY => s.fillFaults .xy
  | .line _ | .drav _ _ _ | .pixtToXY _ _ _ | .pixtXYToXY _ _ _ => s.xyFaults true
  | .cvxyl _ _ _ | .pixtFromXY _ _ _ => s.xyFaults false
  | .cpw _ _ _ => faultUnless s.windowShapeLegal .windowInvalid
  | .moveSame _ _ _ | .moveOther _ _ _ | .moviIW _ _ _ | .moviIL _ _ _ | .addiIW _ _ _ | .addiIL _ _ _
  | .subxy _ _ _ | .trap _ | .calla _ | .callRs _ _ | .jacc _ _ | .jrcc8 _ _ | .jrcc16 _ _ | .dsj _ _ _
  | .dsjeq _ _ _ | .dsjne _ _ _ | .dsjs _ _ _ _ | .jump _ _ | .exgpc _ _ | .rets _ | .reti => []

/-- The state in which the coming step fetches an instruction, if it does: an event, HLT = 1 or an interrupt fetches
nothing. -/
def State.aboutToFetch (s : State) : Option State :=
  let running := fun (t : State) => if t.hlt || t.takeable.isSome then none else some t
  match s.inputs with
  | [] => running s.received
  | .execute inside :: rest | .interruptBlit _ _ inside :: rest => running { s with inputs := rest, inside }.received
  | .request _ :: _ | .hostWrite _ _ :: _ | .hostWriteFirst _ _ :: _ | .reset :: _ => none

/-- The faults of the program if the CPU fetches and runs an instruction now. -/
def State.fetchFaults (s : State) : List ProgramFault :=
  faultUnless (!s.staleWithin (lengthOf (s.fetchedWord s.pc))) .staleFetch ++
    match s.fetchInstr with
    | .ok (i, t) => operandFaults i (t.forInstr i)
    | .error _ => []

/-- The faults of the program that the coming step meets. -/
def State.nextFaults (s : State) : List ProgramFault :=
  match s.aboutToFetch with
  | some t => t.fetchFaults
  | none => []

/-- A run of `n` steps in which no program fault is met and no step is refused. -/
def SafeRun : Nat → State → Prop
  | 0, _ => True
  | n + 1, s => s.nextFaults = [] ∧ ∃ t, step s = .next t ∧ SafeRun n t

/-! ### Well-formed states -/

/-- No subsegment is present (R204, R205). -/
def Cache.empty (c : Cache) : Prop :=
  ∀ (seg : Fin 4) (sub : Fin 8), (c.seg seg).isPresent sub = false

/-- The four LSBs of an address are 0 (R16). -/
abbrev wordAligned (a : Word) : Prop := a.extractLsb' 0 4 = 0#4

/-- What every memory cycle keeps: memory in its canonical form, PC word aligned (R16), the LRU stack a permutation of the
segment numbers (R195 a), and an empty cache while CF = 1 (R195 d, R206). -/
structure State.Sound (s : State) : Prop where
  mem : s.mem.wf
  pc : wordAligned s.pc
  lru : s.cache.lru.Perm [0, 1, 2, 3]
  flushed : s.cf = true → s.cache.empty

/-- What every step keeps: the same, and no write of the host is left over from the step (log 40). -/
structure State.Inv (s : State) : Prop extends State.Sound s where
  quiet : s.inside = []

/-- The four words of a subsegment as memory holds them (R193, R200). -/
def readSubsegment (m : Memory) (tag : BitVec 23) (sub : Fin 8) : Vector Word16 4 :=
  Vector.ofFn (fun word : Fin 4 => m.readBits (lineAddr tag sub word) 16)

/-- Every copy of the subsegment that holds an address equals memory (R193, R195 c, R212): no fetch there is stale. -/
def State.CoherentAt (s : State) (a : Word) : Prop :=
  ∀ seg : Fin 4, (s.cache.seg seg).ssa = tagOf a → (s.cache.seg seg).isPresent (subOf a) = true →
    (s.cache.seg seg).line (subOf a) = readSubsegment s.mem (tagOf a) (subOf a)

/-- The four SSA registers hold different tags (R195 b). -/
def Cache.distinct (c : Cache) : Prop :=
  ∀ g h : Fin 4, (c.seg g).ssa = (c.seg h).ssa → g = h

/-! ### What an instruction leaves alone -/

/-- The general registers and SP, but for one, are as before (R10, R12). -/
def State.KeepsRegistersBut (s t : State) (f : RFile) (i : RegIdx) : Prop :=
  ∀ (g : RFile) (j : RegIdx), ¬ sameRegister f i g j → t.readReg g j = s.readReg g j

/-- A0 to A14, B0 to B14 and SP are as before. -/
structure State.KeepsRegisters (s t : State) : Prop where
  a : t.a = s.a
  b : t.b = s.b
  sp : t.sp = s.sp

/-- Every bit of ST but N, C, Z and V is as before (R18, R25), and so is whether a PIXBLT or FILL is to be resumed. -/
structure State.KeepsStatus (s t : State) : Prop where
  bits : ∀ i, i < 28 → t.st.getLsbD i = s.st.getLsbD i
  resuming : t.resuming = s.resuming

/-- What no instruction changes is as before: the I/O items without an address, the pending interrupts, the parameters,
and the model's own fields that stand for the outside world. -/
structure State.KeepsOutside (s t : State) : Prop where
  io : t.io = s.io
  pending : t.pending = s.pending
  params : t.params = s.params
  freeCount : t.freeCount = s.freeCount
  inputs : t.inputs = s.inputs

/-- Memory, the write in flight and the cache are as before. -/
structure State.KeepsMemory (s t : State) : Prop where
  mem : t.mem = s.mem
  posted : t.posted = s.posted
  inside : t.inside = s.inside
  cache : t.cache = s.cache
  rewritten : t.rewritten = s.rewritten

/-- Memory, the cache and the contexts of interrupted instructions are as before, and `KeepsOutside`. -/
structure State.KeepsStorage (s t : State) : Prop extends State.KeepsOutside s t, State.KeepsMemory s t where
  suspended : t.suspended = s.suspended

/-- The result and the frame of an instruction that leaves a value in one register: nothing else but N, C, Z and V is
changed, and PC is the next instruction's address. -/
structure State.OneRegister (s t : State) (f : RFile) (i : RegIdx) (v : Word) : Prop extends State.KeepsStorage s t where
  result : t.readReg f i = v
  stack : i = 15 → t.sp = v ∧ t.readReg f.other i = v
  others : s.KeepsRegistersBut t f i
  status : s.KeepsStatus t
  pc : t.pc = s.pc

/-- The cache after stores: as before, or flushed by a store of 1 to CF (R56, R205). -/
def State.KeepsCacheOrFlushes (s t : State) : Prop := t.cache = s.cache ∨ t.cache = s.cache.flush

/-- A value of `n` bits stored at an address: its bits there, HLT apart, every other bit as before (R52, R244), and the
cache as before unless the store leaves 1 in CF, which flushes it (R56, R205). -/
structure State.Stores (s t : State) (a : Word) (n : Nat) (v : Word) : Prop where
  bits : ∀ x, covers a n x = true → x ≠ s.hltAddr → t.mem.readBit x = v.getLsbD (x - a).toNat
  halt : t.hlt = s.hlt
  others : ∀ x, covers a n x = false → t.mem.readBit x = s.mem.readBit x
  cache : t.cache = if covers a n s.cfAddr && t.cf then s.cache.flush else s.cache

/-- A value pushed (R60): SP is lower by 32 and, but for what the host may write meanwhile (R57), the value lies there. -/
structure State.Pushes (s t : State) (v : Word) : Prop where
  sp : t.sp = s.sp - 32#32
  stored : s.inside = [] → s.Stores t (s.sp - 32#32) 32 v
  cache : s.KeepsCacheOrFlushes t

/-- Where an exception's frame holds PC (R231, D13). -/
def State.framePc (s : State) : Word :=
  match s.params.intFrame with
  | .pcFirst => s.sp - 32#32
  | .stFirst => s.sp - 64#32

/-- Where an exception's frame holds ST (R231, D13). -/
def State.frameSt (s : State) : Word :=
  match s.params.intFrame with
  | .pcFirst => s.sp - 64#32
  | .stFirst => s.sp - 32#32

/-- The frame of an exception in memory: the PC and ST saved lie in their slots, HLT apart, and no other bit changes. -/
structure State.HoldsFrame (s t : State) (pc st : Word) : Prop where
  savedPc : ∀ x, covers s.framePc 32 x = true → x ≠ s.hltAddr → t.mem.readBit x = pc.getLsbD (x - s.framePc).toNat
  savedSt : ∀ x, covers s.frameSt 32 x = true → x ≠ s.hltAddr → t.mem.readBit x = st.getLsbD (x - s.frameSt).toNat
  halt : t.hlt = s.hlt
  others : ∀ x, covers (s.sp - 64#32) 64 x = false → t.mem.readBit x = s.mem.readBit x

/-- An exception taken (R231): SP is lower by 64 and, but for what the host may write meanwhile (R57), the PC and ST saved
lie there; PC is the target, word aligned, and ST is INT_ST of the ST saved. -/
structure State.TakesException (s t : State) (pc st target : Word) : Prop where
  sp : t.sp = s.sp - 64#32
  frame : s.inside = [] → s.HoldsFrame t pc st
  cache : s.KeepsCacheOrFlushes t
  newPc : t.pc = alignPc target
  newSt : t.st = Config.intSt st

/-- Pixels, or parts of them, drawn at given addresses and of given sizes: but for what the host may write meanwhile (R57),
no bit outside them changes and HLT never does; the cache at most is flushed. -/
structure State.Draws (s t : State) (spots : List (Word × Nat)) : Prop where
  others : s.inside = [] → ∀ x, (∀ d ∈ spots, covers d.1 d.2 x = false) → t.mem.readBit x = s.mem.readBit x
  halt : s.inside = [] → t.hlt = s.hlt
  cache : s.KeepsCacheOrFlushes t

/-- Where transfers write (R125, R233). -/
def spotsOf (ops : List PixelOp) : List (Word × Nat) := ops.map (fun op => (PixelOp.start op, op.len))

/-- The bit `x` lies in the pixel at an address and is not HLT. -/
def State.inPixel (s : State) (a x : Word) : Prop := covers a s.io.pixelSize x = true ∧ x ≠ s.hltAddr

/-- Pixels are written as they are (R29), and no access of the host falls inside the instruction (R57). -/
structure State.PlainPixels (s : State) : Prop where
  plain : GfxRegs.processes s.io = false
  quiet : s.inside = []

/-! ### PIXBLT and FILL -/

/-- The source and destination forms of a PIXBLT (R124). -/
def pixbltForms (i : Instr) : Option (ArrayForm × ArrayForm) :=
  match i with
  | .pixbltLL => some (.linear, .linear)
  | .pixbltLXY => some (.linear, .xy)
  | .pixbltXYL => some (.xy, .linear)
  | .pixbltXYXY => some (.xy, .xy)
  | .pixbltBL => some (.binary, .linear)
  | .pixbltBXY => some (.binary, .xy)
  | .fillL | .fillXY | .moveSame _ _ _ | .moveOther _ _ _ | .moviIW _ _ _ | .moviIL _ _ _ | .addiIW _ _ _
  | .addiIL _ _ _ | .subxy _ _ _ | .line _ | .drav _ _ _ | .cvxyl _ _ _ | .cpw _ _ _ | .pixtToXY _ _ _
  | .pixtFromXY _ _ _ | .pixtXYToXY _ _ _ | .trap _ | .calla _ | .callRs _ _ | .jacc _ _ | .jrcc8 _ _
  | .jrcc16 _ _ | .dsj _ _ _ | .dsjeq _ _ _ | .dsjne _ _ _ | .dsjs _ _ _ _ | .jump _ _ | .exgpc _ _ | .rets _
  | .reti => none

/-- The FILL of a destination form. -/
def fillOf (xy : Bool) : Instr := if xy then .fillXY else .fillL

/-- The destination form of that FILL. -/
def fillForm (xy : Bool) : ArrayForm := if xy then .xy else .linear

/-- The bit `x` lies in the pixel of row `row` and column `col` of the destination array of DYDX elements. -/
def State.inElement (s : State) (base x : Word) (row col : Nat) : Prop :=
  row < rowsOf s.dydx ∧ col < columnsOf s.dydx ∧
    covers (elementAddr base s.dptch s.io.pixelSize row col) s.io.pixelSize x = true

/-- A PIXBLT or FILL that starts afresh in the plain direction, unclipped, with plain pixels. -/
structure State.PlainTransfer (s : State) : Prop extends State.PlainPixels s where
  fresh : s.resuming = false
  unclipped : s.io.window = .off
  pbh : s.io.pbh = false
  pbv : s.io.pbv = false

end Sys2Proof.Machine
end

