-- ==== Sys2Proof/Certificates/Slice0/Obligations.lean ====
section
/-! DEFINITION. The statements for the provers. `R<n>` is a rule of spec/, `D<n>` a decision the spec marks as its own,
`log <n>` a row of notes/assumptions. A statement about an instruction's meaning starts where the instruction's words
have been fetched: `s.pc` is the PC' of R170. `s.inside = []` says that no write of the host falls among the memory cycles
still to come in the step (R57, log 40); a clause that says what memory holds has it as a premise. -/

section

open Sys2Proof Sys2Proof.Machine

/-! ### Reset and the status register -/

/-- R18: the layout of ST, every field read from the place the table gives it, and its value at reset. -/
def Obligations.StatusRegisterLayoutAndReset : Prop :=
  (∀ (n c z v pbx ie fe1 fe0 : Bool) (r2 : BitVec 2) (r1 : BitVec 3) (r0 : BitVec 9) (fs1 fs0 : BitVec 5),
    let st : Word :=
      BitVec.ofBool n ++ BitVec.ofBool c ++ BitVec.ofBool z ++ BitVec.ofBool v ++ r2 ++ BitVec.ofBool pbx ++ r1 ++
        BitVec.ofBool ie ++ r0 ++ BitVec.ofBool fe1 ++ fs1 ++ BitVec.ofBool fe0 ++ fs0
    stN st = n ∧ stC st = c ∧ stZ st = z ∧ stV st = v ∧ stPBX st = pbx ∧ stIE st = ie ∧
      stFieldSigned st .field1 = fe1 ∧ stFieldCode st .field1 = fs1 ∧
      stFieldSigned st .field0 = fe0 ∧ stFieldCode st .field0 = fs0 ∧
      stReserved st = (0#4 ++ r2 ++ 0#1 ++ r1 ++ 0#1 ++ r0 ++ 0#12 : BitVec 32)) ∧
  State.reset.st = 0x00000010#32 ∧
  stFieldCode State.reset.st .field0 = 0b10000#5 ∧ stFieldSigned State.reset.st .field0 = false ∧
  stFieldCode State.reset.st .field1 = 0b00000#5 ∧ stFieldSigned State.reset.st .field1 = false ∧
  stIE State.reset.st = false ∧ stPBX State.reset.st = false ∧ stV State.reset.st = false ∧
  stZ State.reset.st = false ∧ stC State.reset.st = false ∧ stN State.reset.st = false ∧
  stReserved State.reset.st = 0#32

/-- The state after reset meets the invariant, and its cache is empty with segment 0 on top of the LRU stack (R204; which
end is the top is D7) and enabled (D9, log 7). -/
def Obligations.ResetStateIsWellFormed : Prop :=
  State.reset.Inv ∧ State.reset.cache.empty ∧ State.reset.cache.lru = [0, 1, 2, 3] ∧ State.reset.bypass = false

/-- A reset in mid-run (R250, R32): ST, the present flags and the LRU stack take their reset values (that segment 0 is on
top is D7), CF and CD theirs (D9), PC is RESET_PC (R251, D4). The model's choices (log 40): the cache data and every memory
bit but the three control bits are kept, a write in flight counting as made (log 36), and no interrupt is pending
afterwards. -/
def Obligations.MidRunResetRestoresStatusAndCache : Prop :=
  ∀ (s : State) (rest : List Input), s.inputs = .reset :: rest →
    ∃ t, step s = .next t ∧ t.st = 0x00000010#32 ∧ t.pc = Config.resetPc ∧ t.cache.empty ∧
      t.cache.lru = [0, 1, 2, 3] ∧ t.cf = false ∧ t.cd = false ∧ t.pending = [] ∧ t.inputs = rest ∧
      (∀ (g : Fin 4) (j : Fin 8), (t.cache.seg g).line j = (s.cache.seg g).line j) ∧
      (∀ x, x ≠ s.cfAddr → x ≠ s.cdAddr → x ≠ s.hltAddr → t.mem.readBit x = s.mem.readBit x)

/-! ### Decoding -/

/-- Words written out from R91's table decode to the instructions they stand for. The table is the spec's general
knowledge, which the model takes (log 1). -/
def Obligations.SampleWordsDecode : Prop :=
  decode [0x4CD7#16] = .ok (.moveSame .B 6 7, []) ∧
  decode [0x4E2F#16] = .ok (.moveOther .A 1 15, []) ∧
  decode [0x09F8#16, 0x5555#16, 0x0000#16] = .ok (.moviIL .B 8 0x00005555#32, []) ∧
  decode [0x0B37#16, 0x0001#16, 0x0001#16] = .ok (.addiIL .B 7 0x00010001#32, []) ∧
  decode [0xE2B7#16] = .ok (.subxy .B 5 7, []) ∧
  decode [0x0FC0#16] = .ok (.fillL, []) ∧
  decode [0x0D5F#16, 0x2345#16, 0x0001#16] = .ok (.calla 0x00012345#32, []) ∧
  decode [0x0925#16] = .ok (.callRs .A 5, []) ∧
  decode [0xC0FE#16] = .ok (.jrcc8 0 0xFE#8, []) ∧
  decode [0xC000#16, 0x8000#16] = .ok (.jrcc16 0 0x8000#16, []) ∧
  decode [0x0160#16] = .ok (.jump .A 0, []) ∧
  decode [0x0960#16] = .ok (.rets 0, []) ∧
  decode [0x0940#16] = .ok (.reti, [])

/-- Decoding the encoding of any well-formed instruction, whatever words follow it, gives the instruction back and
leaves those words (R91, log 1). -/
def Obligations.DecodeOfEncodeIsIdentity : Prop :=
  ∀ (i : Instr) (rest : List Word16), i.wellFormed = true → decode (encode i ++ rest) = .ok (i, rest)

/-- Whatever words decode, the instruction is well formed and its encoding is those words: no bit of a word is dropped
(R91, log 1). -/
def Obligations.EncodeOfDecodeIsIdentity : Prop :=
  ∀ (ws rest : List Word16) (i : Instr), decode ws = .ok (i, rest) → i.wellFormed = true ∧ encode i ++ rest = ws

/-- R92, whose treatment is the spec's decision D3: the CPU refuses a first word that is in no row of the opcode map. -/
def Obligations.UndecodableWordIsRefused : Prop :=
  ∀ s : State, s.inputs = [] → s.inside = [] → s.hlt = false → s.takeable = none →
    findRow (s.fetchedWord s.pc) = none → step s = .refused (.undecodable (s.fetchedWord s.pc))

/-! ### The step -/

/-- A step runs the decoded instruction: with memory holding the words of a well-formed instruction at PC, and no stale
copy in the subsegments that hold them, the CPU runs that instruction, PC past its words, the cache as the fetches leave
it, the write in flight arrived (R63) and the model's count of free values moved on (R170). The encodings are R91's, the
spec's general knowledge, which the model takes (D2, log 1); that a resumption is kept for a PIXBLT or FILL (R234) and
dropped for every other instruction is the model's choice (log 18). With `execute`, what the host still writes falls after it
(log 40; here nothing). -/
def Obligations.StepRunsTheDecodedInstruction : Prop :=
  ∀ (s : State) (i : Instr), s.inside = [] → s.hlt = false → s.takeable = none → wordAligned s.pc →
    (s.bypass = true ∨ ∀ k < i.words, s.CoherentAt (s.pc + BitVec.ofNat 32 (16 * k))) → i.wellFormed = true →
    (∀ (k : Nat) (w : Word16), (encode i)[k]? = some w → s.mem.readBits (s.pc + BitVec.ofNat 32 (16 * k)) 16 = w) →
    let fetched := { s with
      pc := s.pc + BitVec.ofNat 32 (16 * i.words)
      cache := (s.received.fetchWords i.words).2.cache
      rewritten := (s.received.fetchWords i.words).2.rewritten
      posted := none
      resuming := s.resuming && (blitPlanOf i s).isSome
      freeCount := s.freeCount + 1 }
    (s.inputs = [] → step s = exec i fetched) ∧
    (∀ rest, s.inputs = .execute [] :: rest → step s = Outcome.settled (exec i { fetched with inputs := rest }))

/-- R244 as the spec decides it (D20): while HLT = 1 the CPU executes nothing and takes no interrupt; all state is kept,
but that the write in flight arrives (R63) and that the host may write. -/
def Obligations.HaltedCpuKeepsItsState : Prop :=
  ∀ s : State, s.hlt = true →
    (s.inputs = [] → step s = .next { s with posted := none }) ∧
    (∀ inside rest, s.inputs = .execute inside :: rest →
      step s = .next (State.hostRest inside { s with inputs := rest, inside, posted := none }))

/-- A host write (R71, D15) puts one 16-bit word, and nothing else, into memory; the cache changes only if the word
leaves 1 in CF, which flushes it (R67, R202, R205). An address that is not word aligned means the word that holds the bit
(the model's choice, log 40). A host write that memory receives before the CPU's write in flight (R31 a, R63, log 36) is
overwritten by it where the two meet, HLT apart, which the CPU does not write; with no write in flight it is as any other. -/
def Obligations.HostWriteStoresOneWord : Prop :=
  ∀ (s : State) (addr : Word) (value : Word16) (rest : List Input),
    (s.inputs = .hostWrite addr value :: rest →
      ∃ t, step s = .next t ∧
        (∀ x, t.mem.readBit x =
          if covers (wordAddr addr) 16 x then value.getLsbD (x - wordAddr addr).toNat else s.mem.readBit x) ∧
        t.cache = (if covers (wordAddr addr) 16 s.cfAddr && t.cf then s.cache.flush else s.cache) ∧
        s.KeepsRegisters t ∧ t.pc = s.pc ∧ t.st = s.st ∧ t.io = s.io ∧ t.pending = s.pending ∧
        t.resuming = s.resuming ∧ t.suspended = s.suspended ∧ t.params = s.params ∧ t.freeCount = s.freeCount ∧
        t.inputs = rest ∧ t.inside = s.inside) ∧
    (s.inputs = .hostWriteFirst addr value :: rest →
      (s.posted = none → step s = step { s with inputs := .hostWrite addr value :: rest }) ∧
      (∀ p, s.posted = some p → p.len ≤ 16 →
        ∃ t, step s = .next t ∧
          ∀ x, t.mem.readBit x =
            if x ≠ s.hltAddr ∧ covers p.addr p.len x = true then p.value.getLsbD (x - p.addr).toNat
            else if covers (wordAddr addr) 16 x then value.getLsbD (x - wordAddr addr).toNat
            else s.mem.readBit x))

/-- Every step keeps the invariant: memory in its canonical form, PC word aligned (R16), the LRU stack a permutation
(R195 a), no present flag while CF = 1 (R195 d, R206), and no host write left over from the step (log 40). -/
def Obligations.StepKeepsTheInvariant : Prop :=
  ∀ s t : State, s.Inv → step s = .next t → t.Inv

/-- No instruction changes the parameters or the model's own fields for the outside world, nor HLT (R244, D20) where the host
does not write; the cache is at most flushed, as by a store of 1 to CF (R202, R205). That none changes the pending interrupts
is the model's choice (log 17: how one is cleared is not in the source, R232), and so is that none changes the I/O items
without an address (R29, D21; log 21). -/
def Obligations.InstructionsKeepHaltCacheAndOutside : Prop :=
  ∀ (i : Instr) (s t : State), exec i s = .next t →
    s.KeepsOutside t ∧ (s.inside = [] → t.hlt = s.hlt ∧ t.inside = []) ∧ s.KeepsCacheOrFlushes t

/-- The field sizes and extensions, IE and the reserved bits of ST change only by TRAP and RETI (R19, R23; what the spec
does not say of other instructions is log 11). PBX changes only by those and by PIXBLT and FILL (R24); that these clear it,
and with it the resumption, is the model's choice (log 18). -/
def Obligations.OnlyTrapAndReturnChangeControlBits : Prop :=
  ∀ (i : Instr) (s t : State), exec i s = .next t → (∀ n, i ≠ .trap n) → i ≠ .reti →
    (∀ k, k < 28 → k ≠ 25 → t.st.getLsbD k = s.st.getLsbD k) ∧
    (stPBX t.st = if (blitPlanOf i s).isSome then false else stPBX s.st) ∧
    (t.resuming = if (blitPlanOf i s).isSome then false else s.resuming)

/-! ### Interrupts -/

/-- R232: with IE = 0 no maskable interrupt is taken, the instruction runs. An interrupt that IE does not mask, or any with
IE = 1, may be taken, whatever waits before it; the model takes it at once, the most urgent of those that may be taken and
the first of equals (R236), and leaves the others in their order (log 17). -/
def Obligations.InterruptsAreMaskedByIE : Prop :=
  (∀ s : State, s.inputs = [] → s.hlt = false → stIE s.st = false → (∀ irq ∈ s.pending, irq.maskable = true) →
    step s = s.received.runInstr) ∧
  (∀ (s : State) (irq : Irq) (before later : List Irq), s.inputs = [] → s.hlt = false →
    s.pending = before ++ irq :: later → (stIE s.st = true ∨ irq.maskable = false) →
    (∀ other ∈ before, stIE s.st = true ∨ other.maskable = false → other.priority < irq.priority) →
    (∀ other ∈ later, stIE s.st = true ∨ other.maskable = false → other.priority ≤ irq.priority) →
    step s = .next ({ s.received with pending := before ++ later }.takeInterrupt irq))

/-- R231 with the frame the parameter INT_FRAME gives (D13): an interrupt taken between instructions saves PC and ST on
the stack and goes to the address of the request (log 17). The ST saved has PBX = 0 (R234), or 1 exactly where a return has
just restored PBX = 1 and the instruction at PC is a PIXBLT or FILL, which then still waits to be resumed (log 18). -/
def Obligations.InterruptEntrySavesPcAndSt : Prop :=
  ∀ (s : State) (irq : Irq) (rest : List Irq), s.inputs = [] → s.hlt = false → s.takeable = some (irq, rest) →
    ∃ t, step s = .next t ∧ s.TakesException t s.pc (setPBX s.st s.midTransfer) irq.vector ∧ t.resuming = false ∧
      t.a = s.a ∧ t.b = s.b ∧ t.io = s.io ∧ t.pending = rest ∧ t.suspended = s.suspended ∧ t.params = s.params ∧
      t.freeCount = s.freeCount + 1 ∧ t.inputs = s.inputs

/-- An interrupt taken between instructions and then returned from by RETI resumes the routine with its PC, SP and
registers and its ST, PBX excepted, and leaves memory outside the frame alone (R231, R235, D13), unless the frame lies over
HLT. PBX comes back as 0, or as 1 exactly where a PIXBLT or FILL at PC waits to be resumed, which it then still does
(log 18). -/
def Obligations.ReturnUndoesInterruptEntry : Prop :=
  ∀ (s : State) (irq : Irq), s.inside = [] → wordAligned s.pc → covers (s.sp - 64#32) 64 s.hltAddr = false →
    ∃ t, exec .reti (s.takeInterrupt irq) = .next t ∧ t.pc = s.pc ∧ t.st = setPBX s.st s.midTransfer ∧
      t.resuming = s.midTransfer ∧ s.KeepsRegisters t ∧
      (∀ x, covers (s.sp - 64#32) 64 x = false → t.mem.readBit x = s.mem.readBit x) ∧
      t.suspended = s.suspended ∧ t.pending = s.pending

/-- R234 and R233, in the spec's reading (D13): an interrupt at a boundary between words inside a PIXBLT or FILL pushes the
instruction's own address and ST with PBX = 1, the pixels before it being drawn and no others; DADDR, and for PIXBLT SADDR,
point to the next word of pixels (R126; that the pointer is the word's first bit, and that FILL's DADDR does so too, is
log 19). Elsewhere the request waits while the instruction runs. That B4 to B9 are kept, and what stands for the context,
is the model's choice (log 19), and so are the boundaries (log 40) and that N, C, Z and V of the ST saved are as before the
instruction (log 11). The host writes nothing inside the instruction here; were
it to set HLT there, the request would wait too (log 41). -/
def Obligations.InterruptInsideTransferSetsPBX : Prop :=
  ∀ (s : State) (irq : Irq) (done : Nat) (rest : List Input) (i : Instr) (t : State) (p : BlitPlan),
    s.inputs = .interruptBlit irq done [] :: rest → s.hlt = false → s.takeable = none → s.admits irq = true →
    { s with inputs := rest, inside := [] }.received.fetchInstr = .ok (i, t) → blitPlanOf i t = some p →
    (0 < done → wordBoundary p.ops done = true →
      ∃ u, step s = .next u ∧
        (t.drawPixels (p.ops.take done)).TakesException u s.pc (setPBX s.st true) irq.vector ∧
        u.suspended = { bfile := u.b, rest := { p with ops := p.ops.drop done } } :: t.otherContexts ∧
        u.resuming = false ∧ u.a = s.a ∧ (∀ k : Fin 10, 4 ≤ k → u.b[k] = s.b[k]) ∧
        (∀ next, p.ops[done]? = some next → u.b[2] = wordAddr (PixelOp.start next) ∧
          (p.hasSource = true → ∀ a, PixelSource.address next.src = some a → u.b[0] = wordAddr a)) ∧
        u.pending = s.pending ∧ u.inputs = rest) ∧
    (wordBoundary p.ops done = false → step s = Outcome.settled (exec i ((t.forInstr i).request irq)))

/-- R234, R126, R127 in the spec's reading (D13): a PIXBLT or FILL run after a return has restored PBX = 1, on the B file
that an interrupt of one left, draws the pixels that remained and ends with that one's final registers (SPTCH and DPTCH
restored). How the context is held, and that it alone says what is resumed, whatever PIXBLT or FILL lies at PC, is log 19;
that PBX and the resumption are then cleared is log 18. -/
def Obligations.ResumedTransferFinishesTheRest : Prop :=
  ∀ (s r : State) (p : BlitPlan) (done : Nat) (irq : Irq) (i : Instr),
    r.b = (s.interruptPlan p done irq).b → r.suspended = (s.interruptPlan p done irq).suspended →
    r.resuming = true → (blitPlanOf i r).isSome = true →
    ∃ u, exec i r = .next u ∧ u.mem = (r.drawPixels (p.ops.drop done)).mem ∧
      u.b[0] = p.saddr ∧ u.b[1] = p.sptch ∧ u.b[2] = p.daddr ∧ u.b[3] = p.dptch ∧ u.b[7] = p.dydx ∧
      stPBX u.st = false ∧ u.resuming = false ∧ u.suspended = s.otherContexts ∧ u.pc = r.pc

/-! ### Memory -/

/-- R52: a value written is read back, a value outside the bits written reads as before, and a narrower read at the same
address returns the low bits. The order of the bits is D1. -/
def Obligations.MemoryReadReturnsLatestWrite : Prop :=
  ∀ (m : Memory) (a v : Word) (n : Nat), n ≤ 32 →
    (m.writeBits a n v).readBits a n = v.setWidth n ∧
    (∀ (b : Word) (k : Nat), (∀ j, j < k → covers a n (b + BitVec.ofNat 32 j) = false) →
      (m.writeBits a n v).readBits b k = m.readBits b k) ∧
    (∀ k, k ≤ n → m.readBits a k = (m.readBits a n).setWidth k)

/-- R60: what Push32 and Pop32 do, and that a pop returns the value pushed, unless HLT lies under it. On a word aligned
stack a push takes two cycles: its second word is the write in flight afterwards (R63, log 36), and a host write to the
first word between the two leaves a torn value (R57, D15, log 40). -/
def Obligations.PushAndPopFollowTheStack : Prop :=
  ∀ (s : State) (v : Word),
    s.Pushes (s.push32 v) v ∧ s.pop32.2.sp = s.sp + 32#32 ∧
    (s.inside = [] →
      s.pop32 = (s.mem.readBits s.sp 32, { s with sp := s.sp + 32#32 }) ∧
      (covers (s.sp - 32#32) 32 s.hltAddr = false → (s.push32 v).pop32.1 = v ∧ (s.push32 v).pop32.2.sp = s.sp) ∧
      (wordAligned s.sp → (s.push32 v).posted =
        some { addr := s.sp - 16#32, len := 16, value := v >>> 16, old := s.mem.readZext (s.sp - 16#32) 16 })) ∧
    (∀ w : HostWrite, s.inside = [none, some w] → wordAligned s.sp → wordAddr w.addr = s.sp - 32#32 →
      (s.push32 v).mem.readBits (s.sp - 32#32) 16 = w.value ∧
      (covers (s.sp - 16#32) 16 s.hltAddr = false →
        (s.push32 v).mem.readBits (s.sp - 16#32) 16 = v.extractLsb' 16 16))

/-- R21: a field of 1 to 32 bits is loaded into a register with its value, signed where FE is 1 and unsigned where FE is 0;
its size is the code of R20. -/
def Obligations.FieldLoadExtendsByFE : Prop :=
  ∀ (s : State) (k : FieldSel) (f : RFile) (dst : RegIdx) (a : Word), s.inside = [] →
    stFieldSize s.st k = (if (stFieldCode s.st k).toNat = 0 then 32 else (stFieldCode s.st k).toNat) ∧
    (stFieldSigned s.st k = true →
      ((s.fieldLoad k f dst a).readReg f dst).toInt = (s.mem.readBits a (stFieldSize s.st k)).toInt) ∧
    (stFieldSigned s.st k = false →
      ((s.fieldLoad k f dst a).readReg f dst).toNat = (s.mem.readBits a (stFieldSize s.st k)).toNat)

/-- A field stored from a register writes its size in bits, the register's low ones, and no other (R58, the spec's reading of
a store), and loads into any register as those bits, unless HLT lies under it. A store changes no register and a load its own
alone; that neither changes ST is the model's choice (log 11). -/
def Obligations.FieldStoreWritesItsBits : Prop :=
  ∀ (s : State) (k : FieldSel) (f g : RFile) (src dst : RegIdx) (a : Word), s.inside = [] →
    let stored := s.fieldStore k f src a
    let loaded := stored.fieldLoad k g dst a
    s.Stores stored a (stFieldSize s.st k) (s.readReg f src) ∧ s.KeepsRegisters stored ∧ stored.st = s.st ∧
      stored.pc = s.pc ∧
      (covers a (stFieldSize s.st k) s.hltAddr = false →
        (loaded.readReg g dst).setWidth (stFieldSize s.st k) = (s.readReg f src).setWidth (stFieldSize s.st k)) ∧
      stored.KeepsRegistersBut loaded g dst ∧ loaded.st = s.st ∧ loaded.pc = s.pc ∧ stored.KeepsStorage loaded

/-! ### The instruction cache -/

/-- R196: the segment accessed goes on top; the others keep their order, and those below it their places. -/
def Obligations.TouchMovesSegmentToTop : Prop :=
  ∀ (lru : List (Fin 4)) (g : Fin 4), lru.Perm [0, 1, 2, 3] →
    (touch lru g)[0]? = some g ∧
    (touch lru g).filter (fun h => h ≠ g) = lru.filter (fun h => h ≠ g) ∧
    (∀ k, lru.idxOf g < k → (touch lru g)[k]? = lru[k]?)

/-- A cache hit, in the one segment whose SSA holds the tag, returns the cache's word and moves the segment to the top of the
LRU stack; nothing else changes (R199). Where host writes are due, that they fall before the fetch looks at CF, CD and the
cache, at a turn of its own, is the model's choice (log 40): `s.cycle` is `s` with them written, and `s` itself where none
are. Several segments with one tag (D6, log 39) are left out. -/
def Obligations.CacheHitReturnsTheCopy : Prop :=
  ∀ (s : State) (a : Word) (g : Fin 4),
    let t := s.cycle
    t.bypass = false → (t.cache.seg g).ssa = tagOf a → (∀ h, (t.cache.seg h).ssa = tagOf a → h = g) →
    (t.cache.seg g).isPresent (subOf a) = true →
    s.fetchWord a =
      (((t.cache.seg g).line (subOf a)).get (wordOf a), { t with cache := { t.cache with lru := touch t.cache.lru g } }) ∧
    (s.inside = [] → t = s)

/-- R200: a subsegment miss loads the four words of the subsegment, sets its P flag, moves the segment to the top of the
LRU stack and returns the word; the other subsegments and segments are unchanged. -/
def Obligations.SubsegmentMissLoadsFourWords : Prop :=
  ∀ (s : State) (a : Word) (g : Fin 4), s.inside = [] → s.bypass = false → (s.cache.seg g).ssa = tagOf a →
    (∀ h, (s.cache.seg h).ssa = tagOf a → h = g) → (s.cache.seg g).isPresent (subOf a) = false →
    let c := s.fetchCache a
    c.lru = touch s.cache.lru g ∧ (c.seg g).ssa = tagOf a ∧
    (∀ j, (c.seg g).isPresent j = if j = subOf a then true else (s.cache.seg g).isPresent j) ∧
    (∀ w, ((c.seg g).line (subOf a)).get w = s.mem.readBits (lineAddr (tagOf a) (subOf a) w) 16) ∧
    (∀ j, j ≠ subOf a → (c.seg g).line j = (s.cache.seg g).line j) ∧
    (∀ h, h ≠ g → c.seg h = s.cache.seg h) ∧
    s.fetchedWord a = s.mem.readBits (lineAddr (tagOf a) (subOf a) (wordOf a)) 16

/-- R201: a segment miss takes the segment at the bottom of the LRU stack, clears its eight P flags, loads its SSA with
the 23 MSBs, loads the subsegment and sets its P flag, moves the segment to the top, and returns the word. -/
def Obligations.SegmentMissReplacesTheBottomSegment : Prop :=
  ∀ (s : State) (a : Word) (g : Fin 4), s.inside = [] → s.bypass = false →
    (∀ h, (s.cache.seg h).ssa ≠ tagOf a) → s.cache.lru.length = 4 → s.cache.lru[3]? = some g →
    let c := s.fetchCache a
    c.lru = touch s.cache.lru g ∧ (c.seg g).ssa = tagOf a ∧
    (∀ j, (c.seg g).isPresent j = decide (j = subOf a)) ∧
    (∀ w, ((c.seg g).line (subOf a)).get w = s.mem.readBits (lineAddr (tagOf a) (subOf a) w) 16) ∧
    (∀ h, h ≠ g → c.seg h = s.cache.seg h) ∧
    s.fetchedWord a = s.mem.readBits (lineAddr (tagOf a) (subOf a) (wordOf a)) 16

/-- While CF = 1 or CD = 1 every fetch returns memory's word and leaves the cache alone, however many there are (R206,
R208, R211; that the LRU stack is frozen too is D8); so a step of the CPU leaves the cache as it was, or flushed. -/
def Obligations.BypassedFetchesLeaveTheCacheAlone : Prop :=
  ∀ s : State, s.inside = [] → s.bypass = true →
    (∀ n k, k < n → (s.fetchWords n).1[k]? = some (s.mem.readBits (s.pc + BitVec.ofNat 32 (16 * k)) 16)) ∧
    (∀ n, (s.fetchWords n).2.cache = s.cache) ∧
    (∀ t, s.inputs = [] → step s = .next t → s.KeepsCacheOrFlushes t)

/-- R205, with the LRU order of D7: the host's writing 1 to CF clears every P flag, puts the LRU stack in numerical order
and leaves SSA and data as they are (a choice R205 leaves open); any fetch then returns memory's word (R67, R206). -/
def Obligations.WritingCFFlushesTheCache : Prop :=
  ∀ (s : State) (addr : Word) (value : Word16) (rest : List Input), s.inputs = .hostWrite addr value :: rest →
    covers (wordAddr addr) 16 s.cfAddr = true → value.getLsbD (s.cfAddr - wordAddr addr).toNat = true →
    ∃ t, step s = .next t ∧ t.cf = true ∧ t.cache.empty ∧ t.cache.lru = [0, 1, 2, 3] ∧
      (∀ g, (t.cache.seg g).ssa = (s.cache.seg g).ssa) ∧
      (∀ g j, (t.cache.seg g).line j = (s.cache.seg g).line j) ∧
      (s.inside = [] → ∀ a, t.fetchedWord a = t.mem.readBits a 16)

/-- R212, R67: while a word's subsegment is present, a store over the word, by the CPU or by the host, that leaves CF and
CD alone does not change what a fetch of it returns. -/
def Obligations.StoredWordIsNotSeenInCache : Prop :=
  ∀ (s : State) (a : Word) (g : Fin 4), s.inside = [] → s.bypass = false → (s.cache.seg g).ssa = tagOf a →
    (∀ h, (s.cache.seg h).ssa = tagOf a → h = g) → (s.cache.seg g).isPresent (subOf a) = true →
    (∀ (b v : Word) (n : Nat), covers b n s.cfAddr = false → covers b n s.cdAddr = false →
      (s.store b n v).fetchedWord a = s.fetchedWord a) ∧
    (∀ (b : Word) (v : Word16), covers (wordAddr b) 16 s.cfAddr = false → covers (wordAddr b) 16 s.cdAddr = false →
      (s.hostStore b v).fetchedWord a = s.fetchedWord a)

/-- R195 b: once the four SSA registers hold different tags, fetches keep them different. -/
def Obligations.FetchKeepsSegmentTagsDistinct : Prop :=
  ∀ (s : State) (n : Nat), s.cache.distinct → (s.fetchWords n).2.cache.distinct

/-! ### Instructions on general registers -/

/-- R103: both forms of MOVE copy the source to the destination; nothing else changes but N, C, Z and V, which are free,
and that ST's other bits are kept is the model's choice (log 11).
Index 15 is the one SP: written through either file it is read back through both (R12, in `OneRegister`). -/
def Obligations.MoveCopiesTheSource : Prop :=
  ∀ (s : State) (f : RFile) (src dst : RegIdx),
    (∃ t, exec (.moveSame f src dst) s = .next t ∧ s.OneRegister t f dst (s.readReg f src)) ∧
    (∃ t, exec (.moveOther f src dst) s = .next t ∧ s.OneRegister t f.other dst (s.readReg f src))

/-- R104: MOVI with a 32-bit constant leaves it in the register; that nothing else changes but N, C, Z and V, which are
free, is the model's choice (log 11). -/
def Obligations.MoviLoadsTheConstant : Prop :=
  ∀ (s : State) (f : RFile) (dst : RegIdx) (imm : Word),
    ∃ t, exec (.moviIL f dst imm) s = .next t ∧ s.OneRegister t f dst imm

/-- MOVI and ADDI with a 16-bit immediate load and add it (R104, R105, wrapping by D10) sign extended: R91's table, the
spec's general knowledge (log 1). That nothing else changes but N, C, Z and V, which are free, is log 11. -/
def Obligations.ShortImmediatesAreSignExtended : Prop :=
  ∀ (s : State) (f : RFile) (dst : RegIdx) (imm : Word16),
    (∃ t, exec (.moviIW f dst imm) s = .next t ∧ s.OneRegister t f dst (BitVec.ofInt 32 imm.toInt)) ∧
    (∃ t, exec (.addiIW f dst imm) s = .next t ∧
      s.OneRegister t f dst (BitVec.ofInt 32 ((s.readReg f dst).toInt + imm.toInt)))

/-- R105 with the wrap-around of D10: ADDI adds its 32-bit constant; that nothing else changes but N, C, Z and V, which are
free, is the model's choice (log 11). -/
def Obligations.AddiAddsModuloTwoTo32 : Prop :=
  ∀ (s : State) (f : RFile) (dst : RegIdx) (imm : Word),
    ∃ t, exec (.addiIL f dst imm) s = .next t ∧
      s.OneRegister t f dst (BitVec.ofNat 32 ((s.readReg f dst).toNat + imm.toNat))

/-- R106 in the spec's reading (D10, D17): SUBXY subtracts each half of the source from that half of the destination,
modulo 2^16, without a borrow between them; that nothing else changes but N, C, Z and V, which are free, is the model's
choice (log 11). -/
def Obligations.SubxySubtractsEachHalf : Prop :=
  ∀ (s : State) (f : RFile) (src dst : RegIdx),
    ∃ t v, exec (.subxy f src dst) s = .next t ∧ s.OneRegister t f dst v ∧
      yHalf v = yHalf (s.readReg f dst) - yHalf (s.readReg f src) ∧
      xHalf v = xHalf (s.readReg f dst) - xHalf (s.readReg f src)

/-! ### PIXBLT and FILL -/

/-- Every PIXBLT completes: SPTCH and DPTCH are as before it (R127), so are OFFSET, WSTART, WEND, COLOR0, COLOR1 (R134 to
R136, R138, R139) and, but for window option 1, DYDX (R137); no bit of memory changes outside its destination pixels. B10 to
B14 are any values (R123), N, C, Z, V free; that ST's other bits but PBX are kept is the model's choice (log 11), and that
PBX and the resumption are cleared is log 18. What a resumed PIXBLT leaves in SPTCH, DPTCH and DYDX is stated where it is
resumed from its own context. -/
def Obligations.PixbltCompletesAndKeepsItsOperands : Prop :=
  ∀ (i : Instr) (src dst : ArrayForm) (s : State), pixbltForms i = some (src, dst) →
    ∃ t, exec i s = .next t ∧ t.a = s.a ∧ t.sp = s.sp ∧ t.pc = s.pc ∧ s.KeepsOutside t ∧
      t.b[4] = s.b[4] ∧ t.b[5] = s.b[5] ∧ t.b[6] = s.b[6] ∧ t.b[8] = s.b[8] ∧ t.b[9] = s.b[9] ∧
      (s.resuming = false → t.b[1] = s.b[1] ∧ t.b[3] = s.b[3] ∧ t.suspended = s.suspended ∧
        (¬ (dst = .xy ∧ s.io.window = .option1) → t.b[7] = s.b[7])) ∧
      stPBX t.st = false ∧ t.resuming = false ∧ (∀ k, k < 28 → k ≠ 25 → t.st.getLsbD k = s.st.getLsbD k) ∧
      s.Draws t (spotsOf (s.currentPlan (s.pixbltPlan src dst)).ops)

/-- R125, in the spec's derivation: a PIXBLT over DY rows from top to bottom leaves SADDR and DADDR at the linear start
of the row after the last, whatever format they had and whatever the window clips; where PIXBLT L,L with PBH = 1 starts from
a corner, the lowest corner counts, which is open (log 25). -/
def Obligations.PixbltEndsAtTheRowAfterTheLast : Prop :=
  ∀ (i : Instr) (src dst : ArrayForm) (s : State), pixbltForms i = some (src, dst) → s.resuming = false →
    s.io.pbv = false → ¬ (dst = .xy ∧ s.io.window = .option1) → rowsOf s.dydx ≠ 0 → columnsOf s.dydx ≠ 0 →
    let corner := fun (a pitch : Word) =>
      if src = .linear ∧ dst = .linear ∧ s.io.pbh = true then Config.cornerBase s.io a pitch s.dydx else a
    ∃ t, exec i s = .next t ∧
      t.b[0] = (if src = .xy then s.linearOf .source s.saddr else corner s.saddr s.sptch) +
        BitVec.ofNat 32 (rowsOf s.dydx) * s.sptch ∧
      t.b[2] = (if dst = .xy then s.linearOf .destination s.daddr else corner s.daddr s.dptch) +
        BitVec.ofNat 32 (rowsOf s.dydx) * s.dptch

/-- R129: a PIXBLT or FILL with DY = 0 or DX = 0 writes no memory. -/
def Obligations.ZeroDimensionMovesNothing : Prop :=
  ∀ (i : Instr) (s : State), (pixbltForms i).isSome = true ∨ i = .fillL ∨ i = .fillXY → s.resuming = false →
    rowsOf s.dydx = 0 ∨ columnsOf s.dydx = 0 →
    ∃ t, exec i s = .next t ∧ t.mem = s.mem ∧ t.cache = s.cache

/-- R128, in the spec's derivation: under window option 1 nothing is drawn; DADDR and DYDX become the start and the
dimensions of the common rectangle; where there is none, V is not set. Whether coordinates are signed is a parameter
(R121, log 26). -/
def Obligations.WindowOptionOneFindsTheCommonRectangle : Prop :=
  ∀ (i : Instr) (s : State), (∃ src, pixbltForms i = some (src, .xy)) ∨ i = .fillXY → s.resuming = false →
    s.io.window = .option1 →
    let n := coordinate s.params.signedXY
    let x0 := max (n (xHalf s.daddr)) (n (xHalf s.wstart))
    let y0 := max (n (yHalf s.daddr)) (n (yHalf s.wstart))
    let x1 := min (n (xHalf s.daddr) + (xHalf s.dydx).toNat - 1) (n (xHalf s.wend))
    let y1 := min (n (yHalf s.daddr) + (yHalf s.dydx).toNat - 1) (n (yHalf s.wend))
    ∃ t, exec i s = .next t ∧ t.mem = s.mem ∧ t.cache = s.cache ∧
      (x0 ≤ x1 ∧ y0 ≤ y1 →
        n (xHalf t.b[2]) = x0 ∧ n (yHalf t.b[2]) = y0 ∧
        ((xHalf t.b[7]).toNat : Int) = x1 - x0 + 1 ∧ ((yHalf t.b[7]).toNat : Int) = y1 - y0 + 1) ∧
      (¬ (x0 ≤ x1 ∧ y0 ≤ y1) → stV s.st = false → stV t.st = false)

/-- Both FILLs complete: of the B file only DADDR (what a FILL leaves there is not in the source, log 29), B10 to B14 (R123)
and, under window option 1, DYDX may change; no bit of memory changes outside the destination pixels (R148, R149). Of a
resumed FILL the registers B0, B1, B3 and B7 are left out: they end as its own plan has them. N, C, Z and V are free; that
ST's other bits but PBX are kept is the model's choice (log 11), and that PBX and the resumption are cleared is log 18. -/
def Obligations.FillCompletesAndKeepsItsOperands : Prop :=
  ∀ (xy : Bool) (s : State),
    ∃ t, exec (fillOf xy) s = .next t ∧ t.a = s.a ∧ t.sp = s.sp ∧ t.pc = s.pc ∧ s.KeepsOutside t ∧
      t.b[4] = s.b[4] ∧ t.b[5] = s.b[5] ∧ t.b[6] = s.b[6] ∧ t.b[8] = s.b[8] ∧ t.b[9] = s.b[9] ∧
      (s.resuming = false → t.b[0] = s.b[0] ∧ t.b[1] = s.b[1] ∧ t.b[3] = s.b[3] ∧ t.suspended = s.suspended ∧
        (¬ (xy = true ∧ s.io.window = .option1) → t.b[7] = s.b[7])) ∧
      stPBX t.st = false ∧ t.resuming = false ∧ (∀ k, k < 28 → k ≠ 25 → t.st.getLsbD k = s.st.getLsbD k) ∧
      s.Draws t (spotsOf (s.currentPlan (s.fillPlan (fillForm xy))).ops)

/-- A plain FILL (no PBH, PBV, window option, processing or resumption) leaves in every bit of its array the bit of COLOR1
that aligns with it, and changes no other bit (R148, R149, R139; that pixels of a row lie a pixel size apart is log 23, the
colour of a pixel that crosses a word boundary log 46). -/
def Obligations.FillPaintsColor1 : Prop :=
  ∀ (xy : Bool) (s : State), s.PlainTransfer →
    ∃ t, exec (fillOf xy) s = .next t ∧
      (∀ x, x ≠ s.hltAddr → (∃ row col, s.inElement (s.fillBase (fillForm xy)) x row col) →
        t.mem.readBit x = s.color1.getLsbD (x.toNat % 16)) ∧
      (∀ x, ¬ (∃ row col, s.inElement (s.fillBase (fillForm xy)) x row col) → t.mem.readBit x = s.mem.readBit x)

/-- A plain PIXBLT of a binary source (PBH = 1, PBV = 1 and window options are left out) leaves, in every bit of its array
that lies in one element only, the aligned bit of COLOR1 where the element's source bit is 1 and of COLOR0 where it is 0
(R142, R143, R138, R139; placement is log 23, the colour of a pixel that crosses a word boundary log 46), when no
destination pixel lies over a source bit (log 24). -/
def Obligations.PixbltExpandsBinarySource : Prop :=
  ∀ (i : Instr) (dst : ArrayForm) (s : State), pixbltForms i = some (.binary, dst) → s.PlainTransfer →
    let base := if dst = .xy then s.linearOf .destination s.daddr else s.daddr
    let bit := fun row col => elementAddr s.saddr s.sptch 1 row col
    (∀ row col row' col', row < rowsOf s.dydx → col < columnsOf s.dydx → ¬ s.inElement base (bit row col) row' col') →
    ∃ t, exec i s = .next t ∧
      ∀ x row col, x ≠ s.hltAddr → s.inElement base x row col →
        (∀ row' col', s.inElement base x row' col' → row' = row ∧ col' = col) →
        t.mem.readBit x = (if s.mem.readBit (bit row col) then s.color1 else s.color0).getLsbD (x.toNat % 16)

/-- A plain PIXBLT of pixels (PBH = 1, PBV = 1 and window options are left out) copies, into every bit of its array that lies
in one element only, the bit at the same place of the element's source pixel (R144 to R147; placement is log 23), when no
source pixel meets a destination pixel (log 24). -/
def Obligations.PixbltCopiesPixels : Prop :=
  ∀ (i : Instr) (src dst : ArrayForm) (s : State), pixbltForms i = some (src, dst) → src ≠ .binary → s.PlainTransfer →
    let base := if dst = .xy then s.linearOf .destination s.daddr else s.daddr
    let from_ := if src = .xy then s.linearOf .source s.saddr else s.saddr
    let pixel := fun row col => elementAddr from_ s.sptch s.io.pixelSize row col
    (∀ row col row' col' x, row < rowsOf s.dydx → col < columnsOf s.dydx →
      covers (pixel row col) s.io.pixelSize x = true → ¬ s.inElement base x row' col') →
    ∃ t, exec i s = .next t ∧
      ∀ x row col, x ≠ s.hltAddr → s.inElement base x row col →
        (∀ row' col', s.inElement base x row' col' → row' = row ∧ col' = col) →
        t.mem.readBit x = s.mem.readBit (pixel row col + (x - elementAddr base s.dptch s.io.pixelSize row col))

/-- Where a window option other than 1 clips (R143, R135, R136; that all such options clip alike is log 27), a PIXBLT or
FILL with an XY destination changes no bit that lies only in elements outside the window, whose corners are both inside it
(where the elements lie is log 23). -/
def Obligations.ClippedTransfersStayInTheWindow : Prop :=
  ∀ (i : Instr) (s : State), (∃ src, pixbltForms i = some (src, .xy)) ∨ i = .fillXY → s.inside = [] →
    s.resuming = false → s.io.window = .clip →
    let n := coordinate s.params.signedXY
    ∃ t, exec i s = .next t ∧
      ∀ x, (∀ (row col : Nat), s.inElement (s.linearOf .destination s.daddr) x row col →
          ¬ (n (xHalf s.wstart) ≤ n (xHalf s.daddr) + col ∧ n (xHalf s.daddr) + col ≤ n (xHalf s.wend) ∧
            n (yHalf s.wstart) ≤ n (yHalf s.daddr) + row ∧ n (yHalf s.daddr) + row ≤ n (yHalf s.wend))) →
        t.mem.readBit x = s.mem.readBit x

/-! ### Lines and pixels -/

/-- LINE completes: it draws pixels of COLOR1 (R139) at the points that DADDR runs through, from the one it holds (R132,
R150), where the window lets them, and leaves SADDR, DADDR, B10 to B12 and B14 as they have advanced; how many points there
are and how those registers advance, from LINE's operands of R141, is open (log 30). B13 has no effect on the points (U5,
D11) and ends as any value (U7). Nothing else changes but N, C, Z and V, which are free; that ST's other bits are kept is the
model's choice (log 11). -/
def Obligations.LineDrawsColor1 : Prop :=
  ∀ (z : Bool) (s : State),
    let spots := ((s.linePoints z).filter s.drawsAt).map (fun xy => (s.linearOf .pixelDestination xy, (s.io.pixelSize : Nat)))
    ((s.linePoints z).head? = if s.lineCount z = 0 then none else some s.daddr) ∧
    (∀ v, ({ s with b := s.b.set 13 v } : State).linePoints z = s.linePoints z) ∧
    ∃ t, exec (.line z) s = .next t ∧ t.a = s.a ∧ t.sp = s.sp ∧ t.pc = s.pc ∧ t.suspended = s.suspended ∧
      s.KeepsOutside t ∧ s.KeepsStatus t ∧ t.b[1] = s.b[1] ∧ (∀ k : Fin 10, 3 ≤ k → t.b[k] = s.b[k]) ∧
      t.lineRegs = s.lineAfter z (s.lineCount z) ∧ s.Draws t spots ∧
      (s.PlainPixels → ∀ x, (∃ p ∈ spots, s.inPixel p.1 x) → t.mem.readBit x = s.color1.getLsbD (x.toNat % 16))

/-- DRAV completes: it draws one pixel of COLOR1 (R151, R139) at the XY address in one of its registers (which one is the
parameter of log 31), advances that register (log 31), and changes nothing else but N, C, Z and V, which are free. That
B10 to B14 are kept is the spec's own decision (D19 for R123, log 48), and that ST's other bits are is the model's choice
(log 11). -/
def Obligations.DravDrawsOnePixelAndAdvances : Prop :=
  ∀ (f : RFile) (src dst : RegIdx) (s : State),
    let addrReg := if s.params.dravAddrInRd then dst else src
    let stepReg := if s.params.dravAddrInRd then src else dst
    let xy := s.readReg f addrReg
    ∃ t, exec (.drav f src dst) s = .next t ∧ t.readReg f addrReg = Config.advanceXY xy (s.readReg f stepReg) ∧
      s.KeepsRegistersBut t f addrReg ∧ s.KeepsStatus t ∧ t.pc = s.pc ∧ t.suspended = s.suspended ∧ s.KeepsOutside t ∧
      s.Draws t (if s.drawsAt xy then [(s.linearOf .pixelDestination xy, (s.io.pixelSize : Nat))] else []) ∧
      (s.PlainPixels → s.drawsAt xy = true → ∀ x, s.inPixel (s.linearOf .pixelDestination xy) x →
        t.mem.readBit x = s.color1.getLsbD (x.toNat % 16))

/-- CVXYL leaves the linear address of the XY address in Rs (R152), OFFSET for the origin (R70, R134; the rest of the formula
is open, log 20); CPW leaves the result of comparing its two registers with WSTART and WEND (R153; what it is, and that Rd
receives it, is open, log 33); neither changes anything else but N, C, Z and V, which are free. That B10 to B14 are kept is
the spec's own decision (D19 for R123, log 48), and that ST's other bits are is the model's choice (log 11). -/
def Obligations.CvxylAndCpwWriteOneRegister : Prop :=
  ∀ (f : RFile) (src dst : RegIdx) (s : State),
    (∃ t v, exec (.cvxyl f src dst) s = .next t ∧ s.OneRegister t f dst v ∧
      v = s.linearOf .convert (s.readReg f src) ∧ (s.readReg f src = 0#32 → v = s.offset)) ∧
    (∃ t, exec (.cpw f src dst) s = .next t ∧
      s.OneRegister t f dst (Config.cpwResult (s.readReg f src) (s.readReg f dst) s.wstart s.wend))

/-- The two PIXTs that store (R154, R156) put one pixel at the XY address in Rd, the low bits of Rs (that R154's pixel lies
there is the model's choice, log 34) or the pixel at the XY address in Rs, where the window lets them; they change no
register and no other bit of memory. That B10 to B14 are kept is the spec's own decision (D19 for R123, log 48); that of ST
only N, C, Z and V, which are free, may change is the model's choice (log 11). -/
def Obligations.PixtStoresOnePixel : Prop :=
  ∀ (f : RFile) (src dst : RegIdx) (s : State),
    let xy := s.readReg f dst
    let a := s.linearOf .pixelDestination xy
    let spots := if s.drawsAt xy then [(a, (s.io.pixelSize : Nat))] else []
    (∃ t, exec (.pixtToXY f src dst) s = .next t ∧ s.KeepsRegisters t ∧ s.KeepsStatus t ∧ t.pc = s.pc ∧
      t.suspended = s.suspended ∧ s.KeepsOutside t ∧ s.Draws t spots ∧
      (s.PlainPixels → s.drawsAt xy = true → ∀ x, s.inPixel a x →
        t.mem.readBit x = (s.readReg f src).getLsbD (x - a).toNat)) ∧
    (∃ t, exec (.pixtXYToXY f src dst) s = .next t ∧ s.KeepsRegisters t ∧ s.KeepsStatus t ∧ t.pc = s.pc ∧
      t.suspended = s.suspended ∧ s.KeepsOutside t ∧ s.Draws t spots ∧
      (s.PlainPixels → s.drawsAt xy = true → ∀ x, s.inPixel a x →
        t.mem.readBit x = s.mem.readBit (s.linearOf .pixelSource (s.readReg f src) + (x - a))))

/-- PIXT *Rs.XY,Rd (R155) leaves the pixel at the XY address in the low bits of Rd and changes nothing else but N, C, Z and
V, which are free; the bits above it are open, and that no pixel processing or plane masking changes the pixel loaded is the
model's choice (log 34). That B10 to B14 are kept is the spec's own decision (D19 for R123,
log 48), and that ST's other bits are is the model's choice (log 11). -/
def Obligations.PixtLoadsOnePixel : Prop :=
  ∀ (f : RFile) (src dst : RegIdx) (s : State),
    ∃ t v, exec (.pixtFromXY f src dst) s = .next t ∧ t.readReg f dst = v ∧ s.KeepsRegistersBut t f dst ∧
      s.KeepsStatus t ∧ t.pc = s.pc ∧ t.suspended = s.suspended ∧ s.KeepsOutside t ∧
      (s.inside = [] → s.OneRegister t f dst v ∧
        ∀ k : Nat, k < (s.io.pixelSize : Nat) →
          v.getLsbD k = s.mem.readBit (s.linearOf .pixelSource (s.readReg f src) + BitVec.ofNat 32 k))

/-- Single pixels are drawn wherever they are when no window option is selected; when one is, none outside the window is
drawn (R154, R156), whose corners are both inside it (R135, R136). That every option other than 1 draws all pixels inside it
is the model's choice (log 27). -/
def Obligations.PixelsAreClippedToTheWindow : Prop :=
  ∀ (s : State) (xy : Word),
    let n := coordinate s.params.signedXY
    let inside := n (xHalf s.wstart) ≤ n (xHalf xy) ∧ n (xHalf xy) ≤ n (xHalf s.wend) ∧
      n (yHalf s.wstart) ≤ n (yHalf xy) ∧ n (yHalf xy) ≤ n (yHalf s.wend)
    (s.io.window = .off → s.drawsAt xy = true) ∧
    (s.io.window = .clip → (s.drawsAt xy = true ↔ inside)) ∧
    (s.io.window = .option1 → ¬ inside → s.drawsAt xy = false)

/-! ### Instructions that replace PC -/

/-- TRAP (R176) loads PC with an absolute address, its four LSBs 0; where it comes from, and that PC and ST are saved and
ST changed as at an interrupt between instructions (PBX = 0 in the ST saved), is the model's (log 16). -/
def Obligations.TrapTakesAnException : Prop :=
  ∀ (n : BitVec 5) (s : State),
    ∃ t, exec (.trap n) s = .next t ∧ s.TakesException t s.pc (setPBX s.st false) (Config.trapAddress s.freeCount n) ∧
      t.a = s.a ∧ t.b = s.b ∧ t.resuming = s.resuming ∧ t.suspended = s.suspended ∧ s.KeepsOutside t

/-- R177, R178 (derived by the spec; the register is read before the push, D18): a call pushes the address of the next
instruction and loads PC with the address, its four LSBs 0; A and B are kept. N, C, Z and V are free; that ST's other bits
are kept is the model's choice (log 11). -/
def Obligations.CallsPushTheReturnAddress : Prop :=
  ∀ s : State,
    (∀ addr, ∃ t, exec (.calla addr) s = .next t ∧ s.Pushes t s.pc ∧ t.pc = addr &&& 0xFFFFFFF0#32 ∧ t.a = s.a ∧
      t.b = s.b ∧ s.KeepsStatus t ∧ t.suspended = s.suspended ∧ s.KeepsOutside t) ∧
    (∀ f src, ∃ t, exec (.callRs f src) s = .next t ∧ s.Pushes t s.pc ∧ t.pc = s.readReg f src &&& 0xFFFFFFF0#32 ∧
      t.a = s.a ∧ t.b = s.b ∧ s.KeepsStatus t ∧ t.suspended = s.suspended ∧ s.KeepsOutside t)

/-- R179: JAcc loads PC with the address, its four LSBs 0, when the condition holds, else goes on; nothing else
changes. -/
def Obligations.JumpAbsoluteOnCondition : Prop :=
  ∀ (c : BitVec 4) (addr : Word) (s : State),
    exec (.jacc c addr) s =
      .next { s with pc := if conditionHolds c s.st then addr &&& 0xFFFFFFF0#32 else s.pc }

/-- R180: JRcc, in both lengths, adds sixteen times its signed displacement to the next instruction's address, modulo
2^32, when the condition holds, else goes on; nothing else changes. -/
def Obligations.JumpRelativeOnCondition : Prop :=
  ∀ (c : BitVec 4) (s : State), wordAligned s.pc →
    (∀ d : BitVec 8, exec (.jrcc8 c d) s =
      .next { s with pc := if conditionHolds c s.st then s.pc + BitVec.ofInt 32 (16 * d.toInt) else s.pc }) ∧
    (∀ d : Word16, exec (.jrcc16 c d) s =
      .next { s with pc := if conditionHolds c s.st then s.pc + BitVec.ofInt 32 (16 * d.toInt) else s.pc })

/-- R181: a DSJ form goes on, or jumps (DSJ, DSJEQ and DSJNE by sixteen times their displacement, DSJS to a word aligned
address). When it jumps, what it leaves in the register and where DSJS goes are open (log 13). R181 says no more; that no
register but its own changes is the model's choice (log 13), and so is that of ST only N, C, Z and V, which are free, may
change (log 11). -/
def Obligations.DecrementJumpsBranchOrGoOn : Prop :=
  ∀ (f : RFile) (dst : RegIdx) (s : State), wordAligned s.pc →
    (∀ (d : Word16) (i : Instr) (form : DsjForm),
      (i, form) ∈ [(Instr.dsj f dst d, DsjForm.dsj), (Instr.dsjeq f dst d, DsjForm.dsjeq),
        (Instr.dsjne f dst d, DsjForm.dsjne)] →
      ∃ t, exec i s = .next t ∧ s.KeepsRegistersBut t f dst ∧ s.KeepsStatus t ∧ s.KeepsStorage t ∧
        t.pc = if Config.dsjTaken form s.st (s.readReg f dst) then s.pc + BitVec.ofInt 32 (16 * d.toInt) else s.pc) ∧
    (∀ (back : Bool) (off : BitVec 5),
      ∃ t, exec (.dsjs back off f dst) s = .next t ∧ s.KeepsRegistersBut t f dst ∧ s.KeepsStatus t ∧
        s.KeepsStorage t ∧ wordAligned t.pc ∧
        t.pc = if Config.dsjTaken .dsjs s.st (s.readReg f dst) then alignPc (Config.dsjsTarget s.pc back off) else s.pc)

/-- R182: JUMP loads PC with the register, the four LSBs 0; the register and all others are unchanged. That ST but N, C, Z
and V is kept is the model's choice (log 11). -/
def Obligations.JumpLoadsPcFromRegister : Prop :=
  ∀ (f : RFile) (src : RegIdx) (s : State),
    ∃ t, exec (.jump f src) s = .next t ∧ t.pc = s.readReg f src &&& 0xFFFFFFF0#32 ∧ s.KeepsRegisters t ∧
      s.KeepsStatus t ∧ s.KeepsStorage t

/-- EXGPC loads PC with the register, the four LSBs 0 (R183, R174); that the register receives the next instruction's
address is the spec's general knowledge, which the model takes (log 14). That ST but N, C, Z and V is kept is the model's
choice (log 11). -/
def Obligations.ExgpcExchangesPcAndRegister : Prop :=
  ∀ (f : RFile) (dst : RegIdx) (s : State),
    ∃ t, exec (.exgpc f dst) s = .next t ∧ t.pc = s.readReg f dst &&& 0xFFFFFFF0#32 ∧ t.readReg f dst = s.pc ∧
      s.KeepsRegistersBut t f dst ∧ s.KeepsStatus t ∧ s.KeepsStorage t

/-- The return instruction pops PC (R184, derived by the spec); that RETS N drops N further words is R91's general
knowledge, which the model takes (log 15). That ST but N, C, Z and V is kept is the model's choice (log 11). -/
def Obligations.ReturnPopsPc : Prop :=
  ∀ (n : BitVec 5) (s : State),
    ∃ t, exec (.rets n) s = .next t ∧ t.sp = s.sp + BitVec.ofNat 32 (32 + 16 * n.toNat) ∧ t.a = s.a ∧ t.b = s.b ∧
      s.KeepsStatus t ∧ wordAligned t.pc ∧ t.suspended = s.suspended ∧ s.KeepsOutside t ∧
      (s.inside = [] → t.pc = s.mem.readBits s.sp 32 &&& 0xFFFFFFF0#32 ∧ s.KeepsStorage t)

/-- The return from an interrupt (R235, derived by the spec, in the order of INT_FRAME, D13) reloads PC and ST from the
frame, the four LSBs of PC 0, and raises SP by 64; a PBX = 1 restored has the instruction at PC resumed (R234). -/
def Obligations.ReturnFromInterruptPopsPcAndSt : Prop :=
  ∀ s : State,
    ∃ t, exec .reti s = .next t ∧ t.sp = s.sp + 64#32 ∧ t.a = s.a ∧ t.b = s.b ∧ t.resuming = stPBX t.st ∧
      wordAligned t.pc ∧ t.suspended = s.suspended ∧ s.KeepsOutside t ∧
      (s.inside = [] → s.KeepsStorage t ∧
        (s.params.intFrame = .pcFirst →
          t.st = s.mem.readBits s.sp 32 ∧ t.pc = s.mem.readBits (s.sp + 32#32) 32 &&& 0xFFFFFFF0#32) ∧
        (s.params.intFrame = .stFirst →
          t.st = s.mem.readBits (s.sp + 32#32) 32 ∧ t.pc = s.mem.readBits s.sp 32 &&& 0xFFFFFFF0#32))

/-- A call, of either kind, and the return from it resume the caller at the next instruction with its SP and its
registers (R177, R178, R184), unless the return address was pushed over HLT. -/
def Obligations.ReturnUndoesCall : Prop :=
  ∀ (s : State) (i : Instr), (∃ addr, i = .calla addr) ∨ (∃ f src, i = .callRs f src) → s.inside = [] →
    wordAligned s.pc → covers (s.sp - 32#32) 32 s.hltAddr = false →
    ∃ t u, exec i s = .next t ∧ exec (.rets 0) t = .next u ∧ u.pc = s.pc ∧ s.KeepsRegisters u ∧
      (∀ x, covers (s.sp - 32#32) 32 x = false → u.mem.readBit x = s.mem.readBit x)

end
end

