-- ==== Sys2Proof/Laws/Memory.lean ====
section
/-! SUPPORT. The laws of memory: reading after writing, by byte, bit and value (R52), and the canonical form. -/

namespace Sys2Proof.Machine

/-! ### Bytes -/

theorem Memory.readByte_insertByte (m : Memory) (k j : Nat) (v : Byte) :
    (Memory.insertByte k v m).readByte j = if j = k then v else m.readByte j := by
  induction m with
  | nil => simp only [Memory.insertByte, Memory.readByte, eq_comm (a := k)]
  | cons c m ih =>
    obtain ⟨i, b⟩ := c
    by_cases h1 : k < i
    · simp only [Memory.insertByte, if_pos h1, Memory.readByte, eq_comm (a := k)]
    · by_cases h2 : i = k
      · subst h2
        simp only [Memory.insertByte, if_neg h1, if_true, Memory.readByte, eq_comm (b := j)]
        split_ifs <;> rfl
      · simp only [Memory.insertByte, if_neg h1, if_neg h2, Memory.readByte, ih]
        split_ifs <;> first | rfl | omega

theorem Memory.readByte_filter (m : Memory) (k j : Nat) :
    Memory.readByte (m.filter (fun c => c.1 != k)) j = if j = k then Memory.unlisted else m.readByte j := by
  induction m with
  | nil => simp [Memory.readByte]
  | cons c m ih =>
    obtain ⟨i, b⟩ := c
    by_cases h : i = k
    · subst h
      simp only [List.filter_cons, bne_self_eq_false, Bool.false_eq_true, if_false, ih, Memory.readByte]
      split_ifs <;> first | rfl | omega
    · have h' : (i != k) = true := by simpa using h
      simp only [List.filter_cons, h', if_true, Memory.readByte, ih]
      split_ifs <;> first | rfl | omega

/-- A byte read after a byte is written: the byte written, or the one there before. -/
@[simp] theorem Memory.readByte_writeByte (m : Memory) (k j : Nat) (v : Byte) :
    (m.writeByte k v).readByte j = if j = k then v else m.readByte j := by
  unfold Memory.writeByte
  split_ifs with hv hj hj
  · rw [Memory.readByte_filter, if_pos hj, hv]
  · rw [Memory.readByte_filter, if_neg hj]
  · rw [Memory.readByte_insertByte, if_pos hj]
  · rw [Memory.readByte_insertByte, if_neg hj]

/-! ### The canonical form -/

theorem Memory.mem_insertByte {m : Memory} {k : Nat} {v : Byte} {c : Host.Cell}
    (h : c ∈ Memory.insertByte k v m) : c = (k, v) ∨ c ∈ m := by
  induction m with
  | nil => simpa [Memory.insertByte] using h
  | cons d m ih =>
    obtain ⟨i, b⟩ := d
    simp only [Memory.insertByte] at h
    split_ifs at h with h1 h2
    · simpa using h
    · rcases List.mem_cons.1 h with h | h
      · exact .inl h
      · exact .inr (List.mem_cons_of_mem _ h)
    · rcases List.mem_cons.1 h with h | h
      · exact .inr (h ▸ List.mem_cons_self ..)
      · rcases ih h with h | h
        · exact .inl h
        · exact .inr (List.mem_cons_of_mem _ h)

theorem Memory.sorted_insertByte {m : Memory} (k : Nat) (v : Byte)
    (h : m.Pairwise (fun x y => x.1 < y.1)) :
    (Memory.insertByte k v m).Pairwise (fun x y => x.1 < y.1) := by
  induction m with
  | nil => simp [Memory.insertByte]
  | cons d m ih =>
    obtain ⟨i, b⟩ := d
    obtain ⟨hd, hm⟩ := List.pairwise_cons.1 h
    simp only [Memory.insertByte]
    split_ifs with h1 h2
    · refine List.pairwise_cons.2 ⟨fun c hc => ?_, h⟩
      rcases List.mem_cons.1 hc with rfl | hc
      · exact h1
      · exact lt_trans h1 (hd c hc)
    · subst h2
      exact List.pairwise_cons.2 ⟨hd, hm⟩
    · refine List.pairwise_cons.2 ⟨fun c hc => ?_, ih hm⟩
      rcases Memory.mem_insertByte hc with rfl | hc
      · simp only; omega
      · exact hd c hc

/-- A byte write keeps the canonical form. -/
theorem Memory.wf_writeByte {m : Memory} (h : m.wf) {k : Nat} (hk : k < addressSpaceBytes) (v : Byte) :
    (m.writeByte k v).wf := by
  unfold Memory.writeByte
  split_ifs with hv
  · exact ⟨h.1.sublist List.filter_sublist, fun c hc => h.2 c (List.mem_of_mem_filter hc)⟩
  · refine ⟨Memory.sorted_insertByte k v h.1, fun c hc => ?_⟩
    rcases Memory.mem_insertByte hc with rfl | hc
    · exact ⟨hk, hv⟩
    · exact h.2 c hc

theorem byteNumber_lt (a : Word) : byteNumber a < addressSpaceBytes := by
  have := a.isLt
  unfold byteNumber addressSpaceBytes
  omega

/-- A bit write keeps the canonical form. -/
theorem Memory.wf_writeBit {m : Memory} (h : m.wf) (a : Word) (v : Bool) : (m.writeBit a v).wf :=
  Memory.wf_writeByte h (byteNumber_lt a) _

/-- `MemWrite` keeps the canonical form. -/
theorem Memory.wf_writeBits {m : Memory} (h : m.wf) (a : Word) (n : Nat) (v : Word) :
    (m.writeBits a n v).wf := by
  induction n with
  | zero => exact h
  | succ n ih => exact Memory.wf_writeBit ih _ _

theorem Memory.wf_nil : Memory.wf [] := by simp [Memory.wf]

/-- Every byte that a memory in canonical form lists is read back as listed. -/
theorem Memory.readByte_of_mem {m : Memory} (h : m.wf) {c : Host.Cell} (hc : c ∈ m) : m.readByte c.1 = c.2 := by
  induction m with
  | nil => cases hc
  | cons d m ih =>
    obtain ⟨hd, hm⟩ := List.pairwise_cons.1 h.1
    rcases List.mem_cons.1 hc with rfl | hc
    · simp [Memory.readByte]
    · have : d.1 ≠ c.1 := (hd c hc).ne
      simp only [Memory.readByte, if_neg this]
      exact ih ⟨hm, fun e he => h.2 e (List.mem_cons_of_mem _ he)⟩ hc

theorem Memory.mem_of_readByte {m : Memory} {k : Nat} (h : m.readByte k ≠ Memory.unlisted) :
    (k, m.readByte k) ∈ m := by
  induction m with
  | nil => exact absurd rfl h
  | cons d m ih =>
    obtain ⟨i, b⟩ := d
    simp only [Memory.readByte] at h ⊢
    split_ifs with hi
    · subst hi
      simp
    · rw [if_neg hi] at h
      exact List.mem_cons_of_mem _ (ih h)

/-- Memories in canonical form that read alike are equal. -/
theorem Memory.eq_of_readByte {m m' : Memory} (h : m.wf) (h' : m'.wf)
    (e : ∀ k, m.readByte k = m'.readByte k) : m = m' := by
  have key : ∀ c : Host.Cell, c ∈ m ↔ c ∈ m' := by
    intro c
    constructor
    · intro hc
      have hr := Memory.readByte_of_mem h hc
      have hn := (h.2 c hc).2
      have := Memory.mem_of_readByte (m := m') (k := c.1) (by rw [← e, hr]; exact hn)
      rwa [← e, hr] at this
    · intro hc
      have hr := Memory.readByte_of_mem h' hc
      have hn := (h'.2 c hc).2
      have := Memory.mem_of_readByte (m := m) (k := c.1) (by rw [e, hr]; exact hn)
      rwa [e, hr] at this
  have n1 : m.Nodup := h.1.imp (fun hlt heq => by simp [heq] at hlt)
  have n2 : m'.Nodup := h'.1.imp (fun hlt heq => by simp [heq] at hlt)
  exact ((List.perm_ext_iff_of_nodup n1 n2).2 (fun c => key c)).eq_of_pairwise
    (fun a b _ _ h1 h2 => absurd h1 (by omega)) h.1 h'.1

/-! ### Bits -/

theorem getLsbD_setByteBit (b : Byte) (i j : Nat) (v : Bool) (hi : i < 8) :
    (setByteBit b i v).getLsbD j = if j = i then v else b.getLsbD j := by
  unfold setByteBit
  cases v <;> by_cases hj : j = i
  · subst hj; simp [hi]
  · simp only [Bool.false_eq_true, if_false, BitVec.getLsbD_and, BitVec.getLsbD_not, BitVec.getLsbD_shiftLeft, hj]
    by_cases h8 : j < 8
    · by_cases hlt : j < i
      · simp [h8, hlt]
      · have : j - i ≠ 0 := by omega
        simp [h8, hlt, this, BitVec.getLsbD_one]
    · simp [BitVec.getLsbD_of_ge b j (by omega)]
  · subst hj; simp [hi]
  · simp only [if_true, BitVec.getLsbD_or, BitVec.getLsbD_shiftLeft, hj, if_false]
    by_cases h8 : j < 8
    · by_cases hlt : j < i
      · simp [hlt]
      · have : j - i ≠ 0 := by omega
        simp [hlt, this, BitVec.getLsbD_one]
    · simp [h8]

theorem byte_bit_inj {a x : Word} (h1 : byteNumber x = byteNumber a) (h2 : bitNumber x = bitNumber a) : x = a := by
  apply BitVec.eq_of_toNat_eq
  unfold byteNumber at h1
  unfold bitNumber at h2
  omega

/-- A bit read after a bit is written: the bit written, or the one there before. -/
@[simp] theorem Memory.readBit_writeBit (m : Memory) (a x : Word) (v : Bool) :
    (m.writeBit a v).readBit x = if x = a then v else m.readBit x := by
  unfold Memory.readBit Memory.writeBit
  rw [Memory.readByte_writeByte]
  have hlt : bitNumber a < 8 := Nat.mod_lt _ (by decide)
  by_cases hb : byteNumber x = byteNumber a
  · rw [if_pos hb, getLsbD_setByteBit _ _ _ _ hlt]
    by_cases hx : x = a
    · subst hx; simp
    · have : bitNumber x ≠ bitNumber a := fun h => hx (byte_bit_inj hb h)
      rw [if_neg this, if_neg hx, hb]
  · have hx : x ≠ a := fun h => hb (by rw [h])
    rw [if_neg hb, if_neg hx]

/-- Writing a bit as it is changes nothing that is read. -/
theorem Memory.readBit_writeBit_self (m : Memory) (a x : Word) :
    (m.writeBit a (m.readBit a)).readBit x = m.readBit x := by
  rw [Memory.readBit_writeBit]
  split_ifs with h
  · rw [h]
  · rfl

/-! ### Values -/

theorem covers_iff (a : Word) (n : Nat) (x : Word) : covers a n x = true ↔ (x - a).toNat < n := by
  simp [covers]

theorem eq_add_ofNat_iff (a x : Word) {n : Nat} (hn : n < 2 ^ 32) :
    x = a + BitVec.ofNat 32 n ↔ (x - a).toNat = n := by
  constructor
  · rintro rfl
    rw [add_sub_cancel_left, BitVec.toNat_ofNat, Nat.mod_eq_of_lt hn]
  · intro h
    have : x - a = BitVec.ofNat 32 n :=
      BitVec.eq_of_toNat_eq (by rw [h, BitVec.toNat_ofNat, Nat.mod_eq_of_lt hn])
    rw [← this, add_sub_cancel]

/-- A bit read after `MemWrite`: the value's bit where the write covers it, else the one there before. -/
theorem Memory.readBit_writeBits (m : Memory) (a x : Word) (v : Word) {n : Nat} (hn : n ≤ 2 ^ 32) :
    (m.writeBits a n v).readBit x = if (x - a).toNat < n then v.getLsbD (x - a).toNat else m.readBit x := by
  induction n with
  | zero => simp [Memory.writeBits]
  | succ n ih =>
    rw [Memory.writeBits, Memory.readBit_writeBit, ih (by omega)]
    by_cases hx : x = a + BitVec.ofNat 32 n
    · have := (eq_add_ofNat_iff a x (by omega)).1 hx
      rw [if_pos hx, if_pos (by omega), this]
    · have h' : (x - a).toNat ≠ n := fun h => hx ((eq_add_ofNat_iff a x (by omega)).2 h)
      rw [if_neg hx]
      by_cases hlt : (x - a).toNat < n
      · rw [if_pos hlt, if_pos (by omega)]
      · rw [if_neg hlt, if_neg (by omega)]

/-- `MemRead` by bits (R52). -/
@[simp] theorem Memory.getLsbD_readBits (m : Memory) (a : Word) (n i : Nat) :
    (m.readBits a n).getLsbD i = (decide (i < n) && m.readBit (a + BitVec.ofNat 32 i)) := by
  induction n with
  | zero => simp [Memory.readBits]
  | succ n ih =>
    rw [Memory.readBits, BitVec.getLsbD_cons, ih]
    by_cases h : i = n
    · subst h; simp
    · rw [if_neg h]
      by_cases h2 : i < n
      · simp [h2, Nat.lt_succ_of_lt h2]
      · have : ¬ i < n + 1 := by omega
        simp [h2, this]

/-- Two memories that read alike over a value's bits give the same value. -/
theorem Memory.readBits_congr {m m' : Memory} {a : Word} {n : Nat}
    (h : ∀ i < n, m.readBit (a + BitVec.ofNat 32 i) = m'.readBit (a + BitVec.ofNat 32 i)) :
    m.readBits a n = m'.readBits a n := by
  apply BitVec.eq_of_getLsbD_eq
  intro i hi
  rw [Memory.getLsbD_readBits, Memory.getLsbD_readBits, h i hi]

/-! ### Values written around one bit -/

/-- A bit read after a write that leaves one bit alone. -/
theorem Memory.readBit_writeBitsBut (m : Memory) (keep a x : Word) (v : Word) {n : Nat} (hn : n ≤ 2 ^ 32) :
    (m.writeBitsBut keep a n v).readBit x =
      if x ≠ keep ∧ (x - a).toNat < n then v.getLsbD (x - a).toNat else m.readBit x := by
  induction n with
  | zero => simp [Memory.writeBitsBut]
  | succ n ih =>
    have e := eq_add_ofNat_iff a x (n := n) (by omega)
    rw [Memory.writeBitsBut]
    by_cases hk : a + BitVec.ofNat 32 n = keep
    · rw [if_pos hk, ih (by omega)]
      by_cases hx : x = keep
      · simp [hx]
      · have : (x - a).toNat ≠ n := fun h => hx (((e.2 h).trans hk))
        simp only [hx, ne_eq, not_false_eq_true, true_and]
        by_cases hlt : (x - a).toNat < n
        · rw [if_pos hlt, if_pos (by omega)]
        · rw [if_neg hlt, if_neg (by omega)]
    · rw [if_neg hk, Memory.readBit_writeBit, ih (by omega)]
      by_cases hx : x = a + BitVec.ofNat 32 n
      · have h := e.1 hx
        rw [if_pos hx, if_pos ⟨hx ▸ hk, by omega⟩, h]
      · have : (x - a).toNat ≠ n := fun h => hx (e.2 h)
        rw [if_neg hx]
        by_cases hlt : (x - a).toNat < n
        · have h' : (x - a).toNat < n + 1 := by omega
          simp only [hlt, h', and_true]
        · have h' : ¬ (x - a).toNat < n + 1 := by omega
          simp only [hlt, h', and_false]

/-- A write changes no bit that it does not cover, of whatever length it is. -/
theorem Memory.readBit_writeBitsBut_of_not_covers (m : Memory) {keep a x : Word} (v : Word) {n : Nat}
    (h : covers a n x = false) : (m.writeBitsBut keep a n v).readBit x = m.readBit x := by
  have h' : ¬ (x - a).toNat < n := by simpa [covers] using h
  have hx := (x - a).isLt
  rw [Memory.readBit_writeBitsBut _ _ _ _ _ (by omega), if_neg (fun e => h' e.2)]

/-- The bit left alone is as before. -/
theorem Memory.readBit_writeBitsBut_self (m : Memory) (keep a v : Word) (n : Nat) :
    (m.writeBitsBut keep a n v).readBit keep = m.readBit keep := by
  induction n with
  | zero => rfl
  | succ n ih =>
    rw [Memory.writeBitsBut]
    split_ifs with h
    · exact ih
    · rw [Memory.readBit_writeBit, if_neg (fun e => h e.symm), ih]

theorem Memory.wf_writeBitsBut {m : Memory} (h : m.wf) (keep a : Word) (n : Nat) (v : Word) :
    (m.writeBitsBut keep a n v).wf := by
  induction n with
  | zero => exact h
  | succ n ih =>
    rw [Memory.writeBitsBut]
    split_ifs
    · exact ih
    · exact Memory.wf_writeBit ih _ _

/-- `MemRead`, zero extended, by bits. -/
@[simp] theorem Memory.getLsbD_readZext (m : Memory) (a : Word) (n i : Nat) :
    (m.readZext a n).getLsbD i = (decide (i < n) && decide (i < 32) && m.readBit (a + BitVec.ofNat 32 i)) := by
  simp only [Memory.readZext, BitVec.getLsbD_setWidth, Memory.getLsbD_readBits]
  cases decide (i < n) <;> cases decide (i < 32) <;> rfl

/-! ### The words an access touches (R55) -/

/-- The bits of an access are those of its pieces. -/
theorem exists_wordPieces_iff (a : Word) (n k : Nat) :
    (∃ p ∈ wordPieces a n, p.1 ≤ k ∧ k < p.1 + p.2) ↔ k < n := by
  unfold wordPieces
  simp only [List.mem_filter, List.mem_cons, List.not_mem_nil, or_false, bne_iff_ne]
  have hf : min n (16 - a.toNat % 16) ≤ n := by omega
  generalize min n (16 - a.toNat % 16) = f at *
  have hg : min (n - f) 16 ≤ n - f := by omega
  generalize min (n - f) 16 = g at *
  constructor
  · rintro ⟨p, ⟨rfl | rfl | rfl, -⟩, h1, h2⟩ <;> simp only at h1 h2 <;> omega
  · intro h
    by_cases h1 : k < f
    · exact ⟨_, ⟨.inl rfl, by simp only; omega⟩, by simp, by simpa using h1⟩
    · by_cases h2 : k < f + g
      · exact ⟨_, ⟨.inr (.inl rfl), by simp only; omega⟩, by simp only; omega, by simp only; omega⟩
      · exact ⟨_, ⟨.inr (.inr rfl), by simp only; omega⟩, by simp only; omega, by simp only; omega⟩

/-- Every piece lies within the access. -/
theorem le_of_mem_wordPieces {a : Word} {n : Nat} {p : Nat × Nat} (h : p ∈ wordPieces a n) : p.1 + p.2 ≤ n := by
  unfold wordPieces at h
  simp only [List.mem_filter, List.mem_cons, List.not_mem_nil, or_false] at h
  obtain ⟨rfl | rfl | rfl, -⟩ := h <;> simp only <;> omega

/-- The offset of a bit of a piece, from the start of the piece. -/
theorem sub_piece (a x : Word) {o : Nat} (ho : o < 2 ^ 32) :
    (x - (a + BitVec.ofNat 32 o)).toNat = if o ≤ (x - a).toNat then (x - a).toNat - o else (x - a).toNat + 2 ^ 32 - o := by
  have e : x - (a + BitVec.ofNat 32 o) = (x - a) - BitVec.ofNat 32 o := by ring
  have hx := (x - a).isLt
  rw [e, BitVec.toNat_sub, BitVec.toNat_ofNat, Nat.mod_eq_of_lt ho]
  split_ifs <;> omega

/-- A piece covers the bits of the access that it holds. -/
theorem covers_piece_iff (a x : Word) {o l : Nat} (h : o + l ≤ 2 ^ 32) :
    covers (a + BitVec.ofNat 32 o) l x = true ↔ o ≤ (x - a).toNat ∧ (x - a).toNat < o + l := by
  have hx := (x - a).isLt
  rw [covers_iff]
  by_cases hl : l = 0
  · omega
  · rw [sub_piece _ _ (by omega)]
    split_ifs <;> omega

end Sys2Proof.Machine
end

