-- ==== Sys2Proof/Laws/State.lean ====
section
/-! SUPPORT. One lemma per field per update of the state, so that no proof unfolds a record update; and what the operations
that reach memory leave alone, said once. -/

namespace Sys2Proof.Machine

/-! ### `withFreeFlags`: flags made free -/

@[simp] theorem State.a_withFreeFlags (s : State) : s.withFreeFlags.a = s.a := rfl
@[simp] theorem State.b_withFreeFlags (s : State) : s.withFreeFlags.b = s.b := rfl
@[simp] theorem State.sp_withFreeFlags (s : State) : s.withFreeFlags.sp = s.sp := rfl
@[simp] theorem State.pc_withFreeFlags (s : State) : s.withFreeFlags.pc = s.pc := rfl
@[simp] theorem State.st_withFreeFlags (s : State) :
    s.withFreeFlags.st = setFlags s.st (Config.freeFlags s.freeCount) := rfl
@[simp] theorem State.cache_withFreeFlags (s : State) : s.withFreeFlags.cache = s.cache := rfl
@[simp] theorem State.mem_withFreeFlags (s : State) : s.withFreeFlags.mem = s.mem := rfl
@[simp] theorem State.posted_withFreeFlags (s : State) : s.withFreeFlags.posted = s.posted := rfl
@[simp] theorem State.io_withFreeFlags (s : State) : s.withFreeFlags.io = s.io := rfl
@[simp] theorem State.pending_withFreeFlags (s : State) : s.withFreeFlags.pending = s.pending := rfl
@[simp] theorem State.resuming_withFreeFlags (s : State) : s.withFreeFlags.resuming = s.resuming := rfl
@[simp] theorem State.suspended_withFreeFlags (s : State) : s.withFreeFlags.suspended = s.suspended := rfl
@[simp] theorem State.params_withFreeFlags (s : State) : s.withFreeFlags.params = s.params := rfl
@[simp] theorem State.freeCount_withFreeFlags (s : State) : s.withFreeFlags.freeCount = s.freeCount := rfl
@[simp] theorem State.inputs_withFreeFlags (s : State) : s.withFreeFlags.inputs = s.inputs := rfl
@[simp] theorem State.inside_withFreeFlags (s : State) : s.withFreeFlags.inside = s.inside := rfl
@[simp] theorem State.rewritten_withFreeFlags (s : State) : s.withFreeFlags.rewritten = s.rewritten := rfl

/-! ### `loadPc`: PC loaded -/

@[simp] theorem State.a_loadPc (s : State) (v : Word) : (s.loadPc v).a = s.a := rfl
@[simp] theorem State.b_loadPc (s : State) (v : Word) : (s.loadPc v).b = s.b := rfl
@[simp] theorem State.sp_loadPc (s : State) (v : Word) : (s.loadPc v).sp = s.sp := rfl
@[simp] theorem State.pc_loadPc (s : State) (v : Word) : (s.loadPc v).pc = alignPc v := rfl
@[simp] theorem State.st_loadPc (s : State) (v : Word) : (s.loadPc v).st = s.st := rfl
@[simp] theorem State.cache_loadPc (s : State) (v : Word) : (s.loadPc v).cache = s.cache := rfl
@[simp] theorem State.mem_loadPc (s : State) (v : Word) : (s.loadPc v).mem = s.mem := rfl
@[simp] theorem State.posted_loadPc (s : State) (v : Word) : (s.loadPc v).posted = s.posted := rfl
@[simp] theorem State.io_loadPc (s : State) (v : Word) : (s.loadPc v).io = s.io := rfl
@[simp] theorem State.pending_loadPc (s : State) (v : Word) : (s.loadPc v).pending = s.pending := rfl
@[simp] theorem State.resuming_loadPc (s : State) (v : Word) : (s.loadPc v).resuming = s.resuming := rfl
@[simp] theorem State.suspended_loadPc (s : State) (v : Word) : (s.loadPc v).suspended = s.suspended := rfl
@[simp] theorem State.params_loadPc (s : State) (v : Word) : (s.loadPc v).params = s.params := rfl
@[simp] theorem State.freeCount_loadPc (s : State) (v : Word) : (s.loadPc v).freeCount = s.freeCount := rfl
@[simp] theorem State.inputs_loadPc (s : State) (v : Word) : (s.loadPc v).inputs = s.inputs := rfl
@[simp] theorem State.inside_loadPc (s : State) (v : Word) : (s.loadPc v).inside = s.inside := rfl
@[simp] theorem State.rewritten_loadPc (s : State) (v : Word) : (s.loadPc v).rewritten = s.rewritten := rfl

/-! ### `restore`: PC and ST restored -/

@[simp] theorem State.a_restore (s : State) (v w : Word) : (s.restore v w).a = s.a := rfl
@[simp] theorem State.b_restore (s : State) (v w : Word) : (s.restore v w).b = s.b := rfl
@[simp] theorem State.sp_restore (s : State) (v w : Word) : (s.restore v w).sp = s.sp := rfl
@[simp] theorem State.pc_restore (s : State) (v w : Word) : (s.restore v w).pc = alignPc v := rfl
@[simp] theorem State.st_restore (s : State) (v w : Word) : (s.restore v w).st = w := rfl
@[simp] theorem State.cache_restore (s : State) (v w : Word) : (s.restore v w).cache = s.cache := rfl
@[simp] theorem State.mem_restore (s : State) (v w : Word) : (s.restore v w).mem = s.mem := rfl
@[simp] theorem State.posted_restore (s : State) (v w : Word) : (s.restore v w).posted = s.posted := rfl
@[simp] theorem State.io_restore (s : State) (v w : Word) : (s.restore v w).io = s.io := rfl
@[simp] theorem State.pending_restore (s : State) (v w : Word) : (s.restore v w).pending = s.pending := rfl
@[simp] theorem State.resuming_restore (s : State) (v w : Word) : (s.restore v w).resuming = stPBX w := rfl
@[simp] theorem State.suspended_restore (s : State) (v w : Word) : (s.restore v w).suspended = s.suspended := rfl
@[simp] theorem State.params_restore (s : State) (v w : Word) : (s.restore v w).params = s.params := rfl
@[simp] theorem State.freeCount_restore (s : State) (v w : Word) : (s.restore v w).freeCount = s.freeCount := rfl
@[simp] theorem State.inputs_restore (s : State) (v w : Word) : (s.restore v w).inputs = s.inputs := rfl
@[simp] theorem State.inside_restore (s : State) (v w : Word) : (s.restore v w).inside = s.inside := rfl
@[simp] theorem State.rewritten_restore (s : State) (v w : Word) : (s.restore v w).rewritten = s.rewritten := rfl

/-! ### `tick`: free values drawn -/

@[simp] theorem State.a_tick (s : State) : s.tick.a = s.a := rfl
@[simp] theorem State.b_tick (s : State) : s.tick.b = s.b := rfl
@[simp] theorem State.sp_tick (s : State) : s.tick.sp = s.sp := rfl
@[simp] theorem State.pc_tick (s : State) : s.tick.pc = s.pc := rfl
@[simp] theorem State.st_tick (s : State) : s.tick.st = s.st := rfl
@[simp] theorem State.cache_tick (s : State) : s.tick.cache = s.cache := rfl
@[simp] theorem State.mem_tick (s : State) : s.tick.mem = s.mem := rfl
@[simp] theorem State.posted_tick (s : State) : s.tick.posted = s.posted := rfl
@[simp] theorem State.io_tick (s : State) : s.tick.io = s.io := rfl
@[simp] theorem State.pending_tick (s : State) : s.tick.pending = s.pending := rfl
@[simp] theorem State.resuming_tick (s : State) : s.tick.resuming = s.resuming := rfl
@[simp] theorem State.suspended_tick (s : State) : s.tick.suspended = s.suspended := rfl
@[simp] theorem State.params_tick (s : State) : s.tick.params = s.params := rfl
@[simp] theorem State.freeCount_tick (s : State) : s.tick.freeCount = s.freeCount + 1 := rfl
@[simp] theorem State.inputs_tick (s : State) : s.tick.inputs = s.inputs := rfl
@[simp] theorem State.inside_tick (s : State) : s.tick.inside = s.inside := rfl
@[simp] theorem State.rewritten_tick (s : State) : s.tick.rewritten = s.rewritten := rfl

/-! ### `request`: a request noted -/

@[simp] theorem State.a_request (s : State) (irq : Irq) : (s.request irq).a = s.a := rfl
@[simp] theorem State.b_request (s : State) (irq : Irq) : (s.request irq).b = s.b := rfl
@[simp] theorem State.sp_request (s : State) (irq : Irq) : (s.request irq).sp = s.sp := rfl
@[simp] theorem State.pc_request (s : State) (irq : Irq) : (s.request irq).pc = s.pc := rfl
@[simp] theorem State.st_request (s : State) (irq : Irq) : (s.request irq).st = s.st := rfl
@[simp] theorem State.cache_request (s : State) (irq : Irq) : (s.request irq).cache = s.cache := rfl
@[simp] theorem State.mem_request (s : State) (irq : Irq) : (s.request irq).mem = s.mem := rfl
@[simp] theorem State.posted_request (s : State) (irq : Irq) : (s.request irq).posted = s.posted := rfl
@[simp] theorem State.io_request (s : State) (irq : Irq) : (s.request irq).io = s.io := rfl
@[simp] theorem State.pending_request (s : State) (irq : Irq) : (s.request irq).pending = s.pending ++ [irq] := rfl
@[simp] theorem State.resuming_request (s : State) (irq : Irq) : (s.request irq).resuming = s.resuming := rfl
@[simp] theorem State.suspended_request (s : State) (irq : Irq) : (s.request irq).suspended = s.suspended := rfl
@[simp] theorem State.params_request (s : State) (irq : Irq) : (s.request irq).params = s.params := rfl
@[simp] theorem State.freeCount_request (s : State) (irq : Irq) : (s.request irq).freeCount = s.freeCount := rfl
@[simp] theorem State.inputs_request (s : State) (irq : Irq) : (s.request irq).inputs = s.inputs := rfl
@[simp] theorem State.inside_request (s : State) (irq : Irq) : (s.request irq).inside = s.inside := rfl
@[simp] theorem State.rewritten_request (s : State) (irq : Irq) : (s.request irq).rewritten = s.rewritten := rfl

/-! ### `received`: the write in flight arrived -/

@[simp] theorem State.a_received (s : State) : s.received.a = s.a := rfl
@[simp] theorem State.b_received (s : State) : s.received.b = s.b := rfl
@[simp] theorem State.sp_received (s : State) : s.received.sp = s.sp := rfl
@[simp] theorem State.pc_received (s : State) : s.received.pc = s.pc := rfl
@[simp] theorem State.st_received (s : State) : s.received.st = s.st := rfl
@[simp] theorem State.cache_received (s : State) : s.received.cache = s.cache := rfl
@[simp] theorem State.mem_received (s : State) : s.received.mem = s.mem := rfl
@[simp] theorem State.posted_received (s : State) : s.received.posted = none := rfl
@[simp] theorem State.io_received (s : State) : s.received.io = s.io := rfl
@[simp] theorem State.pending_received (s : State) : s.received.pending = s.pending := rfl
@[simp] theorem State.resuming_received (s : State) : s.received.resuming = s.resuming := rfl
@[simp] theorem State.suspended_received (s : State) : s.received.suspended = s.suspended := rfl
@[simp] theorem State.params_received (s : State) : s.received.params = s.params := rfl
@[simp] theorem State.freeCount_received (s : State) : s.received.freeCount = s.freeCount := rfl
@[simp] theorem State.inputs_received (s : State) : s.received.inputs = s.inputs := rfl
@[simp] theorem State.inside_received (s : State) : s.received.inside = s.inside := rfl
@[simp] theorem State.rewritten_received (s : State) : s.received.rewritten = s.rewritten := rfl

/-! ### `forInstr`: an instruction fetched -/

/-- Which instructions are PIXBLTs and FILLs does not depend on the state. -/
theorem isSome_blitPlanOf (i : Instr) (s t : State) : (blitPlanOf i s).isSome = (blitPlanOf i t).isSome := by
  cases i <;> rfl

@[simp] theorem State.a_forInstr (s : State) (i : Instr) : (s.forInstr i).a = s.a := rfl
@[simp] theorem State.b_forInstr (s : State) (i : Instr) : (s.forInstr i).b = s.b := rfl
@[simp] theorem State.sp_forInstr (s : State) (i : Instr) : (s.forInstr i).sp = s.sp := rfl
@[simp] theorem State.pc_forInstr (s : State) (i : Instr) : (s.forInstr i).pc = s.pc := rfl
@[simp] theorem State.st_forInstr (s : State) (i : Instr) : (s.forInstr i).st = s.st := rfl
@[simp] theorem State.cache_forInstr (s : State) (i : Instr) : (s.forInstr i).cache = s.cache := rfl
@[simp] theorem State.mem_forInstr (s : State) (i : Instr) : (s.forInstr i).mem = s.mem := rfl
@[simp] theorem State.posted_forInstr (s : State) (i : Instr) : (s.forInstr i).posted = s.posted := rfl
@[simp] theorem State.io_forInstr (s : State) (i : Instr) : (s.forInstr i).io = s.io := rfl
@[simp] theorem State.pending_forInstr (s : State) (i : Instr) : (s.forInstr i).pending = s.pending := rfl
@[simp] theorem State.resuming_forInstr (s : State) (i : Instr) :
    (s.forInstr i).resuming = (s.resuming && (blitPlanOf i s).isSome) := rfl
@[simp] theorem State.suspended_forInstr (s : State) (i : Instr) : (s.forInstr i).suspended = s.suspended := rfl
@[simp] theorem State.params_forInstr (s : State) (i : Instr) : (s.forInstr i).params = s.params := rfl
@[simp] theorem State.freeCount_forInstr (s : State) (i : Instr) : (s.forInstr i).freeCount = s.freeCount := rfl
@[simp] theorem State.inputs_forInstr (s : State) (i : Instr) : (s.forInstr i).inputs = s.inputs := rfl
@[simp] theorem State.inside_forInstr (s : State) (i : Instr) : (s.forInstr i).inside = s.inside := rfl
@[simp] theorem State.rewritten_forInstr (s : State) (i : Instr) : (s.forInstr i).rewritten = s.rewritten := rfl

/-! ### `afterStore`: a write of one word -/

@[simp] theorem State.a_afterStore (s : State) (x : Word) (n : Nat) (m : Memory) : (s.afterStore x n m).a = s.a := rfl
@[simp] theorem State.b_afterStore (s : State) (x : Word) (n : Nat) (m : Memory) : (s.afterStore x n m).b = s.b := rfl
@[simp] theorem State.sp_afterStore (s : State) (x : Word) (n : Nat) (m : Memory) :
    (s.afterStore x n m).sp = s.sp := rfl
@[simp] theorem State.pc_afterStore (s : State) (x : Word) (n : Nat) (m : Memory) :
    (s.afterStore x n m).pc = s.pc := rfl
@[simp] theorem State.st_afterStore (s : State) (x : Word) (n : Nat) (m : Memory) :
    (s.afterStore x n m).st = s.st := rfl
@[simp] theorem State.cache_afterStore (s : State) (x : Word) (n : Nat) (m : Memory) :
    (s.afterStore x n m).cache = if covers x n s.cfAddr && m.readBit s.cfAddr then s.cache.flush else s.cache := rfl
@[simp] theorem State.mem_afterStore (s : State) (x : Word) (n : Nat) (m : Memory) :
    (s.afterStore x n m).mem = m := rfl
@[simp] theorem State.posted_afterStore (s : State) (x : Word) (n : Nat) (m : Memory) :
    (s.afterStore x n m).posted = s.posted := rfl
@[simp] theorem State.io_afterStore (s : State) (x : Word) (n : Nat) (m : Memory) :
    (s.afterStore x n m).io = s.io := rfl
@[simp] theorem State.pending_afterStore (s : State) (x : Word) (n : Nat) (m : Memory) :
    (s.afterStore x n m).pending = s.pending := rfl
@[simp] theorem State.resuming_afterStore (s : State) (x : Word) (n : Nat) (m : Memory) :
    (s.afterStore x n m).resuming = s.resuming := rfl
@[simp] theorem State.suspended_afterStore (s : State) (x : Word) (n : Nat) (m : Memory) :
    (s.afterStore x n m).suspended = s.suspended := rfl
@[simp] theorem State.params_afterStore (s : State) (x : Word) (n : Nat) (m : Memory) :
    (s.afterStore x n m).params = s.params := rfl
@[simp] theorem State.freeCount_afterStore (s : State) (x : Word) (n : Nat) (m : Memory) :
    (s.afterStore x n m).freeCount = s.freeCount := rfl
@[simp] theorem State.inputs_afterStore (s : State) (x : Word) (n : Nat) (m : Memory) :
    (s.afterStore x n m).inputs = s.inputs := rfl
@[simp] theorem State.inside_afterStore (s : State) (x : Word) (n : Nat) (m : Memory) :
    (s.afterStore x n m).inside = s.inside := rfl
@[simp] theorem State.rewritten_afterStore (s : State) (x : Word) (n : Nat) (m : Memory) :
    (s.afterStore x n m).rewritten = s.nowRewritten x := rfl

/-! ### Operations that reach memory -/

/-- Nothing is changed but memory, the write in flight, the cache, and the model's own record of the host's writes. -/
structure State.OnlyMemory (s t : State) : Prop where
  a : t.a = s.a
  b : t.b = s.b
  sp : t.sp = s.sp
  pc : t.pc = s.pc
  st : t.st = s.st
  io : t.io = s.io
  pending : t.pending = s.pending
  resuming : t.resuming = s.resuming
  suspended : t.suspended = s.suspended
  params : t.params = s.params
  freeCount : t.freeCount = s.freeCount
  inputs : t.inputs = s.inputs

theorem State.OnlyMemory.refl (s : State) : s.OnlyMemory s := ⟨rfl, rfl, rfl, rfl, rfl, rfl, rfl, rfl, rfl, rfl, rfl, rfl⟩

theorem State.OnlyMemory.trans {s t u : State} (h : s.OnlyMemory t) (h' : t.OnlyMemory u) : s.OnlyMemory u :=
  ⟨h'.a.trans h.a, h'.b.trans h.b, h'.sp.trans h.sp, h'.pc.trans h.pc, h'.st.trans h.st, h'.io.trans h.io,
    h'.pending.trans h.pending, h'.resuming.trans h.resuming, h'.suspended.trans h.suspended,
    h'.params.trans h.params, h'.freeCount.trans h.freeCount, h'.inputs.trans h.inputs⟩

/-- The state after is the state before with those fields replaced. -/
theorem State.OnlyMemory.eq {s t : State} (h : s.OnlyMemory t) :
    t = { s with mem := t.mem, posted := t.posted, cache := t.cache, inside := t.inside, rewritten := t.rewritten } := by
  cases s; cases t
  obtain ⟨h0, h1, h2, h3, h4, h5, h6, h7, h8, h9, h10, h11⟩ := h
  simp only at h0 h1 h2 h3 h4 h5 h6 h7 h8 h9 h10 h11
  subst h0 h1 h2 h3 h4 h5 h6 h7 h8 h9 h10 h11
  rfl

theorem State.onlyMemory_afterStore (s : State) (x : Word) (n : Nat) (m : Memory) : s.OnlyMemory (s.afterStore x n m) :=
  ⟨rfl, rfl, rfl, rfl, rfl, rfl, rfl, rfl, rfl, rfl, rfl, rfl⟩

theorem State.onlyMemory_hostStore (s : State) (x : Word) (v : Word16) : s.OnlyMemory (s.hostStore x v) :=
  ⟨rfl, rfl, rfl, rfl, rfl, rfl, rfl, rfl, rfl, rfl, rfl, rfl⟩

theorem State.onlyMemory_arrive (s : State) (x : Word) (n : Nat) (v : Word) : s.OnlyMemory (s.arrive x n v) :=
  ⟨rfl, rfl, rfl, rfl, rfl, rfl, rfl, rfl, rfl, rfl, rfl, rfl⟩

theorem State.onlyMemory_writeWord (s : State) (x : Word) (n : Nat) (v : Word) : s.OnlyMemory (s.writeWord x n v) :=
  ⟨rfl, rfl, rfl, rfl, rfl, rfl, rfl, rfl, rfl, rfl, rfl, rfl⟩

theorem State.onlyMemory_hostStoreFirst (s : State) (x : Word) (v : Word16) : s.OnlyMemory (s.hostStoreFirst x v) := by
  unfold State.hostStoreFirst
  cases s.posted <;> exact ⟨rfl, rfl, rfl, rfl, rfl, rfl, rfl, rfl, rfl, rfl, rfl, rfl⟩

theorem State.onlyMemory_hostTurn (l : List (Option HostWrite)) (s : State) : s.OnlyMemory (State.hostTurn l s) := by
  induction l generalizing s with
  | nil => exact ⟨rfl, rfl, rfl, rfl, rfl, rfl, rfl, rfl, rfl, rfl, rfl, rfl⟩
  | cons w l ih =>
    cases w with
    | none => exact ⟨rfl, rfl, rfl, rfl, rfl, rfl, rfl, rfl, rfl, rfl, rfl, rfl⟩
    | some w => exact (s.onlyMemory_hostStore w.addr w.value).trans (ih _)

theorem State.onlyMemory_hostRest (l : List (Option HostWrite)) (s : State) : s.OnlyMemory (State.hostRest l s) := by
  induction l generalizing s with
  | nil => exact ⟨rfl, rfl, rfl, rfl, rfl, rfl, rfl, rfl, rfl, rfl, rfl, rfl⟩
  | cons w l ih =>
    cases w with
    | none => exact ih s
    | some w => exact (s.onlyMemory_hostStore w.addr w.value).trans (ih _)

theorem State.onlyMemory_cycle (s : State) : s.OnlyMemory s.cycle := State.onlyMemory_hostTurn _ _

/-- A fold of operations each of which reaches memory alone. -/
theorem State.onlyMemory_foldl {α : Type} {f : State → α → State} (hf : ∀ (s : State) (x : α), s.OnlyMemory (f s x)) (l : List α)
    (s : State) : s.OnlyMemory (l.foldl f s) := by
  induction l generalizing s with
  | nil => exact .refl s
  | cons x l ih => exact (hf s x).trans (ih _)

theorem State.onlyMemory_store (s : State) (x : Word) (n : Nat) (v : Word) : s.OnlyMemory (s.store x n v) :=
  State.onlyMemory_foldl (fun t _ => t.onlyMemory_cycle.trans (State.onlyMemory_writeWord _ _ _ _)) _ _

theorem State.onlyMemory_load (s : State) (x : Word) (n : Nat) : s.OnlyMemory (s.load x n).2 := by
  unfold State.load
  generalize wordPieces x n = l
  generalize 0#32 = v
  induction l generalizing s v with
  | nil => exact .refl s
  | cons p l ih => exact s.onlyMemory_cycle.trans (ih _ _)


/-! ### `hostStore`: a write by the host -/

@[simp] theorem State.a_hostStore (s : State) (x : Word) (v : Word16) :
    (s.hostStore x v).a = s.a := (s.onlyMemory_hostStore x v).a
@[simp] theorem State.b_hostStore (s : State) (x : Word) (v : Word16) :
    (s.hostStore x v).b = s.b := (s.onlyMemory_hostStore x v).b
@[simp] theorem State.sp_hostStore (s : State) (x : Word) (v : Word16) :
    (s.hostStore x v).sp = s.sp := (s.onlyMemory_hostStore x v).sp
@[simp] theorem State.pc_hostStore (s : State) (x : Word) (v : Word16) :
    (s.hostStore x v).pc = s.pc := (s.onlyMemory_hostStore x v).pc
@[simp] theorem State.st_hostStore (s : State) (x : Word) (v : Word16) :
    (s.hostStore x v).st = s.st := (s.onlyMemory_hostStore x v).st
@[simp] theorem State.io_hostStore (s : State) (x : Word) (v : Word16) :
    (s.hostStore x v).io = s.io := (s.onlyMemory_hostStore x v).io
@[simp] theorem State.pending_hostStore (s : State) (x : Word) (v : Word16) :
    (s.hostStore x v).pending = s.pending := (s.onlyMemory_hostStore x v).pending
@[simp] theorem State.resuming_hostStore (s : State) (x : Word) (v : Word16) :
    (s.hostStore x v).resuming = s.resuming := (s.onlyMemory_hostStore x v).resuming
@[simp] theorem State.suspended_hostStore (s : State) (x : Word) (v : Word16) :
    (s.hostStore x v).suspended = s.suspended := (s.onlyMemory_hostStore x v).suspended
@[simp] theorem State.params_hostStore (s : State) (x : Word) (v : Word16) :
    (s.hostStore x v).params = s.params := (s.onlyMemory_hostStore x v).params
@[simp] theorem State.freeCount_hostStore (s : State) (x : Word) (v : Word16) :
    (s.hostStore x v).freeCount = s.freeCount := (s.onlyMemory_hostStore x v).freeCount
@[simp] theorem State.inputs_hostStore (s : State) (x : Word) (v : Word16) :
    (s.hostStore x v).inputs = s.inputs := (s.onlyMemory_hostStore x v).inputs

/-! ### `hostStoreFirst`: a write by the host before the write in flight -/

@[simp] theorem State.a_hostStoreFirst (s : State) (x : Word) (v : Word16) :
    (s.hostStoreFirst x v).a = s.a := (s.onlyMemory_hostStoreFirst x v).a
@[simp] theorem State.b_hostStoreFirst (s : State) (x : Word) (v : Word16) :
    (s.hostStoreFirst x v).b = s.b := (s.onlyMemory_hostStoreFirst x v).b
@[simp] theorem State.sp_hostStoreFirst (s : State) (x : Word) (v : Word16) :
    (s.hostStoreFirst x v).sp = s.sp := (s.onlyMemory_hostStoreFirst x v).sp
@[simp] theorem State.pc_hostStoreFirst (s : State) (x : Word) (v : Word16) :
    (s.hostStoreFirst x v).pc = s.pc := (s.onlyMemory_hostStoreFirst x v).pc
@[simp] theorem State.st_hostStoreFirst (s : State) (x : Word) (v : Word16) :
    (s.hostStoreFirst x v).st = s.st := (s.onlyMemory_hostStoreFirst x v).st
@[simp] theorem State.io_hostStoreFirst (s : State) (x : Word) (v : Word16) :
    (s.hostStoreFirst x v).io = s.io := (s.onlyMemory_hostStoreFirst x v).io
@[simp] theorem State.pending_hostStoreFirst (s : State) (x : Word) (v : Word16) :
    (s.hostStoreFirst x v).pending = s.pending := (s.onlyMemory_hostStoreFirst x v).pending
@[simp] theorem State.resuming_hostStoreFirst (s : State) (x : Word) (v : Word16) :
    (s.hostStoreFirst x v).resuming = s.resuming := (s.onlyMemory_hostStoreFirst x v).resuming
@[simp] theorem State.suspended_hostStoreFirst (s : State) (x : Word) (v : Word16) :
    (s.hostStoreFirst x v).suspended = s.suspended := (s.onlyMemory_hostStoreFirst x v).suspended
@[simp] theorem State.params_hostStoreFirst (s : State) (x : Word) (v : Word16) :
    (s.hostStoreFirst x v).params = s.params := (s.onlyMemory_hostStoreFirst x v).params
@[simp] theorem State.freeCount_hostStoreFirst (s : State) (x : Word) (v : Word16) :
    (s.hostStoreFirst x v).freeCount = s.freeCount := (s.onlyMemory_hostStoreFirst x v).freeCount
@[simp] theorem State.inputs_hostStoreFirst (s : State) (x : Word) (v : Word16) :
    (s.hostStoreFirst x v).inputs = s.inputs := (s.onlyMemory_hostStoreFirst x v).inputs

/-! ### `hostRest`: what the host still writes -/

@[simp] theorem State.a_hostRest (s : State) (l : List (Option HostWrite)) :
    (State.hostRest l s).a = s.a := (State.onlyMemory_hostRest l s).a
@[simp] theorem State.b_hostRest (s : State) (l : List (Option HostWrite)) :
    (State.hostRest l s).b = s.b := (State.onlyMemory_hostRest l s).b
@[simp] theorem State.sp_hostRest (s : State) (l : List (Option HostWrite)) :
    (State.hostRest l s).sp = s.sp := (State.onlyMemory_hostRest l s).sp
@[simp] theorem State.pc_hostRest (s : State) (l : List (Option HostWrite)) :
    (State.hostRest l s).pc = s.pc := (State.onlyMemory_hostRest l s).pc
@[simp] theorem State.st_hostRest (s : State) (l : List (Option HostWrite)) :
    (State.hostRest l s).st = s.st := (State.onlyMemory_hostRest l s).st
@[simp] theorem State.io_hostRest (s : State) (l : List (Option HostWrite)) :
    (State.hostRest l s).io = s.io := (State.onlyMemory_hostRest l s).io
@[simp] theorem State.pending_hostRest (s : State) (l : List (Option HostWrite)) :
    (State.hostRest l s).pending = s.pending := (State.onlyMemory_hostRest l s).pending
@[simp] theorem State.resuming_hostRest (s : State) (l : List (Option HostWrite)) :
    (State.hostRest l s).resuming = s.resuming := (State.onlyMemory_hostRest l s).resuming
@[simp] theorem State.suspended_hostRest (s : State) (l : List (Option HostWrite)) :
    (State.hostRest l s).suspended = s.suspended := (State.onlyMemory_hostRest l s).suspended
@[simp] theorem State.params_hostRest (s : State) (l : List (Option HostWrite)) :
    (State.hostRest l s).params = s.params := (State.onlyMemory_hostRest l s).params
@[simp] theorem State.freeCount_hostRest (s : State) (l : List (Option HostWrite)) :
    (State.hostRest l s).freeCount = s.freeCount := (State.onlyMemory_hostRest l s).freeCount
@[simp] theorem State.inputs_hostRest (s : State) (l : List (Option HostWrite)) :
    (State.hostRest l s).inputs = s.inputs := (State.onlyMemory_hostRest l s).inputs

/-! ### `cycle`: the turn for a memory cycle -/

@[simp] theorem State.a_cycle (s : State) : s.cycle.a = s.a := (s.onlyMemory_cycle).a
@[simp] theorem State.b_cycle (s : State) : s.cycle.b = s.b := (s.onlyMemory_cycle).b
@[simp] theorem State.sp_cycle (s : State) : s.cycle.sp = s.sp := (s.onlyMemory_cycle).sp
@[simp] theorem State.pc_cycle (s : State) : s.cycle.pc = s.pc := (s.onlyMemory_cycle).pc
@[simp] theorem State.st_cycle (s : State) : s.cycle.st = s.st := (s.onlyMemory_cycle).st
@[simp] theorem State.io_cycle (s : State) : s.cycle.io = s.io := (s.onlyMemory_cycle).io
@[simp] theorem State.pending_cycle (s : State) : s.cycle.pending = s.pending := (s.onlyMemory_cycle).pending
@[simp] theorem State.resuming_cycle (s : State) : s.cycle.resuming = s.resuming := (s.onlyMemory_cycle).resuming
@[simp] theorem State.suspended_cycle (s : State) : s.cycle.suspended = s.suspended := (s.onlyMemory_cycle).suspended
@[simp] theorem State.params_cycle (s : State) : s.cycle.params = s.params := (s.onlyMemory_cycle).params
@[simp] theorem State.freeCount_cycle (s : State) : s.cycle.freeCount = s.freeCount := (s.onlyMemory_cycle).freeCount
@[simp] theorem State.inputs_cycle (s : State) : s.cycle.inputs = s.inputs := (s.onlyMemory_cycle).inputs

/-! ### `load`: a read by the CPU -/

@[simp] theorem State.a_load (s : State) (x : Word) (n : Nat) : (s.load x n).2.a = s.a := (s.onlyMemory_load x n).a
@[simp] theorem State.b_load (s : State) (x : Word) (n : Nat) : (s.load x n).2.b = s.b := (s.onlyMemory_load x n).b
@[simp] theorem State.sp_load (s : State) (x : Word) (n : Nat) :
    (s.load x n).2.sp = s.sp := (s.onlyMemory_load x n).sp
@[simp] theorem State.pc_load (s : State) (x : Word) (n : Nat) :
    (s.load x n).2.pc = s.pc := (s.onlyMemory_load x n).pc
@[simp] theorem State.st_load (s : State) (x : Word) (n : Nat) :
    (s.load x n).2.st = s.st := (s.onlyMemory_load x n).st
@[simp] theorem State.io_load (s : State) (x : Word) (n : Nat) :
    (s.load x n).2.io = s.io := (s.onlyMemory_load x n).io
@[simp] theorem State.pending_load (s : State) (x : Word) (n : Nat) :
    (s.load x n).2.pending = s.pending := (s.onlyMemory_load x n).pending
@[simp] theorem State.resuming_load (s : State) (x : Word) (n : Nat) :
    (s.load x n).2.resuming = s.resuming := (s.onlyMemory_load x n).resuming
@[simp] theorem State.suspended_load (s : State) (x : Word) (n : Nat) :
    (s.load x n).2.suspended = s.suspended := (s.onlyMemory_load x n).suspended
@[simp] theorem State.params_load (s : State) (x : Word) (n : Nat) :
    (s.load x n).2.params = s.params := (s.onlyMemory_load x n).params
@[simp] theorem State.freeCount_load (s : State) (x : Word) (n : Nat) :
    (s.load x n).2.freeCount = s.freeCount := (s.onlyMemory_load x n).freeCount
@[simp] theorem State.inputs_load (s : State) (x : Word) (n : Nat) :
    (s.load x n).2.inputs = s.inputs := (s.onlyMemory_load x n).inputs

/-! ### `store`: a write by the CPU -/

@[simp] theorem State.a_store (s : State) (x : Word) (n : Nat) (v : Word) :
    (s.store x n v).a = s.a := (s.onlyMemory_store x n v).a
@[simp] theorem State.b_store (s : State) (x : Word) (n : Nat) (v : Word) :
    (s.store x n v).b = s.b := (s.onlyMemory_store x n v).b
@[simp] theorem State.sp_store (s : State) (x : Word) (n : Nat) (v : Word) :
    (s.store x n v).sp = s.sp := (s.onlyMemory_store x n v).sp
@[simp] theorem State.pc_store (s : State) (x : Word) (n : Nat) (v : Word) :
    (s.store x n v).pc = s.pc := (s.onlyMemory_store x n v).pc
@[simp] theorem State.st_store (s : State) (x : Word) (n : Nat) (v : Word) :
    (s.store x n v).st = s.st := (s.onlyMemory_store x n v).st
@[simp] theorem State.io_store (s : State) (x : Word) (n : Nat) (v : Word) :
    (s.store x n v).io = s.io := (s.onlyMemory_store x n v).io
@[simp] theorem State.pending_store (s : State) (x : Word) (n : Nat) (v : Word) :
    (s.store x n v).pending = s.pending := (s.onlyMemory_store x n v).pending
@[simp] theorem State.resuming_store (s : State) (x : Word) (n : Nat) (v : Word) :
    (s.store x n v).resuming = s.resuming := (s.onlyMemory_store x n v).resuming
@[simp] theorem State.suspended_store (s : State) (x : Word) (n : Nat) (v : Word) :
    (s.store x n v).suspended = s.suspended := (s.onlyMemory_store x n v).suspended
@[simp] theorem State.params_store (s : State) (x : Word) (n : Nat) (v : Word) :
    (s.store x n v).params = s.params := (s.onlyMemory_store x n v).params
@[simp] theorem State.freeCount_store (s : State) (x : Word) (n : Nat) (v : Word) :
    (s.store x n v).freeCount = s.freeCount := (s.onlyMemory_store x n v).freeCount
@[simp] theorem State.inputs_store (s : State) (x : Word) (n : Nat) (v : Word) :
    (s.store x n v).inputs = s.inputs := (s.onlyMemory_store x n v).inputs

/-! ### `push32`, `pop32`: the stack -/

@[simp] theorem State.a_push32 (s : State) (v : Word) : (s.push32 v).a = s.a :=
  (State.onlyMemory_store _ _ _ _).a
@[simp] theorem State.b_push32 (s : State) (v : Word) : (s.push32 v).b = s.b :=
  (State.onlyMemory_store _ _ _ _).b
@[simp] theorem State.sp_push32 (s : State) (v : Word) : (s.push32 v).sp = s.sp - 32#32 :=
  (State.onlyMemory_store _ _ _ _).sp
@[simp] theorem State.pc_push32 (s : State) (v : Word) : (s.push32 v).pc = s.pc :=
  (State.onlyMemory_store _ _ _ _).pc
@[simp] theorem State.st_push32 (s : State) (v : Word) : (s.push32 v).st = s.st :=
  (State.onlyMemory_store _ _ _ _).st
@[simp] theorem State.io_push32 (s : State) (v : Word) : (s.push32 v).io = s.io :=
  (State.onlyMemory_store _ _ _ _).io
@[simp] theorem State.pending_push32 (s : State) (v : Word) : (s.push32 v).pending = s.pending :=
  (State.onlyMemory_store _ _ _ _).pending
@[simp] theorem State.resuming_push32 (s : State) (v : Word) : (s.push32 v).resuming = s.resuming :=
  (State.onlyMemory_store _ _ _ _).resuming
@[simp] theorem State.suspended_push32 (s : State) (v : Word) : (s.push32 v).suspended = s.suspended :=
  (State.onlyMemory_store _ _ _ _).suspended
@[simp] theorem State.params_push32 (s : State) (v : Word) : (s.push32 v).params = s.params :=
  (State.onlyMemory_store _ _ _ _).params
@[simp] theorem State.freeCount_push32 (s : State) (v : Word) : (s.push32 v).freeCount = s.freeCount :=
  (State.onlyMemory_store _ _ _ _).freeCount
@[simp] theorem State.inputs_push32 (s : State) (v : Word) : (s.push32 v).inputs = s.inputs :=
  (State.onlyMemory_store _ _ _ _).inputs
@[simp] theorem State.a_pop32 (s : State) : s.pop32.2.a = s.a := (s.onlyMemory_load s.sp 32).a
@[simp] theorem State.b_pop32 (s : State) : s.pop32.2.b = s.b := (s.onlyMemory_load s.sp 32).b
@[simp] theorem State.sp_pop32 (s : State) : s.pop32.2.sp = s.sp + 32#32 :=
  congrArg (· + 32#32) (s.onlyMemory_load s.sp 32).sp
@[simp] theorem State.pc_pop32 (s : State) : s.pop32.2.pc = s.pc := (s.onlyMemory_load s.sp 32).pc
@[simp] theorem State.st_pop32 (s : State) : s.pop32.2.st = s.st := (s.onlyMemory_load s.sp 32).st
@[simp] theorem State.io_pop32 (s : State) : s.pop32.2.io = s.io := (s.onlyMemory_load s.sp 32).io
@[simp] theorem State.pending_pop32 (s : State) : s.pop32.2.pending = s.pending := (s.onlyMemory_load s.sp 32).pending
@[simp] theorem State.resuming_pop32 (s : State) : s.pop32.2.resuming = s.resuming := (s.onlyMemory_load s.sp 32).resuming
@[simp] theorem State.suspended_pop32 (s : State) : s.pop32.2.suspended = s.suspended := (s.onlyMemory_load s.sp 32).suspended
@[simp] theorem State.params_pop32 (s : State) : s.pop32.2.params = s.params := (s.onlyMemory_load s.sp 32).params
@[simp] theorem State.freeCount_pop32 (s : State) : s.pop32.2.freeCount = s.freeCount := (s.onlyMemory_load s.sp 32).freeCount
@[simp] theorem State.inputs_pop32 (s : State) : s.pop32.2.inputs = s.inputs := (s.onlyMemory_load s.sp 32).inputs

/-! ### The control bits depend on memory and parameters alone -/

theorem State.cfAddr_congr {s t : State} (h : t.params = s.params) : t.cfAddr = s.cfAddr := by
  unfold State.cfAddr; rw [h]

theorem State.hltAddr_congr {s t : State} (h : t.params = s.params) : t.hltAddr = s.hltAddr := by
  unfold State.hltAddr; rw [h]

theorem State.cdAddr_congr {s t : State} (h : t.params = s.params) : t.cdAddr = s.cdAddr := by
  unfold State.cdAddr; rw [h]

theorem State.OnlyMemory.cfAddr {s t : State} (h : s.OnlyMemory t) : t.cfAddr = s.cfAddr := State.cfAddr_congr h.params

theorem State.OnlyMemory.hltAddr {s t : State} (h : s.OnlyMemory t) : t.hltAddr = s.hltAddr :=
  State.hltAddr_congr h.params

end Sys2Proof.Machine
end

