-- ==== Sys2Proof/Laws/Ops.lean ====
section
/-! SUPPORT. What the shared operations can do, said once: loads and stores, the stack, exceptions, loading PC. A lemma
`…_of_quiet` is about a state in which no write of the host is due inside the instruction. -/

namespace Sys2Proof.Machine

/-! ### PC -/

theorem wordAligned_alignPc (a : Word) : wordAligned (alignPc a) := by
  unfold wordAligned alignPc wordAddr
  ext i hi
  simp only [BitVec.getElem_extractLsb', BitVec.getElem_zero]
  rw [BitVec.getLsbD_append]
  simp [hi]

theorem alignPc_of_wordAligned {a : Word} (h : wordAligned a) : alignPc a = a := by
  unfold wordAligned at h
  unfold alignPc wordAddr
  apply BitVec.eq_of_getLsbD_eq
  intro i hi
  rw [BitVec.getLsbD_append]
  split_ifs with h4
  · have := congrArg (fun v => v.getLsbD i) h
    simp only [BitVec.getLsbD_extractLsb', BitVec.getLsbD_zero, h4, decide_true, Bool.true_and, Nat.zero_add] at this
    simp [this]
  · simp only [BitVec.getLsbD_extractLsb']
    have : i - 4 < 28 := by omega
    simp [this, show 4 + (i - 4) = i by omega]

theorem wordAligned_iff_toNat (a : Word) : wordAligned a ↔ a.toNat % 16 = 0 := by
  unfold wordAligned
  rw [← BitVec.toNat_inj]
  simp [BitVec.extractLsb'_toNat]

theorem wordAligned_add {a b : Word} (ha : wordAligned a) (hb : wordAligned b) : wordAligned (a + b) := by
  rw [wordAligned_iff_toNat] at *
  rw [BitVec.toNat_add]
  omega

theorem wordAligned_sub {a b : Word} (ha : wordAligned a) (hb : wordAligned b) : wordAligned (a - b) := by
  rw [wordAligned_iff_toNat] at *
  rw [BitVec.toNat_sub]
  omega

/-! ### Status register -/

@[simp] theorem getLsbD_setFlags_low (st : Word) (v : BitVec 4) {i : Nat} (h : i < 28) :
    (setFlags st v).getLsbD i = st.getLsbD i := by
  unfold setFlags
  rw [BitVec.getLsbD_append]
  simp [h]

theorem getLsbD_setFlags_high (st : Word) (v : BitVec 4) {i : Nat} (h : 28 ≤ i) :
    (setFlags st v).getLsbD i = v.getLsbD (i - 28) := by
  unfold setFlags
  rw [BitVec.getLsbD_append]
  simp [Nat.not_lt.2 h]

@[simp] theorem stPBX_setPBX (st : Word) (v : Bool) : stPBX (setPBX st v) = v := by
  cases v <;> simp [stPBX, setPBX]

theorem getLsbD_setPBX (st : Word) (v : Bool) {i : Nat} (h : i ≠ 25) (hi : i < 32) :
    (setPBX st v).getLsbD i = st.getLsbD i := by
  unfold setPBX
  cases v
  · simp only [Bool.false_eq_true, if_false, BitVec.getLsbD_and]
    have : (0xFDFFFFFF#32).getLsbD i = true := by
      interval_cases i <;> first | rfl | contradiction
    simp [this]
  · simp only [if_true, BitVec.getLsbD_or]
    have : (0x02000000#32).getLsbD i = false := by
      interval_cases i <;> first | rfl | contradiction
    simp [this]

/-! ### The flushed cache -/

@[simp] theorem Segment.isPresent_clear (g : Segment) (sub : Fin 8) : g.clear.isPresent sub = false := by
  simp [Segment.clear, Segment.isPresent, Vector.get]

@[simp] theorem Segment.ssa_clear (g : Segment) : g.clear.ssa = g.ssa := rfl

@[simp] theorem Segment.data_clear (g : Segment) : g.clear.data = g.data := rfl

theorem Cache.seg_flush (c : Cache) (seg : Fin 4) : c.flush.seg seg = (c.seg seg).clear := by
  simp [Cache.flush, Cache.seg, Vector.get]
  rfl

@[simp] theorem Cache.lru_flush (c : Cache) : c.flush.lru = [0, 1, 2, 3] := rfl

theorem Cache.empty_flush (c : Cache) : c.flush.empty := by
  intro seg sub
  rw [Cache.seg_flush, Segment.isPresent_clear]

theorem Cache.flush_flush (c : Cache) : c.flush.flush = c.flush := by
  have : ∀ g, (c.flush.seg g).clear = (c.seg g).clear := fun g => by rw [Cache.seg_flush]; rfl
  rw [Cache.flush, funext this]
  rfl

theorem State.KeepsCacheOrFlushes.of_eq {s t : State} (h : t.cache = s.cache) : s.KeepsCacheOrFlushes t := .inl h

theorem State.KeepsCacheOrFlushes.trans {s t u : State} (h : s.KeepsCacheOrFlushes t) (h' : t.KeepsCacheOrFlushes u) :
    s.KeepsCacheOrFlushes u := by
  rcases h' with e' | e' <;> rcases h with e | e
  · exact .inl (e'.trans e)
  · exact .inr (e'.trans e)
  · exact .inr (e'.trans (congrArg Cache.flush e))
  · exact .inr (by rw [e', e, Cache.flush_flush])

/-! ### Writes of one word -/

theorem State.cache_afterStore_or (s : State) (a : Word) (n : Nat) (m : Memory) :
    s.KeepsCacheOrFlushes (s.afterStore a n m) := by
  rw [State.KeepsCacheOrFlushes, State.cache_afterStore]
  split_ifs
  · exact .inr rfl
  · exact .inl rfl

theorem State.cache_hostStore (s : State) (a : Word) (v : Word16) : s.KeepsCacheOrFlushes (s.hostStore a v) :=
  State.cache_afterStore_or _ _ _ _

theorem State.cache_writeWord (s : State) (a : Word) (n : Nat) (v : Word) : s.KeepsCacheOrFlushes (s.writeWord a n v) :=
  s.cache_afterStore_or a n _

theorem State.cache_hostTurn (l : List (Option HostWrite)) (s : State) : s.KeepsCacheOrFlushes (State.hostTurn l s) := by
  induction l generalizing s with
  | nil => exact .inl rfl
  | cons w l ih =>
    cases w with
    | none => exact .inl rfl
    | some w => exact (s.cache_hostStore w.addr w.value).trans (ih _)

theorem State.cache_hostRest (l : List (Option HostWrite)) (s : State) : s.KeepsCacheOrFlushes (State.hostRest l s) := by
  induction l generalizing s with
  | nil => exact .inl rfl
  | cons w l ih =>
    cases w with
    | none => exact ih s
    | some w => exact (s.cache_hostStore w.addr w.value).trans (ih _)

theorem State.cache_cycle (s : State) : s.KeepsCacheOrFlushes s.cycle := State.cache_hostTurn _ _

theorem State.cache_foldl {α : Type} {f : State → α → State} (hf : ∀ (s : State) (x : α), s.KeepsCacheOrFlushes (f s x))
    (l : List α) (s : State) : s.KeepsCacheOrFlushes (l.foldl f s) := by
  induction l generalizing s with
  | nil => exact .inl rfl
  | cons x l ih => exact (hf s x).trans (ih _)

/-- A store leaves the cache as it was, or flushed (R56, R205). -/
theorem State.cache_store (s : State) (a v : Word) (n : Nat) : s.KeepsCacheOrFlushes (s.store a n v) :=
  State.cache_foldl (fun t _ => t.cache_cycle.trans (State.cache_writeWord _ _ _ _)) _ _

/-- A load leaves the cache as it was, or flushed, as by a write of the host to CF between its cycles. -/
theorem State.cache_load (s : State) (a : Word) (n : Nat) : s.KeepsCacheOrFlushes (s.load a n).2 := by
  unfold State.load
  generalize wordPieces a n = l
  generalize 0#32 = v
  induction l generalizing s v with
  | nil => exact .inl rfl
  | cons p l ih => exact s.cache_cycle.trans (ih _ _)

/-! ### What every memory cycle keeps -/

/-- `Sound` is about memory, the cache, PC and the parameters alone. -/
theorem State.Sound.congr {s t : State} (h : s.Sound) (hm : t.mem = s.mem) (hp : wordAligned t.pc)
    (hc : t.cache = s.cache) (hpar : t.params = s.params) : t.Sound := by
  have hcf : t.cf = s.cf := by
    unfold State.cf State.cfAddr
    rw [hm, hpar]
  exact ⟨hm ▸ h.mem, hp, hc ▸ h.lru, fun e => hc ▸ h.flushed (hcf ▸ e)⟩

/-- A write keeps `Sound` if, where it does not cover CF, it leaves 1 there only over an empty cache. -/
theorem State.Sound.afterStore' {s : State} {a : Word} {n : Nat} {m : Memory} (hm : m.wf) (hpc : wordAligned s.pc)
    (hlru : s.cache.lru.Perm [0, 1, 2, 3])
    (hcf : covers a n s.cfAddr = false → m.readBit s.cfAddr = true → s.cache.empty) : (s.afterStore a n m).Sound := by
  refine ⟨hm, hpc, ?_, fun hc => ?_⟩
  · rw [State.cache_afterStore]
    split_ifs
    · exact List.Perm.refl _
    · exact hlru
  · have hc' : m.readBit s.cfAddr = true := hc
    rw [State.cache_afterStore, hc', Bool.and_true]
    split_ifs with hcov
    · exact Cache.empty_flush _
    · exact hcf (by simpa using hcov) hc'

theorem State.Sound.hostStore {s : State} (h : s.Sound) (a : Word) (v : Word16) : (s.hostStore a v).Sound := by
  refine State.Sound.afterStore' (s := { s with posted := none }) (Memory.wf_writeBits h.mem _ _ _) h.pc h.lru
    (fun hcov hc => h.flushed ?_)
  rw [Memory.readBit_writeBits _ _ _ _ (by norm_num), if_neg (by simpa [covers] using hcov)] at hc
  exact hc

theorem State.Sound.arrive {s : State} (h : s.Sound) (a v : Word) (n : Nat) : (s.arrive a n v).Sound := by
  refine State.Sound.afterStore' (Memory.wf_writeBitsBut h.mem _ _ _ _) h.pc h.lru (fun hcov hc => h.flushed ?_)
  rw [Memory.readBit_writeBitsBut_of_not_covers _ _ hcov] at hc
  exact hc

theorem State.Sound.writeWord {s : State} (h : s.Sound) (a v : Word) (n : Nat) : (s.writeWord a n v).Sound :=
  (h.arrive a v n).congr rfl (h.arrive a v n).pc rfl rfl

/-- The write in flight arriving after the host's: whatever it is, CF = 1 afterwards only over an empty cache. -/
theorem State.Sound.hostStoreFirst {s : State} (h : s.Sound) (a : Word) (v : Word16) : (s.hostStoreFirst a v).Sound := by
  unfold State.hostStoreFirst
  cases hp : s.posted with
  | none => exact h.hostStore a v
  | some p =>
    simp only
    set m1 := s.mem.writeBitsBut s.hltAddr p.addr p.len p.old with hm1
    have hwf : m1.wf := Memory.wf_writeBitsBut h.mem _ _ _ _
    set t := ({ s with mem := m1, posted := some p } : State).hostStore a v with ht
    have hom : ({ s with mem := m1, posted := some p } : State).OnlyMemory t := State.onlyMemory_hostStore _ _ _
    have htm : t.mem = m1.writeBits (wordAddr a) 16 (v.setWidth 32) := rfl
    have htc : t.cache = if covers (wordAddr a) 16 s.cfAddr && t.mem.readBit s.cfAddr then s.cache.flush else s.cache := rfl
    have hcfa : t.cfAddr = s.cfAddr := hom.cfAddr
    have hwf' : t.mem.wf := by rw [htm]; exact Memory.wf_writeBits hwf _ _ _
    refine State.Sound.afterStore' (Memory.wf_writeBitsBut hwf' _ _ _ _) h.pc ?_ (fun hcov hc => ?_)
    · rw [htc]
      split_ifs
      · exact List.Perm.refl _
      · exact h.lru
    · rw [Memory.readBit_writeBitsBut_of_not_covers _ _ hcov, hcfa] at hc
      rw [hcfa] at hcov
      rw [htc, hc, Bool.and_true]
      split_ifs with hw
      · exact Cache.empty_flush _
      · refine h.flushed ?_
        rw [htm, Memory.readBit_writeBits _ _ _ _ (by norm_num), if_neg (by simpa [covers] using hw), hm1,
          Memory.readBit_writeBitsBut_of_not_covers _ _ hcov] at hc
        exact hc

theorem State.Sound.hostTurn {s : State} (h : s.Sound) (l : List (Option HostWrite)) : (State.hostTurn l s).Sound := by
  induction l generalizing s with
  | nil => exact h.congr rfl h.pc rfl rfl
  | cons w l ih =>
    cases w with
    | none => exact h.congr rfl h.pc rfl rfl
    | some w => exact ih (h.hostStore w.addr w.value)

theorem State.Sound.hostRest {s : State} (h : s.Sound) (l : List (Option HostWrite)) : (State.hostRest l s).Sound := by
  induction l generalizing s with
  | nil => exact h.congr rfl h.pc rfl rfl
  | cons w l ih =>
    cases w with
    | none => exact ih h
    | some w => exact ih (h.hostStore w.addr w.value)

theorem State.Sound.cycle {s : State} (h : s.Sound) : s.cycle.Sound := h.hostTurn _

theorem State.Sound.store {s : State} (h : s.Sound) (a v : Word) (n : Nat) : (s.store a n v).Sound := by
  unfold State.store
  generalize wordPieces a n = l
  induction l generalizing s with
  | nil => exact h
  | cons p l ih => exact ih (h.cycle.writeWord _ _ _)

theorem State.Sound.load {s : State} (h : s.Sound) (a : Word) (n : Nat) : (s.load a n).2.Sound := by
  unfold State.load
  generalize wordPieces a n = l
  generalize 0#32 = v
  induction l generalizing s v with
  | nil => exact h
  | cons p l ih => exact ih h.cycle _

theorem State.Sound.push32 {s : State} (h : s.Sound) (v : Word) : (s.push32 v).Sound :=
  State.Sound.store (s := { s with sp := s.sp - 32#32 }) (h.congr rfl h.pc rfl rfl) (s.sp - 32#32) v 32

theorem State.Sound.pop32 {s : State} (h : s.Sound) : s.pop32.2.Sound :=
  (h.load s.sp 32).congr rfl (h.load s.sp 32).pc rfl rfl

theorem State.Sound.tick {s : State} (h : s.Sound) : s.tick.Sound := h.congr rfl h.pc rfl rfl

/-! ### Memory cycles in a quiet state -/

theorem State.cycle_of_quiet {s : State} (h : s.inside = []) : s.cycle = s := by
  unfold State.cycle
  rw [h, State.hostTurn, ← h]

theorem State.hostRest_of_quiet {s : State} (h : s.inside = []) : State.hostRest s.inside s = s := by
  rw [h, State.hostRest, ← h]

/-- What one cycle of a write leaves in memory. -/
theorem State.readBit_writeWord (s : State) (a x v : Word) {n : Nat} (hn : n ≤ 2 ^ 32) :
    (s.writeWord a n v).mem.readBit x =
      if x ≠ s.hltAddr ∧ (x - a).toNat < n then v.getLsbD (x - a).toNat else s.mem.readBit x :=
  Memory.readBit_writeBitsBut _ _ _ _ _ hn

theorem State.cache_writeWord_eq (s : State) (a v : Word) (n : Nat) :
    (s.writeWord a n v).cache =
      if covers a n s.cfAddr && (s.writeWord a n v).mem.readBit s.cfAddr then s.cache.flush else s.cache := rfl

/-- A list of pieces of a value, each of which lies in the address space. -/
def Pieces (L : List (Nat × Nat)) : Prop := ∀ p ∈ L, p.1 + p.2 ≤ 2 ^ 32

theorem pieces_wordPieces (a : Word) {n : Nat} (hn : n ≤ 2 ^ 32) : Pieces (wordPieces a n) :=
  fun _ hp => (le_of_mem_wordPieces hp).trans hn

theorem ite_ite_or {α : Type} (P R : Prop) [Decidable P] [Decidable R] [Decidable (R ∨ P)] (x y : α) :
    (if P then x else if R then x else y) = if R ∨ P then x else y := by
  by_cases hP : P <;> by_cases hR : R <;> simp [hP, hR]

theorem flush_ite_or (P R : Prop) (b : Bool) (c : Cache) [Decidable (P ∧ b = true)] [Decidable (R ∧ b = true)]
    [Decidable ((R ∨ P) ∧ b = true)] :
    (if P ∧ b = true then (if R ∧ b = true then c.flush else c).flush else if R ∧ b = true then c.flush else c) =
      if (R ∨ P) ∧ b = true then c.flush else c := by
  by_cases hP : P <;> by_cases hR : R <;> cases b <;> simp [hP, hR, Cache.flush_flush]

/-- The value's pieces stored one after the other, no write of the host between them. -/
theorem State.storePieces_of_quiet (L : List (Nat × Nat)) (s : State) (a v : Word) (hL : Pieces L) (h : s.inside = []) :
    let t := L.foldl (fun t p => t.cycle.writeWord (a + BitVec.ofNat 32 p.1) p.2 (v >>> p.1)) s
    t.inside = [] ∧
    (∀ x, t.mem.readBit x =
      if x ≠ s.hltAddr ∧ ∃ p ∈ L, p.1 ≤ (x - a).toNat ∧ (x - a).toNat < p.1 + p.2 then v.getLsbD (x - a).toNat
      else s.mem.readBit x) ∧
    t.cache = if (∃ p ∈ L, p.1 ≤ (s.cfAddr - a).toNat ∧ (s.cfAddr - a).toNat < p.1 + p.2) ∧
      (if s.cfAddr = s.hltAddr then s.cf else v.getLsbD (s.cfAddr - a).toNat) = true then s.cache.flush else s.cache := by
  induction L generalizing s with
  | nil => simp [h]
  | cons p L ih =>
    have hp : p.1 + p.2 ≤ 2 ^ 32 := hL p List.mem_cons_self
    simp only [List.foldl_cons, State.cycle_of_quiet h]
    set u := s.writeWord (a + BitVec.ofNat 32 p.1) p.2 (v >>> p.1) with hu
    have hom : s.OnlyMemory u := State.onlyMemory_writeWord _ _ _ _
    obtain ⟨h1, h2, h3⟩ := ih u (fun q hq => hL q (List.mem_cons_of_mem _ hq)) h
    have hbit : ∀ x, u.mem.readBit x =
        if x ≠ s.hltAddr ∧ p.1 ≤ (x - a).toNat ∧ (x - a).toNat < p.1 + p.2 then v.getLsbD (x - a).toNat
        else s.mem.readBit x := by
      intro x
      have hc := covers_piece_iff a x hp
      rw [covers_iff] at hc
      rw [hu, State.readBit_writeWord _ _ _ _ (by omega)]
      by_cases hk : p.1 ≤ (x - a).toNat ∧ (x - a).toNat < p.1 + p.2
      · have e : (x - (a + BitVec.ofNat 32 p.1)).toNat = (x - a).toNat - p.1 := by
          by_cases hl : p.2 = 0
          · omega
          · rw [sub_piece _ _ (by omega), if_pos hk.1]
        by_cases hx : x = s.hltAddr
        · simp [hx]
        · rw [if_pos ⟨hx, hc.2 hk⟩, if_pos ⟨hx, hk⟩, e, BitVec.getLsbD_ushiftRight]
          congr 1; omega
      · rw [if_neg (fun e => hk (hc.1 e.2)), if_neg (fun e => hk e.2)]
    have hcu : u.cache = if (p.1 ≤ (s.cfAddr - a).toNat ∧ (s.cfAddr - a).toNat < p.1 + p.2) ∧
        (if s.cfAddr = s.hltAddr then s.cf else v.getLsbD (s.cfAddr - a).toNat) = true then s.cache.flush else s.cache := by
      have hc := covers_piece_iff a s.cfAddr hp
      rw [hu, State.cache_writeWord_eq, ← hu, hbit]
      by_cases hk : p.1 ≤ (s.cfAddr - a).toNat ∧ (s.cfAddr - a).toNat < p.1 + p.2
      · rw [hc.2 hk, Bool.true_and]
        by_cases hx : s.cfAddr = s.hltAddr
        · simp only [hx, ne_eq, not_true_eq_false, false_and, if_false, if_true]
          rw [hx] at hk
          simp only [hk, and_self, true_and]
          unfold State.cf
          rw [hx]
        · simp only [hx, ne_eq, not_false_eq_true, true_and, hk, and_self, if_true, if_false]
      · have : covers (a + BitVec.ofNat 32 p.1) p.2 s.cfAddr = false := by
          rw [← Bool.not_eq_true]; exact fun e => hk (hc.1 e)
        rw [this, if_neg (by simp), if_neg (fun e => hk e.1)]
    have ucf : u.cfAddr = s.cfAddr := hom.cfAddr
    have uhlt : u.hltAddr = s.hltAddr := hom.hltAddr
    refine ⟨h1, fun x => ?_, ?_⟩
    · rw [h2 x, hbit x, uhlt]
      simp only [List.exists_mem_cons_iff]
      by_cases hx : x = s.hltAddr
      · simp [hx]
      · simp only [ne_eq, hx, not_false_eq_true, true_and]
        exact ite_ite_or _ _ _ _
    · have hucf : (if s.cfAddr = s.hltAddr then u.cf else v.getLsbD (s.cfAddr - a).toNat) =
          (if s.cfAddr = s.hltAddr then s.cf else v.getLsbD (s.cfAddr - a).toNat) := by
        split_ifs with hx
        · unfold State.cf
          rw [ucf, hbit, if_neg (by simp [hx])]
        · rfl
      rw [h3, ucf, uhlt, hucf, hcu]
      simp only [List.exists_mem_cons_iff]
      exact flush_ite_or _ _ _ _

/-- A store by the CPU leaves in memory: HLT as it was, else the value's bit where the store covers it, else the bit there
before. -/
theorem State.readBit_store_of_quiet {s : State} (h : s.inside = []) (a x v : Word) {n : Nat} (hn : n ≤ 2 ^ 32) :
    (s.store a n v).mem.readBit x =
      if x = s.hltAddr then s.mem.readBit x
      else if (x - a).toNat < n then v.getLsbD (x - a).toNat else s.mem.readBit x := by
  rw [State.store, (State.storePieces_of_quiet _ s a v (pieces_wordPieces a hn) h).2.1 x]
  simp only [exists_wordPieces_iff]
  by_cases hx : x = s.hltAddr
  · simp [hx]
  · simp only [ne_eq, hx, not_false_eq_true, true_and, if_false]

/-- A store leaves no write of the host due that was not due before. -/
theorem State.inside_store_of_quiet {s : State} (h : s.inside = []) (a v : Word) (n : Nat) :
    (s.store a n v).inside = [] := by
  unfold State.store
  generalize wordPieces a n = l
  induction l generalizing s with
  | nil => exact h
  | cons p l ih =>
    simp only [List.foldl_cons, State.cycle_of_quiet h]
    exact ih h

/-- A store by the CPU changes no bit outside the ones it covers, of whatever length it is. -/
theorem State.readBit_store_of_not_covers {s : State} (h : s.inside = []) {a x v : Word} {n : Nat}
    (hc : covers a n x = false) : (s.store a n v).mem.readBit x = s.mem.readBit x := by
  have hn : n ≤ 2 ^ 32 := by
    have h' : ¬ (x - a).toNat < n := by simpa [covers] using hc
    have := (x - a).isLt
    omega
  have h' : ¬ (x - a).toNat < n := by simpa [covers] using hc
  rw [State.readBit_store_of_quiet h _ _ _ hn, if_neg h']
  split_ifs <;> rfl

/-- A store by the CPU never changes HLT (R244, D20). -/
theorem State.hlt_store_of_quiet {s : State} (h : s.inside = []) (a v : Word) (n : Nat) :
    (s.store a n v).hlt = s.hlt := by
  have hh : (s.store a n v).hltAddr = s.hltAddr := (s.onlyMemory_store a n v).hltAddr
  unfold State.hlt
  rw [hh]
  unfold State.store
  generalize wordPieces a n = l
  clear hh
  induction l generalizing s with
  | nil => rfl
  | cons p l ih =>
    simp only [List.foldl_cons, State.cycle_of_quiet h]
    have hom : s.OnlyMemory (s.writeWord (a + BitVec.ofNat 32 p.1) p.2 (v >>> p.1)) := State.onlyMemory_writeWord _ _ _ _
    have := ih (s := s.writeWord (a + BitVec.ofNat 32 p.1) p.2 (v >>> p.1)) h
    rw [hom.hltAddr] at this
    rw [this]
    exact Memory.readBit_writeBitsBut_self _ _ _ _ _

/-- A store by the CPU, said once (R52, R56, R205, R244). -/
theorem State.stores_store {s : State} (h : s.inside = []) (a v : Word) {n : Nat} (hn : n ≤ 2 ^ 32) :
    s.Stores (s.store a n v) a n v := by
  refine ⟨fun x hc hx => ?_, s.hlt_store_of_quiet h a v n, fun x hc => State.readBit_store_of_not_covers h hc, ?_⟩
  · rw [State.readBit_store_of_quiet h _ _ _ hn, if_neg hx, if_pos ((covers_iff _ _ _).1 hc)]
  · have hb := State.readBit_store_of_quiet h a s.cfAddr v hn
    have hcf : (s.store a n v).cf = (s.store a n v).mem.readBit s.cfAddr := by
      unfold State.cf; rw [(s.onlyMemory_store a n v).cfAddr]
    rw [hcf, hb]
    rw [State.store, (State.storePieces_of_quiet _ s a v (pieces_wordPieces a hn) h).2.2]
    simp only [exists_wordPieces_iff]
    have hc := covers_iff a n s.cfAddr
    by_cases hk : (s.cfAddr - a).toNat < n
    · rw [hc.2 hk, Bool.true_and]
      by_cases hx : s.cfAddr = s.hltAddr
      · simp only [hx, if_true]
        rw [hx] at hk
        simp only [hk, true_and]
        unfold State.cf
        rw [hx]
      · simp only [hk, hx, if_true, if_false, true_and]
    · have : covers a n s.cfAddr = false := by rw [← Bool.not_eq_true]; exact fun e => hk (hc.1 e)
      rw [this, if_neg (fun e => hk e.1), if_neg (by simp)]

/-- The value's pieces read one after the other. -/
theorem State.loadPieces_of_quiet (L : List (Nat × Nat)) {s : State} (h : s.inside = []) (a v : Word) (hL : Pieces L) :
    let r := L.foldl (fun (r : Word × State) p =>
      let t := r.2.cycle
      (r.1 ||| (t.mem.readZext (a + BitVec.ofNat 32 p.1) p.2 <<< p.1), t)) (v, s)
    r.2 = s ∧ ∀ k, k < 32 → r.1.getLsbD k =
      (v.getLsbD k || (decide (∃ p ∈ L, p.1 ≤ k ∧ k < p.1 + p.2) && s.mem.readBit (a + BitVec.ofNat 32 k))) := by
  induction L generalizing v with
  | nil => simp
  | cons p L ih =>
    simp only [List.foldl_cons, State.cycle_of_quiet h]
    obtain ⟨h1, h2⟩ := ih (v ||| (s.mem.readZext (a + BitVec.ofNat 32 p.1) p.2 <<< p.1))
      (fun q hq => hL q (List.mem_cons_of_mem _ hq))
    refine ⟨h1, fun k hk => ?_⟩
    rw [h2 k hk]
    simp only [List.exists_mem_cons_iff, BitVec.getLsbD_or, BitVec.getLsbD_shiftLeft, hk, decide_true, Bool.true_and,
      Memory.getLsbD_readZext]
    by_cases hp : p.1 ≤ k
    · have e : a + BitVec.ofNat 32 p.1 + BitVec.ofNat 32 (k - p.1) = a + BitVec.ofNat 32 k := by
        rw [add_assoc, ← BitVec.ofNat_add]; congr 2; omega
      have h32 : k - p.1 < 32 := by omega
      have hlt : ¬ k < p.1 := by omega
      by_cases hl : k < p.1 + p.2
      · have : k - p.1 < p.2 := by omega
        simp only [e, h32, this, hlt, hp, hl, and_self, true_or, decide_true, decide_false, Bool.not_false, Bool.true_and]
        cases s.mem.readBit (a + BitVec.ofNat 32 k) <;> simp
      · have : ¬ k - p.1 < p.2 := by omega
        simp [this, hl, hp]
    · have hlt : k < p.1 := by omega
      simp [hp, hlt]

/-- A load by the CPU returns memory's value and changes nothing. -/
theorem State.load_of_quiet {s : State} (h : s.inside = []) (a : Word) {n : Nat} (hn : n ≤ 32) :
    s.load a n = (s.mem.readZext a n, s) := by
  obtain ⟨h1, h2⟩ := State.loadPieces_of_quiet (wordPieces a n) h a 0#32 (pieces_wordPieces a (by omega))
  refine Prod.ext (BitVec.eq_of_getLsbD_eq (fun k hk => ?_)) h1
  rw [State.load, h2 k hk]
  simp only [BitVec.getLsbD_zero, Bool.false_or, exists_wordPieces_iff, Memory.getLsbD_readZext, hk, decide_true,
    Bool.and_true]

theorem State.inside_load_of_quiet {s : State} (h : s.inside = []) (a : Word) (n : Nat) : (s.load a n).2.inside = [] := by
  unfold State.load
  generalize wordPieces a n = l
  generalize 0#32 = v
  induction l generalizing v with
  | nil => exact h
  | cons p l ih =>
    simp only [List.foldl_cons, State.cycle_of_quiet h]
    exact ih _

/-! ### The stack (R60) -/

@[simp] theorem Memory.readZext_32 (m : Memory) (a : Word) : m.readZext a 32 = m.readBits a 32 := by
  simp [Memory.readZext]

theorem State.cache_push32 (s : State) (v : Word) : s.KeepsCacheOrFlushes (s.push32 v) := State.cache_store _ _ _ _

theorem State.inside_push32_of_quiet {s : State} (h : s.inside = []) (v : Word) : (s.push32 v).inside = [] :=
  State.inside_store_of_quiet (s := { s with sp := s.sp - 32#32 }) h _ _ _

/-- A push, said once. -/
theorem State.pushes_push32 (s : State) (v : Word) : s.Pushes (s.push32 v) v := by
  refine ⟨State.sp_push32 s v, fun h => ?_, s.cache_push32 v⟩
  obtain ⟨h1, h2, h3, h4⟩ :=
    State.stores_store (s := { s with sp := s.sp - 32#32 }) h (s.sp - 32#32) v (n := 32) (by norm_num)
  exact ⟨h1, h2, h3, h4⟩

/-- The bits of a pushed value lie from the new SP on; HLT alone is not written. -/
theorem State.readBit_push32_of_quiet {s : State} (h : s.inside = []) (v x : Word) :
    (s.push32 v).mem.readBit x =
      if x = s.hltAddr then s.mem.readBit x
      else if (x - (s.sp - 32#32)).toNat < 32 then v.getLsbD (x - (s.sp - 32#32)).toNat else s.mem.readBit x :=
  State.readBit_store_of_quiet (s := { s with sp := s.sp - 32#32 }) h _ _ _ (by norm_num)

theorem State.hlt_push32_of_quiet {s : State} (h : s.inside = []) (v : Word) : (s.push32 v).hlt = s.hlt :=
  State.hlt_store_of_quiet (s := { s with sp := s.sp - 32#32 }) h _ _ _

/-- A value pushed is read back at the new SP, unless HLT lies under it. -/
theorem State.readBits_push32_of_quiet {s : State} (h : s.inside = []) (v : Word)
    (hh : covers (s.sp - 32#32) 32 s.hltAddr = false) : (s.push32 v).mem.readBits (s.sp - 32#32) 32 = v := by
  apply BitVec.eq_of_getLsbD_eq
  intro i hi
  have e : (s.sp - 32#32 + BitVec.ofNat 32 i - (s.sp - 32#32)).toNat = i := by
    rw [add_sub_cancel_left, BitVec.toNat_ofNat, Nat.mod_eq_of_lt (by omega)]
  have hne : s.sp - 32#32 + BitVec.ofNat 32 i ≠ s.hltAddr := by
    intro he
    rw [← he] at hh
    simp [covers] at hh
    omega
  rw [Memory.getLsbD_readBits, State.readBit_push32_of_quiet h, if_neg hne, if_pos (by omega), e]
  simp [hi]

/-- A pop returns the value at SP and raises SP; it changes nothing else. -/
theorem State.pop32_of_quiet {s : State} (h : s.inside = []) :
    s.pop32 = (s.mem.readBits s.sp 32, { s with sp := s.sp + 32#32 }) := by
  rw [State.pop32, State.load_of_quiet h _ (by norm_num)]
  simp

theorem State.inside_pop32_of_quiet {s : State} (h : s.inside = []) : s.pop32.2.inside = [] := by
  rw [State.pop32_of_quiet h]; exact h

theorem State.cache_pop32 (s : State) : s.KeepsCacheOrFlushes s.pop32.2 := s.cache_load _ _

/-! ### Exceptions (R231, R235) -/

/-- Two pushes, in either order: SP falls by 64; besides memory is reached, and nothing else changes. -/
theorem State.onlyMemory_pushFrame (s : State) (pc st : Word) :
    ({ s with sp := s.sp - 64#32 } : State).OnlyMemory (s.pushFrame pc st) := by
  have hsp : s.sp - 32#32 - 32#32 = s.sp - 64#32 := by rw [sub_sub]; rfl
  unfold State.pushFrame
  cases s.params.intFrame <;> constructor <;> simp [hsp]

theorem State.cache_pushFrame (s : State) (pc st : Word) : s.KeepsCacheOrFlushes (s.pushFrame pc st) := by
  unfold State.pushFrame
  cases s.params.intFrame <;> exact (s.cache_push32 _).trans (State.cache_push32 _ _)

theorem State.inside_pushFrame_of_quiet {s : State} (h : s.inside = []) (pc st : Word) :
    (s.pushFrame pc st).inside = [] := by
  unfold State.pushFrame
  cases s.params.intFrame <;> exact State.inside_push32_of_quiet (State.inside_push32_of_quiet h _) _

theorem State.hlt_pushFrame_of_quiet {s : State} (h : s.inside = []) (pc st : Word) :
    (s.pushFrame pc st).hlt = s.hlt := by
  unfold State.pushFrame
  cases s.params.intFrame <;>
    exact (State.hlt_push32_of_quiet (State.inside_push32_of_quiet h _) _).trans (State.hlt_push32_of_quiet h _)

theorem State.Sound.pushFrame {s : State} (h : s.Sound) (pc st : Word) : (s.pushFrame pc st).Sound := by
  unfold State.pushFrame
  cases s.params.intFrame <;> exact (h.push32 _).push32 _

theorem State.Sound.enterException {s : State} (h : s.Sound) (pc st target : Word) :
    (s.enterException pc st target).Sound :=
  (h.pushFrame pc st).congr rfl (wordAligned_alignPc _) rfl rfl

theorem State.Sound.takeInterrupt {s : State} (h : s.Sound) (irq : Irq) : (s.takeInterrupt irq).Sound := by
  have h' := h.enterException s.pc (setPBX s.st s.midTransfer) irq.vector
  exact State.Sound.tick (h'.congr rfl h'.pc rfl rfl)

theorem State.Sound.restore {s : State} (h : s.Sound) (pc st : Word) : (s.restore pc st).Sound :=
  h.congr rfl (wordAligned_alignPc _) rfl rfl

/-- A return from an exception is two pops and the restoring of PC and ST. -/
theorem State.returnFromException_eq (s : State) :
    s.returnFromException =
      match s.params.intFrame with
      | .pcFirst => s.pop32.2.pop32.2.restore s.pop32.2.pop32.1 s.pop32.1
      | .stFirst => s.pop32.2.pop32.2.restore s.pop32.1 s.pop32.2.pop32.1 := by
  unfold State.returnFromException
  cases s.params.intFrame <;> simp only

theorem State.Sound.returnFromException {s : State} (h : s.Sound) : s.returnFromException.Sound := by
  rw [State.returnFromException_eq]
  cases s.params.intFrame <;> exact h.pop32.pop32.restore _ _

/-- Two 32-bit slots on top of the stack do not meet, and both lie in the 64 bits of the frame. -/
theorem frame_slots (sp x : Word) :
    ((x - (sp - 32#32)).toNat < 32 → ¬ (x - (sp - 64#32)).toNat < 32 ∧ (x - (sp - 64#32)).toNat < 64) ∧
      ((x - (sp - 64#32)).toNat < 32 → (x - (sp - 64#32)).toNat < 64) := by
  have e : x - (sp - 64#32) = (x - (sp - 32#32)) + 32#32 := by
    have : (64#32 : Word) = 32#32 + 32#32 := rfl
    rw [this]; ring
  rw [e, BitVec.toNat_add]
  generalize (x - (sp - 32#32)).toNat = n
  have h32 : (32#32 : Word).toNat = 32 := rfl
  rw [h32]
  refine ⟨fun h => ⟨by omega, by omega⟩, fun h => by omega⟩

/-- Two values pushed one after the other. -/
theorem State.readBit_push32_push32_of_quiet {s : State} (h : s.inside = []) (v w x : Word) :
    ((s.push32 v).push32 w).mem.readBit x =
      if x = s.hltAddr then s.mem.readBit x
      else if (x - (s.sp - 64#32)).toNat < 32 then w.getLsbD (x - (s.sp - 64#32)).toNat
      else if (x - (s.sp - 32#32)).toNat < 32 then v.getLsbD (x - (s.sp - 32#32)).toNat
      else s.mem.readBit x := by
  have hh : (s.push32 v).hltAddr = s.hltAddr := State.hltAddr_congr (State.params_push32 s v)
  have hsp : (s.push32 v).sp - 32#32 = s.sp - 64#32 := by
    rw [State.sp_push32, sub_sub]; rfl
  rw [State.readBit_push32_of_quiet (State.inside_push32_of_quiet h v), State.readBit_push32_of_quiet h, hh, hsp]
  split_ifs <;> rfl

/-- The frame that an exception leaves in memory. -/
theorem State.holdsFrame_pushFrame {s : State} (h : s.inside = []) (pc st : Word) :
    s.HoldsFrame (s.pushFrame pc st) pc st := by
  have hmem := State.readBit_push32_push32_of_quiet h
  refine ⟨fun x hx hh => ?_, fun x hx hh => ?_, State.hlt_pushFrame_of_quiet h pc st, fun x hx => ?_⟩
  · rw [covers_iff] at hx
    unfold State.pushFrame
    unfold State.framePc at *
    cases hf : s.params.intFrame <;> simp only [hf] at hx ⊢ <;> rw [hmem, if_neg hh]
    · rw [if_neg ((frame_slots s.sp x).1 hx).1, if_pos hx]
    · rw [if_pos hx]
  · rw [covers_iff] at hx
    unfold State.pushFrame
    unfold State.frameSt at *
    cases hf : s.params.intFrame <;> simp only [hf] at hx ⊢ <;> rw [hmem, if_neg hh]
    · rw [if_pos hx]
    · rw [if_neg ((frame_slots s.sp x).1 hx).1, if_pos hx]
  · have hx' : ¬ (x - (s.sp - 64#32)).toNat < 64 := by rw [← covers_iff, hx]; decide
    unfold State.pushFrame
    cases s.params.intFrame <;> simp only <;>
      rw [hmem, if_neg (fun h => hx' ((frame_slots s.sp x).2 h)), if_neg (fun h => hx' ((frame_slots s.sp x).1 h).2),
        ite_self]

/-- Taking an exception, said once (R231): what it saves and where, what it leaves of memory and the cache, and the new
PC and ST. -/
theorem State.enterException_spec (s : State) (pc st target : Word) :
    s.TakesException (s.enterException pc st target) pc st target := by
  refine ⟨(s.onlyMemory_pushFrame pc st).sp, fun h => ?_, s.cache_pushFrame pc st, rfl, rfl⟩
  obtain ⟨h1, h2, h3, h4⟩ := State.holdsFrame_pushFrame h pc st
  exact ⟨h1, h2, h3, h4⟩

end Sys2Proof.Machine
end

