-- ==== Sys2Proof/Laws/Cache.lean ====
section
/-! SUPPORT. The laws of the instruction cache: the order of the LRU stack, what a lookup finds, what a fetch changes and
returns. -/

namespace Sys2Proof.Machine

/-! ### Vectors -/

theorem vector_get_set {α : Type} {n : Nat} (v : Vector α n) (i j : Fin n) (x : α) :
    (v.set i x).get j = if j = i then x else v.get j := by
  change (v.set i.val x i.isLt)[j.val] = if j = i then x else v[j.val]
  rw [Vector.getElem_set]
  by_cases h : j = i
  · rw [if_pos h, if_pos (congrArg Fin.val h.symm)]
  · rw [if_neg h, if_neg (fun e => h (Fin.ext e.symm))]

theorem vector_get_ofFn {α : Type} {n : Nat} (f : Fin n → α) (i : Fin n) : (Vector.ofFn f).get i = f i := by
  change (Vector.ofFn f)[i.val] = f i
  rw [Vector.getElem_ofFn]

/-! ### The LRU stack (R194, R196) -/

theorem touch_perm {lru : List (Fin 4)} (h : lru.Perm [0, 1, 2, 3]) (seg : Fin 4) :
    (touch lru seg).Perm [0, 1, 2, 3] := by
  have hm : seg ∈ lru := h.mem_iff.2 (by fin_cases seg <;> simp)
  exact (List.perm_cons_erase hm).symm.trans h

/-! ### Addresses (R192) -/

/-- The parts of an aligned address make it up again. -/
theorem lineAddr_parts {a : Word} (h : wordAligned a) : lineAddr (tagOf a) (subOf a) (wordOf a) = a := by
  conv_rhs => rw [← alignPc_of_wordAligned h]
  unfold lineAddr tagOf subOf wordOf alignPc wordAddr
  apply BitVec.eq_of_getLsbD_eq
  intro i hi
  simp only [BitVec.getLsbD_append, BitVec.ofFin_toFin, BitVec.getLsbD_extractLsb']
  split_ifs <;> first | rfl | omega | skip
  · have : i - 4 < 2 := by omega
    have : i - 4 < 28 := by omega
    simp [*]
  · have : i - 4 - 2 < 3 := by omega
    have e : 6 + (i - 4 - 2) = 4 + (i - 4) := by omega
    have : i - 4 < 28 := by omega
    simp [*]
  · have : i - 4 - 2 - 3 < 23 := by omega
    have e : 9 + (i - 4 - 2 - 3) = 4 + (i - 4) := by omega
    have : i - 4 < 28 := by omega
    simp [*]

/-! ### Lookup (R198) -/

theorem Cache.mem_matching (c : Cache) (tag : BitVec 23) (seg : Fin 4) :
    seg ∈ c.matching tag ↔ (c.seg seg).ssa = tag := by
  unfold Cache.matching
  rw [List.mem_filter, beq_iff_eq]
  exact ⟨fun h => h.2, fun h => ⟨by fin_cases seg <;> simp, h⟩⟩

theorem mem_of_pickSegment {found : List (Fin 4)} {choice : Nat} {seg : Fin 4}
    (h : pickSegment found choice = some seg) : seg ∈ found := by
  match found with
  | [] => simp [pickSegment] at h
  | [g] => simp [pickSegment] at h; simp [h]
  | g :: g' :: more =>
    simp only [pickSegment, Option.some.injEq] at h
    subst h
    have hlt : choice % ((g' :: more).length + 1) < (g :: g' :: more).length := Nat.mod_lt _ (by simp)
    rw [List.getD_eq_getElem _ _ hlt]
    exact List.getElem_mem hlt

theorem pickSegment_eq_none {found : List (Fin 4)} {choice : Nat} :
    pickSegment found choice = none ↔ found = [] := by
  match found with
  | [] => simp [pickSegment]
  | [g] => simp [pickSegment]
  | g :: g' :: more => simp [pickSegment]

/-- The three outcomes of a lookup, by what the cache holds (R198). -/
theorem Cache.lookup_cases (c : Cache) (choice : Nat) (a : Word) :
    (∃ seg, c.lookup choice a = .hit seg ∧ (c.seg seg).ssa = tagOf a ∧ (c.seg seg).isPresent (subOf a) = true) ∨
    (∃ seg, c.lookup choice a = .subsegmentMiss seg ∧ (c.seg seg).ssa = tagOf a ∧
      (c.seg seg).isPresent (subOf a) = false) ∨
    (c.lookup choice a = .segmentMiss c.victim ∧ ∀ seg : Fin 4, (c.seg seg).ssa ≠ tagOf a) := by
  unfold Cache.lookup
  cases hp : pickSegment (c.matching (tagOf a)) choice with
  | none =>
    refine .inr (.inr ⟨rfl, fun seg hs => ?_⟩)
    have := (Cache.mem_matching c (tagOf a) seg).2 hs
    rw [pickSegment_eq_none.1 hp] at this
    simp at this
  | some seg =>
    have hs := (Cache.mem_matching c _ seg).1 (mem_of_pickSegment hp)
    cases hpr : (c.seg seg).isPresent (subOf a) with
    | true => exact .inl ⟨seg, by simp [hpr], hs, hpr⟩
    | false => exact .inr (.inl ⟨seg, by simp [hpr], hs, hpr⟩)

/-! ### Access (R199 to R201) -/

/-- The segment a lookup goes to. -/
def LookupResult.segment : LookupResult → Fin 4
  | .hit seg | .subsegmentMiss seg | .segmentMiss seg => seg

/-- The cache after an access that no write of the host interrupts. -/
def Cache.access (c : Cache) (m : Memory) (choice : Nat) (a : Word) : Cache :=
  match c.lookup choice a with
  | .hit seg => { c with lru := touch c.lru seg }
  | .subsegmentMiss seg => c.install seg (subOf a) (readSubsegment m (tagOf a) (subOf a))
  | .segmentMiss seg => (c.retag seg (tagOf a)).install seg (subOf a) (readSubsegment m (tagOf a) (subOf a))

theorem Cache.seg_install (c : Cache) (g seg : Fin 4) (sub : Fin 8) (line : Vector Word16 4) :
    (c.install g sub line).seg seg = if seg = g then (c.seg g).fill sub line else c.seg seg :=
  vector_get_set c.segs g seg _

theorem Cache.seg_claim (c : Cache) (g seg : Fin 4) (sub : Fin 8) :
    (c.claim g sub).seg seg =
      if seg = g then { c.seg g with present := (c.seg g).present.set sub true } else c.seg seg :=
  vector_get_set c.segs g seg _

/-- The P flag set before the reads of a load changes nothing of what the load leaves. -/
theorem Cache.install_claim (c : Cache) (g : Fin 4) (sub : Fin 8) (line : Vector Word16 4) :
    (c.claim g sub).install g sub line = c.install g sub line := by
  unfold Cache.install
  rw [Cache.seg_claim, if_pos rfl]
  simp [Cache.claim, Segment.fill, Vector.set_set]

theorem Cache.isPresent_claim (c : Cache) (g : Fin 4) (sub : Fin 8) : ((c.claim g sub).seg g).isPresent sub = true := by
  rw [Cache.seg_claim, if_pos rfl]
  exact (vector_get_set _ _ _ _).trans (if_pos rfl)

theorem Cache.seg_retag (c : Cache) (g seg : Fin 4) (tag : BitVec 23) :
    (c.retag g tag).seg seg = if seg = g then { (c.seg g).clear with ssa := tag } else c.seg seg :=
  vector_get_set c.segs g seg _

/-- The segment a fetch goes to, after the fetch: as before on a hit, else with the subsegment loaded, and on a segment
miss with the new tag and nothing else present. -/
theorem Cache.seg_access (c : Cache) (m : Memory) (choice : Nat) (a : Word) (seg : Fin 4) :
    (c.access m choice a).seg seg =
      match c.lookup choice a with
      | .hit _ => c.seg seg
      | .subsegmentMiss g =>
        if seg = g then (c.seg seg).fill (subOf a) (readSubsegment m (tagOf a) (subOf a)) else c.seg seg
      | .segmentMiss g =>
        if seg = g then { (c.seg seg).clear with ssa := tagOf a }.fill (subOf a) (readSubsegment m (tagOf a) (subOf a))
        else c.seg seg := by
  unfold Cache.access
  cases c.lookup choice a with
  | hit g => rfl
  | subsegmentMiss g =>
    simp only [Cache.seg_install]
    by_cases h : seg = g
    · subst h; simp
    · simp only [h, if_false]
  | segmentMiss g =>
    simp only [Cache.seg_install, Cache.seg_retag, if_true]
    by_cases h : seg = g
    · subst h; simp
    · simp only [h, if_false]

theorem Cache.lru_access (c : Cache) (m : Memory) (choice : Nat) (a : Word) :
    (c.access m choice a).lru = touch c.lru (c.lookup choice a).segment := by
  unfold Cache.access LookupResult.segment
  cases c.lookup choice a <;> rfl

theorem Segment.isPresent_fill (g : Segment) (line : Vector Word16 4) (sub j : Fin 8) :
    (g.fill sub line).isPresent j = if j = sub then true else g.isPresent j :=
  vector_get_set _ _ _ _

theorem Segment.line_fill (g : Segment) (line : Vector Word16 4) (sub j : Fin 8) :
    (g.fill sub line).line j = if j = sub then line else g.line j :=
  vector_get_set _ _ _ _

@[simp] theorem Segment.ssa_fill (g : Segment) (line : Vector Word16 4) (sub : Fin 8) : (g.fill sub line).ssa = g.ssa :=
  rfl

theorem readSubsegment_get (m : Memory) (tag : BitVec 23) (sub : Fin 8) (w : Fin 4) :
    (readSubsegment m tag sub).get w = m.readBits (lineAddr tag sub w) 16 := vector_get_ofFn _ _

/-! ### Fetch -/

theorem State.bypass_of_cf {s : State} (h : s.cf = true) : s.bypass = true := by simp [State.bypass, h]

theorem State.cf_congr {s t : State} (hm : t.mem = s.mem) (hp : t.params = s.params) : t.cf = s.cf := by
  unfold State.cf State.cfAddr; rw [hm, hp]

theorem State.cd_congr {s t : State} (hm : t.mem = s.mem) (hp : t.params = s.params) : t.cd = s.cd := by
  unfold State.cd State.cdAddr; rw [hm, hp]

theorem State.bypass_congr {s t : State} (hm : t.mem = s.mem) (hp : t.params = s.params) : t.bypass = s.bypass := by
  unfold State.bypass; rw [State.cf_congr hm hp, State.cd_congr hm hp]

@[simp] theorem Memory.setWidth_readZext (m : Memory) (a : Word) : (m.readZext a 16).setWidth 16 = m.readBits a 16 := by
  simp [Memory.readZext]

/-- The four words of a subsegment are read as memory holds them. -/
theorem State.loadLine_of_quiet {s : State} (h : s.inside = []) (tag : BitVec 23) (sub : Fin 8) :
    s.loadLine tag sub = (readSubsegment s.mem tag sub, s) := by
  unfold State.loadLine
  simp only [State.load_of_quiet h _ (show 16 ≤ 32 by norm_num), Memory.setWidth_readZext]
  refine Prod.ext ?_ rfl
  rfl

/-- Safety's record of rewritten subsegments after a fetch: a subsegment just loaded is in it no more. -/
def State.rewrittenAfter (s : State) (a : Word) : List (Fin 4 × Fin 8) :=
  if s.bypass then s.rewritten
  else
    match s.cache.lookup (s.fetchChoice a) a with
    | .hit _ => s.rewritten
    | .subsegmentMiss g | .segmentMiss g => s.rewritten.filter (fun c => c != (g, subOf a))

/-- The word that a fetch returns and the cache it leaves, when no write of the host interrupts it: under bypass memory's
word and the cache as it was, else the word of the cache as the access leaves it. -/
def State.fetchResult (s : State) (a : Word) : Word16 × Cache :=
  if s.bypass then (s.mem.readBits a 16, s.cache)
  else
    let c := s.cache.access s.mem (s.fetchChoice a) a
    (((c.seg (s.cache.lookup (s.fetchChoice a) a).segment).line (subOf a)).get (wordOf a), c)

/-- A fetch of one word that no write of the host interrupts, said once. -/
theorem State.fetchWord_of_quiet {s : State} (h : s.inside = []) (a : Word) :
    s.fetchWord a =
      ((s.fetchResult a).1, { s with cache := (s.fetchResult a).2, rewritten := s.rewrittenAfter a }) := by
  unfold State.fetchWord
  rw [State.cycle_of_quiet h]
  unfold State.fetchNow State.fetchResult State.rewrittenAfter
  cases hb : s.bypass with
  | true => simp only [if_true, State.load_of_quiet h _ (show 16 ≤ 32 by norm_num), Memory.setWidth_readZext]
  | false =>
    have key : ∀ (t : State) (g : Fin 4), t.inside = [] →
        t.fillFrom g a = ((readSubsegment t.mem (tagOf a) (subOf a)).get (wordOf a),
          { t with
            cache := t.cache.install g (subOf a) (readSubsegment t.mem (tagOf a) (subOf a))
            rewritten := t.rewritten.filter (fun c => c != (g, subOf a)) }) := by
      intro t g ht
      have ht' : ({ t with
          cache := t.cache.claim g (subOf a)
          rewritten := t.rewritten.filter (fun c => c != (g, subOf a)) } : State).inside = [] := ht
      unfold State.fillFrom
      simp only [State.loadLine_of_quiet ht', Cache.isPresent_claim, Cache.install_claim, if_true]
    simp only [Bool.false_eq_true, if_false]
    cases hl : s.cache.lookup (s.fetchChoice a) a with
    | hit g =>
      simp only [Cache.seg_access, hl, LookupResult.segment]
      unfold Cache.access
      rw [hl]
    | subsegmentMiss g =>
      simp only [key s g h, Cache.seg_access, hl, LookupResult.segment, if_true, Segment.line_fill]
      unfold Cache.access
      rw [hl]
    | segmentMiss g =>
      simp only [key { s with cache := s.cache.retag g (tagOf a) } g h, Cache.seg_access, hl, LookupResult.segment,
        if_true, Segment.line_fill]
      unfold Cache.access
      rw [hl]

theorem State.fetchCache_bypass_of_quiet {s : State} (hq : s.inside = []) (h : s.bypass = true) (a : Word) :
    s.fetchCache a = s.cache := by
  simp [State.fetchCache, State.fetchWord_of_quiet hq, State.fetchResult, h]

theorem State.fetchCache_of_quiet {s : State} (hq : s.inside = []) (h : s.bypass = false) (a : Word) :
    s.fetchCache a = s.cache.access s.mem (s.fetchChoice a) a := by
  simp [State.fetchCache, State.fetchWord_of_quiet hq, State.fetchResult, h]

theorem State.fetchedWord_bypass_of_quiet {s : State} (hq : s.inside = []) (h : s.bypass = true) (a : Word) :
    s.fetchedWord a = s.mem.readBits a 16 := by
  simp [State.fetchedWord, State.fetchWord_of_quiet hq, State.fetchResult, h]

theorem State.fetchedWord_of_quiet {s : State} (hq : s.inside = []) (h : s.bypass = false) (a : Word) :
    s.fetchedWord a =
      (((s.cache.access s.mem (s.fetchChoice a) a).seg (s.cache.lookup (s.fetchChoice a) a).segment).line (subOf a)).get
        (wordOf a) := by
  simp [State.fetchedWord, State.fetchWord_of_quiet hq, State.fetchResult, h]

/-- What fetching a word leaves: PC past it, the cache of the fetch, and Safety's record. -/
theorem State.advance_of_quiet {s : State} (h : s.inside = []) :
    s.advance = { s with cache := s.fetchCache s.pc, pc := s.pc + 16#32, rewritten := s.rewrittenAfter s.pc } := by
  unfold State.advance State.fetchCache
  rw [State.fetchWord_of_quiet h]

/-- Fetches do not depend on the write in flight, on the pending interrupts nor on what the outside world does next. -/
theorem State.fetchWords_outside {s : State} (h : s.inside = []) (p : Option PostedWrite) (q : List Irq) (l : List Input)
    (n : Nat) :
    ({ s with posted := p, pending := q, inputs := l } : State).fetchWords n =
      ((s.fetchWords n).1, { (s.fetchWords n).2 with posted := p, pending := q, inputs := l }) := by
  induction n generalizing s with
  | zero => rfl
  | succ n ih =>
    have h' : ({ s with posted := p, pending := q, inputs := l } : State).inside = [] := h
    have e : ({ s with posted := p, pending := q, inputs := l } : State).advance =
        { s.advance with posted := p, pending := q, inputs := l } := by
      unfold State.advance
      rw [State.fetchWord_of_quiet h, State.fetchWord_of_quiet h']
      rfl
    have e' : ({ s with posted := p, pending := q, inputs := l } : State).fetchedWord s.pc = s.fetchedWord s.pc := by
      unfold State.fetchedWord
      rw [State.fetchWord_of_quiet h, State.fetchWord_of_quiet h']
      rfl
    have hq : s.advance.inside = [] := by rw [State.advance_of_quiet h]; exact h
    simp only [State.fetchWords, e, e', ih hq]

/-- Nor does whether a PIXBLT or FILL lies at PC. -/
theorem State.blitAtPc_outside (s : State) (p : Option PostedWrite) (q : List Irq) (l : List Input)
    (m : List (Option HostWrite)) :
    ({ s with posted := p, pending := q, inputs := l, inside := m } : State).blitAtPc = s.blitAtPc := by
  have h : ({ s with inside := [] } : State).inside = [] := rfl
  have e : ({ s with posted := p, pending := q, inputs := l, inside := [] } : State).fetchedWord s.pc =
      ({ s with inside := [] } : State).fetchedWord s.pc := by
    unfold State.fetchedWord
    rw [State.fetchWord_of_quiet h, State.fetchWord_of_quiet (by rfl)]
    rfl
  unfold State.blitAtPc State.fetchInstr
  simp only [e, State.fetchWords_outside h p q l]
  generalize decode _ = d
  cases d with
  | ok r => exact isSome_blitPlanOf r.1 _ _
  | error e => rfl

/-- Nor does whether the CPU stands inside one. -/
theorem State.midTransfer_outside (s : State) (p : Option PostedWrite) (q : List Irq) (l : List Input)
    (m : List (Option HostWrite)) :
    ({ s with posted := p, pending := q, inputs := l, inside := m } : State).midTransfer = s.midTransfer := by
  unfold State.midTransfer
  rw [State.blitAtPc_outside]

/-- What fetching an instruction leaves: PC past its words, the cache of the fetches, and Safety's record. -/
theorem State.fetchWords_of_quiet {s : State} (h : s.inside = []) (n : Nat) :
    ∃ c r, (s.fetchWords n).2 = { s with cache := c, pc := s.pc + BitVec.ofNat 32 (16 * n), rewritten := r } := by
  induction n generalizing s with
  | zero => exact ⟨s.cache, s.rewritten, by simp [State.fetchWords]⟩
  | succ n ih =>
    have hr := State.advance_of_quiet h
    obtain ⟨c, r', hc⟩ := ih (s := s.advance) (by rw [hr]; exact h)
    refine ⟨c, r', ?_⟩
    have e : s.pc + 16#32 + BitVec.ofNat 32 (16 * n) = s.pc + BitVec.ofNat 32 (16 * (n + 1)) := by
      rw [add_assoc, ← BitVec.ofNat_add]; congr 2; omega
    change (s.advance.fetchWords n).2 = _
    rw [hc, hr, ← e]

/-! ### Fetches and the host's writes -/

theorem State.onlyMemory_loadLine (s : State) (tag : BitVec 23) (sub : Fin 8) : s.OnlyMemory (s.loadLine tag sub).2 :=
  (((s.onlyMemory_load _ _).trans (State.onlyMemory_load _ _ _)).trans (State.onlyMemory_load _ _ _)).trans
    (State.onlyMemory_load _ _ _)

theorem State.Sound.loadLine {s : State} (h : s.Sound) (tag : BitVec 23) (sub : Fin 8) : (s.loadLine tag sub).2.Sound :=
  (((h.load _ _).load _ _).load _ _).load _ _

theorem State.onlyMemory_fillFrom (s : State) (g : Fin 4) (a : Word) : s.OnlyMemory (s.fillFrom g a).2 := by
  have h := State.onlyMemory_loadLine
    { s with cache := s.cache.claim g (subOf a), rewritten := s.rewritten.filter (fun c => c != (g, subOf a)) } (tagOf a)
    (subOf a)
  unfold State.fillFrom
  simp only
  split_ifs <;> exact ⟨h.a, h.b, h.sp, h.pc, h.st, h.io, h.pending, h.resuming, h.suspended, h.params, h.freeCount, h.inputs⟩

theorem State.onlyMemory_fetchNow (s : State) (a : Word) : s.OnlyMemory (s.fetchNow a).2 := by
  unfold State.fetchNow
  split_ifs
  · exact s.onlyMemory_load a 16
  · cases s.cache.lookup (s.fetchChoice a) a with
    | hit g => exact ⟨rfl, rfl, rfl, rfl, rfl, rfl, rfl, rfl, rfl, rfl, rfl, rfl⟩
    | subsegmentMiss g => exact s.onlyMemory_fillFrom g a
    | segmentMiss g =>
      have h := State.onlyMemory_fillFrom { s with cache := s.cache.retag g (tagOf a) } g a
      exact ⟨h.a, h.b, h.sp, h.pc, h.st, h.io, h.pending, h.resuming, h.suspended, h.params, h.freeCount, h.inputs⟩

/-- A fetch reaches memory and the cache alone. -/
theorem State.onlyMemory_fetchWord (s : State) (a : Word) : s.OnlyMemory (s.fetchWord a).2 :=
  s.onlyMemory_cycle.trans (s.cycle.onlyMemory_fetchNow a)

/-- Fetching words moves PC past them; besides memory and the cache are reached, and nothing else changes. -/
theorem State.onlyMemory_fetchWords (s : State) (n : Nat) :
    ({ s with pc := s.pc + BitVec.ofNat 32 (16 * n) } : State).OnlyMemory (s.fetchWords n).2 := by
  induction n generalizing s with
  | zero => constructor <;> simp [State.fetchWords]
  | succ n ih =>
    have h := s.onlyMemory_fetchWord s.pc
    have h' := ih s.advance
    have e : (s.fetchWord s.pc).2.pc + 16#32 + BitVec.ofNat 32 (16 * n) = s.pc + BitVec.ofNat 32 (16 * (n + 1)) := by
      rw [h.pc, add_assoc, ← BitVec.ofNat_add]; congr 2; omega
    exact ⟨h'.a.trans h.a, h'.b.trans h.b, h'.sp.trans h.sp, h'.pc.trans e, h'.st.trans h.st, h'.io.trans h.io,
      h'.pending.trans h.pending, h'.resuming.trans h.resuming, h'.suspended.trans h.suspended,
      h'.params.trans h.params, h'.freeCount.trans h.freeCount, h'.inputs.trans h.inputs⟩

/-- A fetched instruction: PC past its words, the model's count moved on, and memory and the cache at most reached. -/
theorem State.onlyMemory_fetchInstr {s t : State} {i : Instr} (hf : s.fetchInstr = .ok (i, t)) :
    ({ s with pc := s.pc + BitVec.ofNat 32 (16 * lengthOf (s.fetchedWord s.pc)), freeCount := s.freeCount + 1 } :
      State).OnlyMemory t := by
  unfold State.fetchInstr at hf
  simp only at hf
  split at hf
  · simp only [Except.ok.injEq, Prod.mk.injEq] at hf
    obtain ⟨-, rfl⟩ := hf
    have h := s.onlyMemory_fetchWords (lengthOf (s.fetchedWord s.pc))
    exact ⟨h.a, h.b, h.sp, h.pc, h.st, h.io, h.pending, h.resuming, h.suspended, h.params,
      congrArg (· + 1) h.freeCount, h.inputs⟩
  · simp at hf

theorem State.Sound.fillFrom {s : State} (h : s.Sound) (hcf : ¬ s.cf = true) (g : Fin 4) (a : Word) :
    (s.fillFrom g a).2.Sound := by
  have h0 : ({ s with
      cache := s.cache.claim g (subOf a)
      rewritten := s.rewritten.filter (fun c => c != (g, subOf a)) } : State).Sound :=
    ⟨h.mem, h.pc, h.lru, fun e => absurd e hcf⟩
  have h' := h0.loadLine (tagOf a) (subOf a)
  unfold State.fillFrom
  simp only
  split_ifs with hp
  · refine ⟨h'.mem, h'.pc, touch_perm h'.lru g, fun e => ?_⟩
    rw [h'.flushed e] at hp
    cases hp
  · exact h'

theorem State.Sound.fetchNow {s : State} (h : s.Sound) (a : Word) : (s.fetchNow a).2.Sound := by
  unfold State.fetchNow
  split_ifs with hb
  · exact h.load a 16
  · have hcf : ¬ s.cf = true := fun e => hb (State.bypass_of_cf e)
    cases s.cache.lookup (s.fetchChoice a) a with
    | hit g => exact ⟨h.mem, h.pc, touch_perm h.lru g, fun e => absurd e hcf⟩
    | subsegmentMiss g => exact h.fillFrom hcf g a
    | segmentMiss g =>
      exact State.Sound.fillFrom (s := { s with cache := s.cache.retag g (tagOf a) })
        ⟨h.mem, h.pc, h.lru, fun e => absurd e hcf⟩ hcf g a

/-- A fetch keeps what every memory cycle keeps. -/
theorem State.Sound.fetchWord {s : State} (h : s.Sound) (a : Word) : (s.fetchWord a).2.Sound := h.cycle.fetchNow a

theorem State.Sound.advance {s : State} (h : s.Sound) : s.advance.Sound := by
  have h' := h.fetchWord s.pc
  exact h'.congr rfl (wordAligned_add h'.pc (by decide)) rfl rfl

theorem State.Sound.fetchWords {s : State} (h : s.Sound) (n : Nat) : (s.fetchWords n).2.Sound := by
  induction n generalizing s with
  | zero => exact h
  | succ n ih => exact ih h.advance

/-- A fetched instruction leaves a state that keeps it too. -/
theorem State.Sound.fetchInstr {s t : State} {i : Instr} (h : s.Sound) (hf : s.fetchInstr = .ok (i, t)) : t.Sound := by
  unfold State.fetchInstr at hf
  simp only at hf
  split at hf
  · simp only [Except.ok.injEq, Prod.mk.injEq] at hf
    obtain ⟨-, rfl⟩ := hf
    exact (h.fetchWords _).tick
  · simp at hf

/-! ### Coherence (R193, R212) -/

/-- With every copy of its subsegment equal to memory, a fetch returns memory's word. -/
theorem State.fetchedWord_of_coherentAt {s : State} (hq : s.inside = []) {a : Word} (h : s.CoherentAt a)
    (ha : wordAligned a) : s.fetchedWord a = s.mem.readBits a 16 := by
  cases hb : s.bypass with
  | true => exact State.fetchedWord_bypass_of_quiet hq hb a
  | false =>
    rw [State.fetchedWord_of_quiet hq hb]
    rcases s.cache.lookup_cases (s.fetchChoice a) a with ⟨g, hl, hs, hp⟩ | ⟨g, hl, hs, hp⟩ | ⟨hl, -⟩
    · rw [Cache.seg_access, hl]
      simp only [LookupResult.segment]
      rw [h g hs hp, readSubsegment_get, lineAddr_parts ha]
    · rw [Cache.seg_access, hl]
      simp only [LookupResult.segment, if_true]
      rw [Segment.line_fill, if_pos rfl, readSubsegment_get, lineAddr_parts ha]
    · rw [Cache.seg_access, hl]
      simp only [LookupResult.segment, if_true]
      rw [Segment.line_fill, if_pos rfl, readSubsegment_get, lineAddr_parts ha]

/-- A fetch, of whatever word, keeps every copy of an address's subsegment equal to memory. -/
theorem State.CoherentAt.advance {s : State} (hq : s.inside = []) {a : Word} (h : s.CoherentAt a) :
    s.advance.CoherentAt a := by
  have hr := State.advance_of_quiet hq
  intro seg hs hp
  rw [hr] at hs hp ⊢
  simp only at hs hp ⊢
  cases hb : s.bypass with
  | true => rw [State.fetchCache_bypass_of_quiet hq hb] at hs hp ⊢; exact h seg hs hp
  | false =>
    rw [State.fetchCache_of_quiet hq hb] at hs hp ⊢
    rcases s.cache.lookup_cases (s.fetchChoice s.pc) s.pc with ⟨g, hl, hg, -⟩ | ⟨g, hl, hg, -⟩ | ⟨hl, -⟩
    · rw [Cache.seg_access, hl] at hs hp ⊢; exact h seg hs hp
    · rw [Cache.seg_access, hl] at hs hp ⊢
      simp only at hs hp ⊢
      split_ifs at hs hp ⊢ with hsg
      · subst hsg
        rw [Segment.ssa_fill] at hs
        rw [Segment.isPresent_fill] at hp
        rw [Segment.line_fill]
        split_ifs at hp ⊢ with hj
        · rw [hj, ← hs, hg]
        · exact h seg hs hp
      · exact h seg hs hp
    · rw [Cache.seg_access, hl] at hs hp ⊢
      simp only at hs hp ⊢
      split_ifs at hs hp ⊢ with hsg
      · have hs' : tagOf s.pc = tagOf a := hs
        rw [Segment.isPresent_fill] at hp
        rw [Segment.line_fill]
        split_ifs at hp ⊢ with hj
        · rw [hj, hs']
        · exact absurd ((Segment.isPresent_clear (s.cache.seg seg) (subOf a)).symm.trans hp) (by decide)
      · exact h seg hs hp

end Sys2Proof.Machine
end

