-- ==== Sys2Proof/Laws/PerInstr.lean ====
section
/-! SUPPORT. What holds of every instruction as syntax, one lemma per instruction. -/

namespace Sys2Proof.Laws.WordCount

/-- An instruction is encoded in as many words as `Instr.words` says, one to three (R80, R91). -/
def Statement (i : Instr) : Prop := (encode i).length = i.words ∧ 1 ≤ i.words ∧ i.words ≤ 3

theorem moveSame (f : RFile) (src : RegIdx) (dst : RegIdx) : Statement (.moveSame f src dst) := ⟨rfl, by simp [Instr.words], by simp [Instr.words]⟩
theorem moveOther (f : RFile) (src : RegIdx) (dst : RegIdx) : Statement (.moveOther f src dst) := ⟨rfl, by simp [Instr.words], by simp [Instr.words]⟩
theorem moviIW (f : RFile) (dst : RegIdx) (imm : Word16) : Statement (.moviIW f dst imm) := ⟨rfl, by simp [Instr.words], by simp [Instr.words]⟩
theorem moviIL (f : RFile) (dst : RegIdx) (imm : Word) : Statement (.moviIL f dst imm) := ⟨rfl, by simp [Instr.words], by simp [Instr.words]⟩
theorem addiIW (f : RFile) (dst : RegIdx) (imm : Word16) : Statement (.addiIW f dst imm) := ⟨rfl, by simp [Instr.words], by simp [Instr.words]⟩
theorem addiIL (f : RFile) (dst : RegIdx) (imm : Word) : Statement (.addiIL f dst imm) := ⟨rfl, by simp [Instr.words], by simp [Instr.words]⟩
theorem subxy (f : RFile) (src : RegIdx) (dst : RegIdx) : Statement (.subxy f src dst) := ⟨rfl, by simp [Instr.words], by simp [Instr.words]⟩
theorem pixbltLL : Statement .pixbltLL := ⟨rfl, by simp [Instr.words], by simp [Instr.words]⟩
theorem pixbltLXY : Statement .pixbltLXY := ⟨rfl, by simp [Instr.words], by simp [Instr.words]⟩
theorem pixbltXYL : Statement .pixbltXYL := ⟨rfl, by simp [Instr.words], by simp [Instr.words]⟩
theorem pixbltXYXY : Statement .pixbltXYXY := ⟨rfl, by simp [Instr.words], by simp [Instr.words]⟩
theorem pixbltBL : Statement .pixbltBL := ⟨rfl, by simp [Instr.words], by simp [Instr.words]⟩
theorem pixbltBXY : Statement .pixbltBXY := ⟨rfl, by simp [Instr.words], by simp [Instr.words]⟩
theorem fillL : Statement .fillL := ⟨rfl, by simp [Instr.words], by simp [Instr.words]⟩
theorem fillXY : Statement .fillXY := ⟨rfl, by simp [Instr.words], by simp [Instr.words]⟩
theorem line (z : Bool) : Statement (.line z) := ⟨rfl, by simp [Instr.words], by simp [Instr.words]⟩
theorem drav (f : RFile) (src : RegIdx) (dst : RegIdx) : Statement (.drav f src dst) := ⟨rfl, by simp [Instr.words], by simp [Instr.words]⟩
theorem cvxyl (f : RFile) (src : RegIdx) (dst : RegIdx) : Statement (.cvxyl f src dst) := ⟨rfl, by simp [Instr.words], by simp [Instr.words]⟩
theorem cpw (f : RFile) (src : RegIdx) (dst : RegIdx) : Statement (.cpw f src dst) := ⟨rfl, by simp [Instr.words], by simp [Instr.words]⟩
theorem pixtToXY (f : RFile) (src : RegIdx) (dst : RegIdx) : Statement (.pixtToXY f src dst) := ⟨rfl, by simp [Instr.words], by simp [Instr.words]⟩
theorem pixtFromXY (f : RFile) (src : RegIdx) (dst : RegIdx) : Statement (.pixtFromXY f src dst) := ⟨rfl, by simp [Instr.words], by simp [Instr.words]⟩
theorem pixtXYToXY (f : RFile) (src : RegIdx) (dst : RegIdx) : Statement (.pixtXYToXY f src dst) := ⟨rfl, by simp [Instr.words], by simp [Instr.words]⟩
theorem trap (n : BitVec 5) : Statement (.trap n) := ⟨rfl, by simp [Instr.words], by simp [Instr.words]⟩
theorem calla (addr : Word) : Statement (.calla addr) := ⟨rfl, by simp [Instr.words], by simp [Instr.words]⟩
theorem callRs (f : RFile) (src : RegIdx) : Statement (.callRs f src) := ⟨rfl, by simp [Instr.words], by simp [Instr.words]⟩
theorem jacc (c : BitVec 4) (addr : Word) : Statement (.jacc c addr) := ⟨rfl, by simp [Instr.words], by simp [Instr.words]⟩
theorem jrcc8 (c : BitVec 4) (disp : BitVec 8) : Statement (.jrcc8 c disp) := ⟨rfl, by simp [Instr.words], by simp [Instr.words]⟩
theorem jrcc16 (c : BitVec 4) (disp : Word16) : Statement (.jrcc16 c disp) := ⟨rfl, by simp [Instr.words], by simp [Instr.words]⟩
theorem dsj (f : RFile) (dst : RegIdx) (disp : Word16) : Statement (.dsj f dst disp) := ⟨rfl, by simp [Instr.words], by simp [Instr.words]⟩
theorem dsjeq (f : RFile) (dst : RegIdx) (disp : Word16) : Statement (.dsjeq f dst disp) := ⟨rfl, by simp [Instr.words], by simp [Instr.words]⟩
theorem dsjne (f : RFile) (dst : RegIdx) (disp : Word16) : Statement (.dsjne f dst disp) := ⟨rfl, by simp [Instr.words], by simp [Instr.words]⟩
theorem dsjs (back : Bool) (offset : BitVec 5) (f : RFile) (dst : RegIdx) : Statement (.dsjs back offset f dst) := ⟨rfl, by simp [Instr.words], by simp [Instr.words]⟩
theorem jump (f : RFile) (src : RegIdx) : Statement (.jump f src) := ⟨rfl, by simp [Instr.words], by simp [Instr.words]⟩
theorem exgpc (f : RFile) (dst : RegIdx) : Statement (.exgpc f dst) := ⟨rfl, by simp [Instr.words], by simp [Instr.words]⟩
theorem rets (n : BitVec 5) : Statement (.rets n) := ⟨rfl, by simp [Instr.words], by simp [Instr.words]⟩
theorem reti : Statement .reti := ⟨rfl, by simp [Instr.words], by simp [Instr.words]⟩

end Sys2Proof.Laws.WordCount
end

