-- ==== Sys2Proof/Laws/Registers.lean ====
section
/-! SUPPORT. The laws of the registers: reading after writing, and what a write keeps (R12, R101). -/

namespace Sys2Proof.Machine

/-- A register read after a register is written: the value where the two designators name one register, else the value
there before. -/
theorem State.readReg_writeReg (s : State) (f g : RFile) (i j : RegIdx) (v : Word) :
    (s.writeReg f i v).readReg g j = if sameRegister f i g j then v else s.readReg g j := by
  unfold State.readReg State.writeReg
  by_cases hi : i.val < 15 <;> by_cases hj : j.val < 15
  · have h15 : i ≠ 15 := fun h => by subst h; exact absurd hi (by decide)
    cases f <;> cases g <;> by_cases hij : i = j <;>
      simp_all [sameRegister, Fin.ext_iff]
  · have : i ≠ j := fun h => hj (h ▸ hi)
    cases f <;> cases g <;> simp [hi, hj, sameRegister, this]
  · have : i ≠ j := fun h => hi (h ▸ hj)
    cases f <;> cases g <;> simp [hi, hj, sameRegister, this]
  · have e : i = 15 := by apply Fin.ext; have := i.isLt; simp; omega
    have e' : j = 15 := by apply Fin.ext; have := j.isLt; simp; omega
    simp [sameRegister, e, e']

/-- The register written reads as the value. -/
@[simp] theorem State.readReg_writeReg_self (s : State) (f : RFile) (i : RegIdx) (v : Word) :
    (s.writeReg f i v).readReg f i = v := by
  rw [State.readReg_writeReg, if_pos ⟨rfl, .inr rfl⟩]

/-- SP is index 15 of either file. -/
theorem State.readReg_sp (s : State) (f : RFile) : s.readReg f 15 = s.sp := rfl

/-- Registers depend on A, B and SP alone. -/
theorem State.readReg_congr {s t : State} (ha : t.a = s.a) (hb : t.b = s.b) (hsp : t.sp = s.sp)
    (f : RFile) (i : RegIdx) : t.readReg f i = s.readReg f i := by
  unfold State.readReg; rw [ha, hb, hsp]

@[simp] theorem State.pc_writeReg (s : State) (f : RFile) (i : RegIdx) (v : Word) :
    (s.writeReg f i v).pc = s.pc := by
  unfold State.writeReg; split_ifs <;> cases f <;> rfl

@[simp] theorem State.st_writeReg (s : State) (f : RFile) (i : RegIdx) (v : Word) :
    (s.writeReg f i v).st = s.st := by
  unfold State.writeReg; split_ifs <;> cases f <;> rfl

@[simp] theorem State.cache_writeReg (s : State) (f : RFile) (i : RegIdx) (v : Word) :
    (s.writeReg f i v).cache = s.cache := by
  unfold State.writeReg; split_ifs <;> cases f <;> rfl

@[simp] theorem State.mem_writeReg (s : State) (f : RFile) (i : RegIdx) (v : Word) :
    (s.writeReg f i v).mem = s.mem := by
  unfold State.writeReg; split_ifs <;> cases f <;> rfl

@[simp] theorem State.io_writeReg (s : State) (f : RFile) (i : RegIdx) (v : Word) :
    (s.writeReg f i v).io = s.io := by
  unfold State.writeReg; split_ifs <;> cases f <;> rfl

@[simp] theorem State.pending_writeReg (s : State) (f : RFile) (i : RegIdx) (v : Word) :
    (s.writeReg f i v).pending = s.pending := by
  unfold State.writeReg; split_ifs <;> cases f <;> rfl

@[simp] theorem State.suspended_writeReg (s : State) (f : RFile) (i : RegIdx) (v : Word) :
    (s.writeReg f i v).suspended = s.suspended := by
  unfold State.writeReg; split_ifs <;> cases f <;> rfl

@[simp] theorem State.params_writeReg (s : State) (f : RFile) (i : RegIdx) (v : Word) :
    (s.writeReg f i v).params = s.params := by
  unfold State.writeReg; split_ifs <;> cases f <;> rfl

@[simp] theorem State.freeCount_writeReg (s : State) (f : RFile) (i : RegIdx) (v : Word) :
    (s.writeReg f i v).freeCount = s.freeCount := by
  unfold State.writeReg; split_ifs <;> cases f <;> rfl

@[simp] theorem State.inputs_writeReg (s : State) (f : RFile) (i : RegIdx) (v : Word) :
    (s.writeReg f i v).inputs = s.inputs := by
  unfold State.writeReg; split_ifs <;> cases f <;> rfl

@[simp] theorem State.posted_writeReg (s : State) (f : RFile) (i : RegIdx) (v : Word) :
    (s.writeReg f i v).posted = s.posted := by
  unfold State.writeReg; split_ifs <;> cases f <;> rfl

@[simp] theorem State.resuming_writeReg (s : State) (f : RFile) (i : RegIdx) (v : Word) :
    (s.writeReg f i v).resuming = s.resuming := by
  unfold State.writeReg; split_ifs <;> cases f <;> rfl

@[simp] theorem State.inside_writeReg (s : State) (f : RFile) (i : RegIdx) (v : Word) :
    (s.writeReg f i v).inside = s.inside := by
  unfold State.writeReg; split_ifs <;> cases f <;> rfl

@[simp] theorem State.rewritten_writeReg (s : State) (f : RFile) (i : RegIdx) (v : Word) :
    (s.writeReg f i v).rewritten = s.rewritten := by
  unfold State.writeReg; split_ifs <;> cases f <;> rfl

/-- The register a field is loaded into reads as the field's value (R58). -/
@[simp] theorem State.readReg_fieldLoad_self (s : State) (k : FieldSel) (f : RFile) (i : RegIdx) (a : Word) :
    (s.fieldLoad k f i a).readReg f i = (s.readField k a).1 := State.readReg_writeReg_self _ _ _ _

/-- SP read back through either file after index 15 of one of them is written (R12). -/
theorem State.writeReg_sp (s : State) (f g : RFile) (v : Word) :
    (s.writeReg f 15 v).sp = v ∧ (s.writeReg f 15 v).readReg g 15 = v := ⟨rfl, rfl⟩

end Sys2Proof.Machine
end

