-- ==== Sys2Proof/Laws/Pixels.lean ====
section
/-! SUPPORT. What drawing pixels and carrying out a plan can do, said once. -/

namespace Sys2Proof.Machine

/-! ### One pixel -/

theorem State.onlyMemory_sourcePixel (s : State) (op : PixelOp) : s.OnlyMemory (s.sourcePixel op).2 := by
  unfold State.sourcePixel
  cases op.src <;> first | exact .refl s | exact s.onlyMemory_load _ _

theorem State.cache_sourcePixel (s : State) (op : PixelOp) : s.KeepsCacheOrFlushes (s.sourcePixel op).2 := by
  unfold State.sourcePixel
  cases op.src <;> first | exact .inl rfl | exact s.cache_load _ _

theorem State.Sound.sourcePixel {s : State} (h : s.Sound) (op : PixelOp) : (s.sourcePixel op).2.Sound := by
  unfold State.sourcePixel
  cases op.src <;> first | exact h | exact h.load _ _

theorem State.onlyMemory_resultPixel (s : State) (op : PixelOp) : s.OnlyMemory (s.resultPixel op).2 := by
  unfold State.resultPixel
  simp only
  split_ifs
  · exact (s.onlyMemory_sourcePixel op).trans (State.onlyMemory_load _ _ _)
  · exact s.onlyMemory_sourcePixel op

theorem State.cache_resultPixel (s : State) (op : PixelOp) : s.KeepsCacheOrFlushes (s.resultPixel op).2 := by
  unfold State.resultPixel
  simp only
  split_ifs
  · exact (s.cache_sourcePixel op).trans (State.cache_load _ _ _)
  · exact s.cache_sourcePixel op

theorem State.Sound.resultPixel {s : State} (h : s.Sound) (op : PixelOp) : (s.resultPixel op).2.Sound := by
  unfold State.resultPixel
  simp only
  split_ifs
  · exact (h.sourcePixel op).load _ _
  · exact h.sourcePixel op

/-- A pixel changes memory and, where it writes 1 to CF, flushes the cache; nothing else. -/
theorem State.onlyMemory_drawPixel (s : State) (op : PixelOp) : s.OnlyMemory (s.drawPixel op) :=
  (s.onlyMemory_resultPixel op).trans (State.onlyMemory_store _ _ _ _)

theorem State.cache_drawPixel (s : State) (op : PixelOp) : s.KeepsCacheOrFlushes (s.drawPixel op) :=
  (s.cache_resultPixel op).trans (State.cache_store _ _ _ _)

theorem State.Sound.drawPixel {s : State} (h : s.Sound) (op : PixelOp) : (s.drawPixel op).Sound :=
  (h.resultPixel op).store _ _ _

theorem pixelSize_le (io : GfxRegs) : (io.pixelSize : Nat) ≤ 32 := by
  have := io.pixelSize.isLt
  omega

theorem State.snd_sourcePixel_of_quiet {s : State} (h : s.inside = []) (op : PixelOp) : (s.sourcePixel op).2 = s := by
  unfold State.sourcePixel
  cases op.src <;> simp only [State.load_of_quiet h _ (pixelSize_le s.io), State.load_of_quiet h _ (show 1 ≤ 32 by norm_num)]

theorem State.snd_resultPixel_of_quiet {s : State} (h : s.inside = []) (op : PixelOp) : (s.resultPixel op).2 = s := by
  unfold State.resultPixel
  simp only [State.snd_sourcePixel_of_quiet h, State.load_of_quiet h _ (pixelSize_le s.io)]
  split_ifs <;> rfl

/-- With plain pixels the pixel left is the source pixel. -/
theorem State.resultPixel_of_plain {s : State} (h : GfxRegs.processes s.io = false) (op : PixelOp) :
    s.resultPixel op = s.sourcePixel op := by
  unfold State.resultPixel
  simp [h]

theorem State.drawPixel_of_quiet {s : State} (h : s.inside = []) (op : PixelOp) :
    s.drawPixel op = s.store (PixelOp.start op) op.len ((s.resultPixel op).1 >>> op.lo) := by
  unfold State.drawPixel
  simp only [State.snd_resultPixel_of_quiet h]

theorem State.inside_drawPixel_of_quiet {s : State} (h : s.inside = []) (op : PixelOp) :
    (s.drawPixel op).inside = [] := by
  rw [State.drawPixel_of_quiet h]; exact State.inside_store_of_quiet h _ _ _

theorem State.hlt_drawPixel_of_quiet {s : State} (h : s.inside = []) (op : PixelOp) : (s.drawPixel op).hlt = s.hlt := by
  rw [State.drawPixel_of_quiet h]; exact State.hlt_store_of_quiet h _ _ _

/-- The bits of one transfer: HLT as it was, the bits it covers those of the pixel left, the others as before. -/
theorem State.readBit_drawPixel_of_quiet {s : State} (h : s.inside = []) (op : PixelOp) (x : Word)
    (hn : op.len ≤ 2 ^ 32) :
    (s.drawPixel op).mem.readBit x =
      if x = s.hltAddr then s.mem.readBit x
      else if covers (PixelOp.start op) op.len x then
        (s.resultPixel op).1.getLsbD (op.lo + (x - PixelOp.start op).toNat)
      else s.mem.readBit x := by
  rw [State.drawPixel_of_quiet h, State.readBit_store_of_quiet h _ _ _ hn, BitVec.getLsbD_ushiftRight]
  simp only [covers, decide_eq_true_eq]

theorem State.readBit_drawPixel_of_not_covers {s : State} (h : s.inside = []) (op : PixelOp) {x : Word}
    (hc : covers (PixelOp.start op) op.len x = false) : (s.drawPixel op).mem.readBit x = s.mem.readBit x := by
  rw [State.drawPixel_of_quiet h]; exact State.readBit_store_of_not_covers h hc

/-! ### Many pixels -/

@[simp] theorem State.drawPixels_nil (s : State) : s.drawPixels [] = s := rfl

theorem State.drawPixels_cons (s : State) (op : PixelOp) (ops : List PixelOp) :
    s.drawPixels (op :: ops) = (s.drawPixel op).drawPixels ops := rfl

theorem State.drawPixels_append (s : State) (ops ops' : List PixelOp) :
    s.drawPixels (ops ++ ops') = (s.drawPixels ops).drawPixels ops' := List.foldl_append

/-- Pixels change memory and may flush the cache; nothing else. -/
theorem State.onlyMemory_drawPixels (s : State) (ops : List PixelOp) : s.OnlyMemory (s.drawPixels ops) :=
  State.onlyMemory_foldl State.onlyMemory_drawPixel ops s

theorem State.cache_drawPixels (s : State) (ops : List PixelOp) : s.KeepsCacheOrFlushes (s.drawPixels ops) :=
  State.cache_foldl State.cache_drawPixel ops s

theorem State.Sound.drawPixels {s : State} (h : s.Sound) (ops : List PixelOp) : (s.drawPixels ops).Sound := by
  induction ops generalizing s with
  | nil => exact h
  | cons op ops ih => exact ih (h.drawPixel op)

theorem State.inside_drawPixels_of_quiet {s : State} (h : s.inside = []) (ops : List PixelOp) :
    (s.drawPixels ops).inside = [] := by
  induction ops generalizing s with
  | nil => exact h
  | cons op ops ih => exact ih (State.inside_drawPixel_of_quiet h op)

theorem State.hlt_drawPixels_of_quiet {s : State} (h : s.inside = []) (ops : List PixelOp) :
    (s.drawPixels ops).hlt = s.hlt := by
  induction ops generalizing s with
  | nil => rfl
  | cons op ops ih =>
    rw [State.drawPixels_cons, ih (State.inside_drawPixel_of_quiet h op), State.hlt_drawPixel_of_quiet h]

/-- Pixels change no bit outside the places they are drawn at. -/
theorem State.readBit_drawPixels_of_not_covers {s : State} (h : s.inside = []) (ops : List PixelOp) {x : Word}
    (hc : ∀ op ∈ ops, covers (PixelOp.start op) op.len x = false) :
    (s.drawPixels ops).mem.readBit x = s.mem.readBit x := by
  induction ops generalizing s with
  | nil => rfl
  | cons op ops ih =>
    rw [State.drawPixels_cons,
      ih (State.inside_drawPixel_of_quiet h op) (fun o ho => hc o (List.mem_cons_of_mem _ ho))]
    exact State.readBit_drawPixel_of_not_covers h op (hc op List.mem_cons_self)

/-- Drawing, said once. -/
theorem State.draws_drawPixels (s : State) (ops : List PixelOp) : s.Draws (s.drawPixels ops) (spotsOf ops) :=
  ⟨fun h _ hx => State.readBit_drawPixels_of_not_covers h ops
      (fun op ho => hx _ (List.mem_map.2 ⟨op, ho, rfl⟩)),
    fun h => State.hlt_drawPixels_of_quiet h ops, s.cache_drawPixels ops⟩

/-- A bit under drawn pixels: if, through every state that the transfers pass (`Q` holds of it), each transfer over the bit
leaves the same value there, that is its value once one of them has covered it; else it is as before. -/
theorem State.readBit_drawPixels_of_value {Q : State → Prop} {x : Word} {v : Bool} (s : State) (ops : List PixelOp)
    (h : Q s) (hQ : ∀ t, ∀ op ∈ ops, Q t → Q (t.drawPixel op)) (hx : ∀ t, Q t → t.inside = [] ∧ x ≠ t.hltAddr)
    (hn : ∀ op ∈ ops, op.len ≤ 2 ^ 32)
    (hv : ∀ t, ∀ op ∈ ops, Q t → covers (PixelOp.start op) op.len x = true →
      (t.resultPixel op).1.getLsbD (op.lo + (x - PixelOp.start op).toNat) = v) :
    ((∃ op ∈ ops, covers (PixelOp.start op) op.len x = true) → (s.drawPixels ops).mem.readBit x = v) ∧
      (s.mem.readBit x = v → (s.drawPixels ops).mem.readBit x = v) := by
  induction ops generalizing s with
  | nil => exact ⟨fun ⟨_, ho, _⟩ => absurd ho List.not_mem_nil, fun e => e⟩
  | cons op ops ih =>
    obtain ⟨hq, hne⟩ := hx s h
    have hbit := State.readBit_drawPixel_of_quiet hq op x (hn op List.mem_cons_self)
    rw [if_neg hne] at hbit
    have hnow : covers (PixelOp.start op) op.len x = true → (s.drawPixel op).mem.readBit x = v := by
      intro hc
      rw [hbit, if_pos hc]
      exact hv s op List.mem_cons_self h hc
    obtain ⟨ih1, ih2⟩ := ih (s.drawPixel op) (hQ s op List.mem_cons_self h)
      (fun t o ho => hQ t o (List.mem_cons_of_mem _ ho)) (fun o ho => hn o (List.mem_cons_of_mem _ ho))
      (fun t o ho => hv t o (List.mem_cons_of_mem _ ho))
    rw [State.drawPixels_cons]
    refine ⟨?_, fun e => ih2 ?_⟩
    · rintro ⟨o, ho, hc⟩
      rcases List.mem_cons.1 ho with rfl | ho
      · exact ih2 (hnow hc)
      · exact ih1 ⟨o, ho, hc⟩
    · by_cases hc : covers (PixelOp.start op) op.len x = true
      · exact hnow hc
      · rw [hbit, if_neg hc]; exact e

/-! ### A pixel word by word (R233) -/

theorem PixelOp.of_mem_byWord {op q : PixelOp} (h : q ∈ PixelOp.byWord op) :
    q.src = op.src ∧ q.dst = op.dst ∧ q.lo + q.len ≤ op.len := by
  obtain ⟨p, hp, rfl⟩ := List.mem_map.1 h
  exact ⟨rfl, rfl, le_of_mem_wordPieces hp⟩

/-- The words of a pixel cover the pixel. -/
theorem PixelOp.exists_byWord_iff (op : PixelOp) (hn : op.len ≤ 2 ^ 32) (x : Word) :
    (∃ q ∈ PixelOp.byWord op, covers (PixelOp.start q) q.len x = true) ↔ covers op.dst op.len x = true := by
  unfold PixelOp.byWord
  rw [covers_iff, ← exists_wordPieces_iff op.dst]
  constructor
  · rintro ⟨q, hq, hc⟩
    obtain ⟨p, hp, rfl⟩ := List.mem_map.1 hq
    exact ⟨p, hp, (covers_piece_iff op.dst x ((le_of_mem_wordPieces hp).trans hn)).1 hc⟩
  · rintro ⟨p, hp, hc⟩
    exact ⟨_, List.mem_map.2 ⟨p, hp, rfl⟩, (covers_piece_iff op.dst x ((le_of_mem_wordPieces hp).trans hn)).2 hc⟩

/-- A bit of a word of a pixel, counted from the start of the pixel. -/
theorem PixelOp.offset_of_covers {q : PixelOp} (hn : q.lo + q.len ≤ 2 ^ 32) {x : Word}
    (hc : covers (PixelOp.start q) q.len x = true) : q.lo + (x - PixelOp.start q).toNat = (x - q.dst).toNat := by
  have h := (covers_piece_iff q.dst x hn).1 hc
  unfold PixelOp.start
  rw [sub_piece _ _ (by omega), if_pos h.1]
  omega

/-! ### Colours -/

/-- Bit `i` of an aligned colour is the register's bit that lies at the same place of a 16-bit memory word. -/
theorem getLsbD_alignedColor (c addr : Word) {i : Nat} (hi : i < 32) :
    (alignedColor c addr).getLsbD i = c.getLsbD ((addr.toNat + i) % 16) := by
  unfold alignedColor xHalf
  have h16 : addr.toNat % 16 < 16 := Nat.mod_lt _ (by norm_num)
  have e : (addr.toNat + i) % 16 = (addr.toNat % 16 + i) % 16 := by omega
  rw [e]
  generalize addr.toNat % 16 = r at *
  simp only [BitVec.getLsbD_setWidth, BitVec.getLsbD_ushiftRight, BitVec.getLsbD_append,
    BitVec.getLsbD_extractLsb', hi, decide_true, Bool.true_and, Nat.zero_add]
  split_ifs <;> first | omega | skip
  all_goals
    first
      | (have : (r + i) % 16 = r + i := by omega
         simp only [this]; simp; omega)
      | (have : (r + i) % 16 = r + i - 16 := by omega
         simp only [this]; simp; omega)
      | (have : (r + i) % 16 = r + i - 32 := by omega
         simp only [this]; simp; omega)

/-! ### The plans (R125, R127 to R129) -/

/-- The common-rectangle function moves nothing and keeps both pitches; a FILL keeps SADDR. -/
theorem State.commonRectPlan_spec (s : State) (hasSource : Bool) :
    (s.commonRectPlan hasSource).ops = [] ∧ (s.commonRectPlan hasSource).sptch = s.sptch ∧
      (s.commonRectPlan hasSource).dptch = s.dptch ∧ (hasSource = false → (s.commonRectPlan hasSource).saddr = s.saddr) := by
  unfold State.commonRectPlan
  cases commonRectangle s.params.signedXY s.daddr s.dydx s.wstart s.wend <;> cases hasSource <;>
    exact ⟨rfl, rfl, rfl, by simp⟩

theorem State.pixbltPlan_option1 (s : State) (src : ArrayForm) (h : s.io.window = .option1) :
    s.pixbltPlan src .xy = s.commonRectPlan true := by
  simp [State.pixbltPlan, h]

theorem State.fillPlan_option1 (s : State) (h : s.io.window = .option1) : s.fillPlan .xy = s.commonRectPlan false := by
  simp [State.fillPlan, h]

/-- What every PIXBLT leaves in SPTCH, DPTCH and, but for window option 1, DYDX. -/
theorem State.pixbltPlan_kept (s : State) (src dst : ArrayForm) :
    (s.pixbltPlan src dst).sptch = s.sptch ∧ (s.pixbltPlan src dst).dptch = s.dptch ∧
      (¬ (dst = .xy ∧ s.io.window = .option1) → (s.pixbltPlan src dst).dydx = s.dydx) := by
  obtain ⟨-, h1, h2, -⟩ := s.commonRectPlan_spec true
  unfold State.pixbltPlan
  by_cases ho : (dst = .xy && s.io.window = .option1) = true
  · rw [if_pos ho]
    exact ⟨h1, h2, fun hn => absurd (by simpa using ho) hn⟩
  · rw [if_neg ho]
    by_cases he : emptyArray s.dydx = true
    · rw [if_pos he]; exact ⟨rfl, rfl, fun _ => rfl⟩
    · rw [if_neg he]; exact ⟨rfl, rfl, fun _ => rfl⟩

/-- What every FILL leaves in SADDR, SPTCH, DPTCH and, but for window option 1, DYDX. -/
theorem State.fillPlan_kept (s : State) (dst : ArrayForm) :
    (s.fillPlan dst).saddr = s.saddr ∧ (s.fillPlan dst).sptch = s.sptch ∧ (s.fillPlan dst).dptch = s.dptch ∧
      (¬ (dst = .xy ∧ s.io.window = .option1) → (s.fillPlan dst).dydx = s.dydx) := by
  obtain ⟨-, h1, h2, h3⟩ := s.commonRectPlan_spec false
  unfold State.fillPlan
  by_cases ho : (dst = .xy && s.io.window = .option1) = true
  · rw [if_pos ho]
    exact ⟨h3 rfl, h1, h2, fun hn => absurd (by simpa using ho) hn⟩
  · rw [if_neg ho]
    by_cases he : emptyArray s.dydx = true
    · rw [if_pos he]; exact ⟨rfl, rfl, rfl, fun _ => rfl⟩
    · rw [if_neg he]; exact ⟨rfl, rfl, rfl, fun _ => rfl⟩

/-- The transfers of a PIXBLT outside window option 1; a zero dimension leaves none. -/
theorem State.ops_pixbltPlan (s : State) (src dst : ArrayForm) (h : ¬ (dst = .xy ∧ s.io.window = .option1)) :
    (s.pixbltPlan src dst).ops =
      if emptyArray s.dydx then [] else
        s.arrayOps s.io.pbv s.io.pbh dst (s.destBase src dst) (s.pixbltSource src dst) := by
  unfold State.pixbltPlan
  rw [if_neg (by simpa using h)]
  by_cases he : emptyArray s.dydx = true
  · rw [if_pos he, if_pos he]; rfl
  · rw [if_neg he, if_neg he]

/-- The transfers of a FILL outside window option 1; a zero dimension leaves none. -/
theorem State.ops_fillPlan (s : State) (dst : ArrayForm) (h : ¬ (dst = .xy ∧ s.io.window = .option1)) :
    (s.fillPlan dst).ops =
      if emptyArray s.dydx then [] else
        s.arrayOps false false dst (s.fillBase dst) (fun _ _ => .color s.color1) := by
  unfold State.fillPlan
  rw [if_neg (by simpa using h)]
  by_cases he : emptyArray s.dydx = true
  · rw [if_pos he, if_pos he]; rfl
  · rw [if_neg he, if_neg he]

/-! ### Arrays -/

theorem mem_inOrder {reversed : Bool} {n k : Nat} : k ∈ inOrder reversed n ↔ k < n := by
  unfold inOrder
  split_ifs <;> simp

/-- The destination pixels of an array. -/
theorem State.mem_dsts_arrayPixels (s : State) (up left : Bool) (dst : ArrayForm) (base : Word)
    (srcOf : Nat → Nat → PixelSource) (d : Word) :
    d ∈ (s.arrayPixels up left dst base srcOf).map PixelOp.dst ↔
      ∃ row col, row < rowsOf s.dydx ∧ col < columnsOf s.dydx ∧ s.keepsElement dst row col = true ∧
        d = elementAddr base s.dptch s.io.pixelSize row col := by
  unfold State.arrayPixels
  simp only [List.mem_map, List.mem_flatMap, List.mem_filter, mem_inOrder]
  constructor
  · rintro ⟨o, ⟨row, hr, col, ⟨hc, hk⟩, rfl⟩, rfl⟩
    exact ⟨row, col, hr, hc, hk, rfl⟩
  · rintro ⟨row, col, hr, hc, hk, rfl⟩
    exact ⟨_, ⟨row, hr, col, ⟨hc, hk⟩, rfl⟩, rfl⟩

/-- The transfers of an array, element by element and word by word: an element of the array that is drawn at all, with its
source or, if the transfer overwrites that, the opened one. -/
theorem State.mem_arrayOps (s : State) (up left : Bool) (dst : ArrayForm) (base : Word)
    (srcOf : Nat → Nat → PixelSource) (op : PixelOp) :
    op ∈ s.arrayOps up left dst base srcOf ↔
      ∃ row col, row < rowsOf s.dydx ∧ col < columnsOf s.dydx ∧ s.keepsElement dst row col = true ∧
        op ∈ PixelOp.byWord (s.wholePixel
          (if PixelSource.overwritten (srcOf row col) s.io.pixelSize
              ((s.arrayPixels up left dst base srcOf).map PixelOp.dst) then PixelSource.opened (srcOf row col)
            else srcOf row col)
          (elementAddr base s.dptch s.io.pixelSize row col)) := by
  unfold State.arrayOps withoutOverlap
  rw [List.mem_flatMap]
  have hw : ∀ (b : Bool) (q : PixelOp) (src : PixelSource), q = s.wholePixel src q.dst →
      (if b then { q with src := PixelSource.opened q.src } else q) =
        s.wholePixel (if b then PixelSource.opened src else src) q.dst := by
    intro b q src hq
    rw [hq]
    cases b <;> rfl
  constructor
  · rintro ⟨q, hq, ho⟩
    obtain ⟨o, hoA, rfl⟩ := List.mem_map.1 hq
    have hoA' := hoA
    unfold State.arrayPixels at hoA'
    simp only [List.mem_map, List.mem_flatMap, List.mem_filter, mem_inOrder] at hoA'
    obtain ⟨row, hr, col, ⟨hc, hk⟩, rfl⟩ := hoA'
    refine ⟨row, col, hr, hc, hk, ?_⟩
    rw [hw _ _ (srcOf row col) rfl] at ho
    exact ho
  · rintro ⟨row, col, hr, hc, hk, ho⟩
    refine ⟨_, List.mem_map.2 ⟨s.wholePixel (srcOf row col) (elementAddr base s.dptch s.io.pixelSize row col), ?_, rfl⟩, ?_⟩
    · unfold State.arrayPixels
      simp only [List.mem_map, List.mem_flatMap, List.mem_filter, mem_inOrder]
      exact ⟨row, hr, col, ⟨hc, hk⟩, rfl⟩
    · rw [hw _ _ (srcOf row col) rfl]
      exact ho

/-! ### The B file after a plan -/

/-- B10 to B14 alone are any values. -/
theorem State.getElem_clobberTemps (s : State) (b : Vector Word 15) {i : Nat} (h : i < 10) :
    (s.clobberTemps b)[i] = b[i] := by
  unfold State.clobberTemps
  repeat rw [Vector.getElem_set_ne (by omega) (by omega) (by simp; omega)]

theorem State.saddr_finalB (s : State) (p : BlitPlan) : (s.finalB p)[0] = p.saddr := by
  rw [State.finalB, State.getElem_clobberTemps _ _ (by norm_num)]; simp

theorem State.sptch_finalB (s : State) (p : BlitPlan) : (s.finalB p)[1] = p.sptch := by
  rw [State.finalB, State.getElem_clobberTemps _ _ (by norm_num)]; simp

theorem State.daddr_finalB (s : State) (p : BlitPlan) : (s.finalB p)[2] = p.daddr := by
  rw [State.finalB, State.getElem_clobberTemps _ _ (by norm_num)]; simp

theorem State.dptch_finalB (s : State) (p : BlitPlan) : (s.finalB p)[3] = p.dptch := by
  rw [State.finalB, State.getElem_clobberTemps _ _ (by norm_num)]; simp

theorem State.dydx_finalB (s : State) (p : BlitPlan) : (s.finalB p)[7] = p.dydx := by
  rw [State.finalB, State.getElem_clobberTemps _ _ (by norm_num)]; simp

/-- OFFSET, WSTART, WEND, COLOR0 and COLOR1 are as before. -/
theorem State.kept_finalB (s : State) (p : BlitPlan) {i : Nat} (h : i < 10) (hi : 4 ≤ i) (h7 : i ≠ 7) :
    (s.finalB p)[i] = s.b[i] := by
  rw [State.finalB, State.getElem_clobberTemps _ _ h]
  repeat rw [Vector.getElem_set_ne (by omega) (by omega) (by simp; omega)]

/-! ### A plan carried out -/

@[simp] theorem State.a_finishBlit (s : State) (p : BlitPlan) : (s.finishBlit p).a = s.a :=
  (s.onlyMemory_drawPixels p.ops).a
@[simp] theorem State.sp_finishBlit (s : State) (p : BlitPlan) : (s.finishBlit p).sp = s.sp :=
  (s.onlyMemory_drawPixels p.ops).sp
@[simp] theorem State.pc_finishBlit (s : State) (p : BlitPlan) : (s.finishBlit p).pc = s.pc :=
  (s.onlyMemory_drawPixels p.ops).pc
@[simp] theorem State.io_finishBlit (s : State) (p : BlitPlan) : (s.finishBlit p).io = s.io :=
  (s.onlyMemory_drawPixels p.ops).io
@[simp] theorem State.pending_finishBlit (s : State) (p : BlitPlan) : (s.finishBlit p).pending = s.pending :=
  (s.onlyMemory_drawPixels p.ops).pending
@[simp] theorem State.params_finishBlit (s : State) (p : BlitPlan) : (s.finishBlit p).params = s.params :=
  (s.onlyMemory_drawPixels p.ops).params
@[simp] theorem State.freeCount_finishBlit (s : State) (p : BlitPlan) : (s.finishBlit p).freeCount = s.freeCount :=
  (s.onlyMemory_drawPixels p.ops).freeCount
@[simp] theorem State.inputs_finishBlit (s : State) (p : BlitPlan) : (s.finishBlit p).inputs = s.inputs :=
  (s.onlyMemory_drawPixels p.ops).inputs
@[simp] theorem State.b_finishBlit (s : State) (p : BlitPlan) : (s.finishBlit p).b = s.finalB p := rfl
@[simp] theorem State.st_finishBlit (s : State) (p : BlitPlan) : (s.finishBlit p).st = setFlags (setPBX s.st false) p.flags := rfl
@[simp] theorem State.resuming_finishBlit (s : State) (p : BlitPlan) : (s.finishBlit p).resuming = false := rfl
@[simp] theorem State.suspended_finishBlit (s : State) (p : BlitPlan) : (s.finishBlit p).suspended = s.otherContexts := rfl
@[simp] theorem State.mem_finishBlit (s : State) (p : BlitPlan) : (s.finishBlit p).mem = (s.drawPixels p.ops).mem := rfl
@[simp] theorem State.posted_finishBlit (s : State) (p : BlitPlan) : (s.finishBlit p).posted = (s.drawPixels p.ops).posted := rfl
@[simp] theorem State.cache_finishBlit (s : State) (p : BlitPlan) : (s.finishBlit p).cache = (s.drawPixels p.ops).cache := rfl
@[simp] theorem State.inside_finishBlit (s : State) (p : BlitPlan) : (s.finishBlit p).inside = (s.drawPixels p.ops).inside := rfl
@[simp] theorem State.rewritten_finishBlit (s : State) (p : BlitPlan) : (s.finishBlit p).rewritten = (s.drawPixels p.ops).rewritten := rfl

theorem State.inside_finishBlit_of_quiet {s : State} (h : s.inside = []) (p : BlitPlan) : (s.finishBlit p).inside = [] :=
  State.inside_drawPixels_of_quiet h p.ops

theorem State.Sound.finishBlit {s : State} (h : s.Sound) (p : BlitPlan) : (s.finishBlit p).Sound :=
  (h.drawPixels p.ops).congr rfl (h.drawPixels p.ops).pc rfl rfl

theorem State.Sound.interruptPlan {s : State} (h : s.Sound) (p : BlitPlan) (done : Nat) (irq : Irq) :
    (s.interruptPlan p done irq).Sound := by
  have h1 := h.drawPixels (p.ops.take done)
  refine State.Sound.tick (State.Sound.enterException ?_ _ _ _)
  exact h1.congr rfl h1.pc rfl rfl

end Sys2Proof.Machine
end

