-- ==== Sys2Proof/Tests/Slice0.lean ====
section
/-! SUPPORT. The model's own tests. Expected values come from the spec: from the vectors V, traces T, programs P and
examples E of 95_test_vectors.md, from R91's bit patterns, or by hand from the rule named. The last part shows for each
obligation with hypotheses a state and operands that meet them. -/

namespace Sys2Proof.Tests

open Sys2Proof Sys2Proof.Machine

set_option Elab.async false

/-! ### Helpers -/

/-- Words put into memory from an address on. -/
def load (m : Memory) (a : Word) : List Word16 → Memory
  | [] => m
  | w :: ws => load (m.writeBits a 16 (w.setWidth 32)) (a + 16#32) ws

/-- The reset state with words in memory at PC. -/
def program (pc : Word) (ws : List Word16) : State := { State.reset with pc, mem := load [] pc ws }

/-- The reset state with one B register. -/
def withB (i : Fin 15) (v : Word) (s : State := State.reset) : State := { s with b := s.b.set i v }

/-- The reset state with one A register. -/
def withA (i : Fin 15) (v : Word) (s : State := State.reset) : State := { s with a := s.a.set i v }

/-- Whether an outcome is a next state of which a test holds. -/
def after (o : Outcome) (p : State → Bool) : Bool :=
  match o with
  | .next t => p t
  | .fault _ => false
  | .refused _ => false

theorem exists_of_after {o : Outcome} {p : State → Bool} (h : after o p = true) : ∃ t, o = .next t ∧ p t = true := by
  cases o with
  | next t => exact ⟨t, rfl, h⟩
  | fault _ => cases h
  | refused _ => cases h

/-- The instruction that a list of words is, if it is exactly one. -/
def one (ws : List Word16) : Option Instr :=
  match decode ws with
  | .ok (i, []) => some i
  | .ok (_, _ :: _) => none
  | .error _ => none

/-! ### Well-formedness and decoding (R91) -/

theorem test_short_branch_refuses_00 : (Instr.jrcc8 3 0x00#8).wellFormed = false := by decide

theorem test_short_branch_refuses_80 : (Instr.jrcc8 3 0x80#8).wellFormed = false := by decide

theorem test_short_branch_admits_neighbours :
    (Instr.jrcc8 3 0x01#8).wellFormed = true ∧ (Instr.jrcc8 3 0x7F#8).wellFormed = true ∧
      (Instr.jrcc8 3 0x81#8).wellFormed = true ∧ (Instr.jrcc8 3 0xFF#8).wellFormed = true := by decide

/-- Bits written out: 0100110 0110 1 0111 is MOVE B6,B7. -/
theorem test_decode_general :
    one [0b0100110011010111#16] = some (.moveSame .B 6 7) ∧
    one [0b0100111000101111#16] = some (.moveOther .A 1 15) ∧
    one [0b0000100111010010#16, 0x8001#16] = some (.moviIW .B 2 0x8001#16) ∧
    one [0b0000100111100010#16, 0x5678#16, 0x1234#16] = some (.moviIL .A 2 0x12345678#32) ∧
    one [0b0000101100000011#16, 0xFFFF#16] = some (.addiIW .A 3 0xFFFF#16) ∧
    one [0b0000101100110111#16, 0x0001#16, 0x0001#16] = some (.addiIL .B 7 0x00010001#32) ∧
    one [0b1110001010110111#16] = some (.subxy .B 5 7) := by decide +kernel

theorem test_decode_arrays :
    one [0b0000111100000000#16] = some .pixbltLL ∧ one [0b0000111100100000#16] = some .pixbltLXY ∧
    one [0b0000111101000000#16] = some .pixbltXYL ∧ one [0b0000111101100000#16] = some .pixbltXYXY ∧
    one [0b0000111110000000#16] = some .pixbltBL ∧ one [0b0000111110100000#16] = some .pixbltBXY ∧
    one [0b0000111111000000#16] = some .fillL ∧ one [0b0000111111100000#16] = some .fillXY := by decide +kernel

theorem test_decode_pixels :
    one [0b1101111100011010#16] = some (.line false) ∧ one [0b1101111110011010#16] = some (.line true) ∧
    one [0b1111011001100010#16] = some (.drav .A 3 2) ∧ one [0b1110100001110010#16] = some (.cvxyl .B 3 2) ∧
    one [0b1110011001110010#16] = some (.cpw .B 3 2) ∧ one [0b1111000001100010#16] = some (.pixtToXY .A 3 2) ∧
    one [0b1111001001100010#16] = some (.pixtFromXY .A 3 2) ∧
    one [0b1111010001100010#16] = some (.pixtXYToXY .A 3 2) := by decide +kernel

theorem test_decode_calls :
    one [0b0000100100011111#16] = some (.trap 31) ∧
    one [0b0000110101011111#16, 0x3000#16, 0x0000#16] = some (.calla 0x00003000#32) ∧
    one [0b0000100100110101#16] = some (.callRs .B 5) ∧ one [0b0000000101100000#16] = some (.jump .A 0) ∧
    one [0b0000000100100001#16] = some (.exgpc .A 1) ∧ one [0b0000100101100010#16] = some (.rets 2) ∧
    one [0b0000100101000000#16] = some .reti := by decide +kernel

theorem test_decode_jumps :
    one [0b1100101010000000#16, 0x0008#16, 0xFFFF#16] = some (.jacc 10 0xFFFF0008#32) ∧
    one [0b1100101011111110#16] = some (.jrcc8 10 0xFE#8) ∧
    one [0b1100101000000000#16, 0x8000#16] = some (.jrcc16 10 0x8000#16) ∧
    one [0b0000110110000100#16, 0xFFFE#16] = some (.dsj .A 4 0xFFFE#16) ∧
    one [0b0000110110110100#16, 0xFFFE#16] = some (.dsjeq .B 4 0xFFFE#16) ∧
    one [0b0000110111000100#16, 0xFFFE#16] = some (.dsjne .A 4 0xFFFE#16) ∧
    one [0b0011110000110010#16] = some (.dsjs true 1 .B 2) ∧
    one [0b0011101000100010#16] = some (.dsjs false 17 .A 2) := by decide +kernel

/-- Words of the opcode map's gaps, and an instruction cut short. -/
theorem test_decode_refuses :
    one [0x0000#16] = none ∧ one [0xDF1B#16] = none ∧ one [0x0F01#16] = none ∧ one [0x0D5F#16, 0x3000#16] = none := by
  decide +kernel

theorem test_table_word : decodeTableWord 48 0x0001000109F8 = some (.moviIL .B 8 0x00010001#32) := by decide +kernel

/-! ### The status register (V2.1 to V2.5) -/

/-- V2.2. -/
theorem test_st_decode :
    stN 0x80200C25#32 = true ∧ stC 0x80200C25#32 = false ∧ stPBX 0x80200C25#32 = false ∧ stIE 0x80200C25#32 = true ∧
      stFieldSigned 0x80200C25#32 .field1 = true ∧ stFieldSize 0x80200C25#32 .field1 = 16 ∧
      stFieldSigned 0x80200C25#32 .field0 = true ∧ stFieldSize 0x80200C25#32 .field0 = 5 := by decide

/-- V2.3. -/
theorem test_st_fields :
    stFieldSize 0x20200808#32 .field0 = 8 ∧ stFieldSigned 0x20200808#32 .field0 = false ∧
      stFieldSize 0x20200808#32 .field1 = 32 ∧ stFieldSigned 0x20200808#32 .field1 = true ∧
      stIE 0x20200808#32 = true ∧ stZ 0x20200808#32 = true := by decide

/-- V2.4: the reserved mask. -/
theorem test_st_reserved : stReserved 0xFFFFFFFF#32 = 0x0DDFF000#32 := by decide

/-- V2.5. -/
theorem test_field_sizes :
    stFieldSize 0#32 .field0 = 32 ∧ stFieldSize 1#32 .field0 = 1 ∧ stFieldSize 0x0F#32 .field0 = 15 ∧
      stFieldSize 0x10#32 .field0 = 16 ∧ stFieldSize 0x1F#32 .field0 = 31 := by decide

theorem test_set_flags : setFlags 0x0000F010#32 0b1010#4 = 0xA000F010#32 := by decide

/-! ### Memory, fields and the stack (V2.6, V2.9) -/

/-- V2.6. -/
theorem test_field_load :
    let s := { State.reset with mem := Memory.writeBits [] 0x1003#32 5 0x16#32, st := 0x00000005#32 }
    (s.fieldLoad .field0 .A 3 0x1003#32).a[3] = 0x16#32 ∧
      (({ s with st := 0x00000025#32 }).fieldLoad .field0 .A 3 0x1003#32).a[3] = 0xFFFFFFF6#32 := by decide +kernel

theorem test_push_pop :
    let s := ({ State.reset with sp := 0x00100000#32 }).push32 0x12345678#32
    s.sp = 0x000FFFE0#32 ∧ s.mem.readBits 0x000FFFE0#32 16 = 0x5678#16 ∧ s.mem.readBits 0x000FFFF0#32 16 = 0x1234#16 ∧
      s.pop32.1 = 0x12345678#32 ∧ s.pop32.2.sp = 0x00100000#32 := by decide +kernel

theorem test_push_misaligned :
    let s := ({ State.reset with sp := 0x00100004#32 }).push32 0x12345678#32
    s.mem.readBits 0x000FFFE0#32 16 = 0x6780#16 ∧ s.mem.readBits 0x000FFFF0#32 16 = 0x2345#16 ∧
      s.mem.readBits 0x00100000#32 16 = 0x0001#16 := by decide +kernel

theorem test_push_wraps :
    let s := ({ State.reset with sp := 0x00000010#32 }).push32 0x12345678#32
    s.sp = 0xFFFFFFF0#32 ∧ s.mem.readBits 0xFFFFFFF0#32 16 = 0x5678#16 ∧ s.mem.readBits 0x0#32 16 = 0x1234#16 := by
  decide +kernel

/-- R57, D15: a host write to the low word, between the two word cycles of a push, leaves a torn return address. The eight
turns before are three fetches, the four reads of the first one's miss, and the low word. -/
theorem test_torn_push :
    after (step { program 0x12000#32 [0x0D5F#16, 0x3000#16, 0x0000#16] with
        sp := 0x00100000#32
        inputs := [.execute (List.replicate 8 none ++ [some ⟨0x000FFFE0#32, 0xAAAA#16⟩])] }) (fun t =>
      t.mem.readBits 0x000FFFE0#32 32 == 0x0001AAAA#32 && t.inside.isEmpty) = true := by decide +kernel

/-- R31 a, R63: the high word pushed is in flight; a host write to it falls before or after its arrival. -/
theorem test_write_in_flight :
    let s := ({ State.reset with sp := 0x00100000#32 }).push32 0x12345678#32
    after (step { s with inputs := [.hostWriteFirst 0x000FFFF0#32 0xBEEF#16] }) (fun t =>
      t.mem.readBits 0x000FFFF0#32 16 == 0x1234#16) = true ∧
    after (step { s with inputs := [.hostWrite 0x000FFFF0#32 0xBEEF#16] }) (fun t =>
      t.mem.readBits 0x000FFFF0#32 16 == 0xBEEF#16) = true := by decide +kernel

theorem test_zero_store_lists_nothing :
    (Memory.writeBits (Memory.writeBits [] 0x35#32 7 0x5A#32) 0x30#32 32 0#32) = [] := by decide +kernel

/-! ### The cache (V3.1 to V3.3, T1, T5) -/

/-- V3.1. -/
theorem test_partition :
    (tagOf 0x1F0#32, subOf 0x1F0#32, wordOf 0x1F0#32) = (0#23, 7, 3) ∧
      (tagOf 0x1230#32, subOf 0x1230#32, wordOf 0x1230#32) = (9#23, 0, 3) ∧
      (tagOf 0x1040#32, subOf 0x1040#32, wordOf 0x1040#32) = (8#23, 1, 0) ∧
      (tagOf 0xFFFFFFF0#32, subOf 0xFFFFFFF0#32, wordOf 0xFFFFFFF0#32) = (0x7FFFFF#23, 7, 3) := by decide

/-- V3.2. -/
theorem test_touch :
    touch [0, 1, 2, 3] 0 = [0, 1, 2, 3] ∧ touch [0, 1, 2, 3] 2 = [2, 0, 1, 3] ∧ touch [0, 1, 2, 3] 3 = [3, 0, 1, 2] ∧
      touch [2, 0, 1, 3] 3 = [3, 2, 0, 1] ∧ touch [3, 2, 0, 1] 0 = [0, 3, 2, 1] := by decide

/-- The start state of V3.3, with the four words of the subsegment present. -/
def start33 : State :=
  { State.reset with
    mem := load [] 0x1050#32 [0x1234#16]
    cache :=
      { segs :=
          #v[{ Segment.atReset 0 with ssa := 0x20#23 }, { Segment.atReset 1 with ssa := 0x21#23 },
            { Segment.atReset 2 with ssa := 0x22#23 },
            { ssa := 8#23, present := (Vector.replicate 8 false).set 0 true
              data := (Vector.replicate 8 (Vector.replicate 4 0#16)).set 0 #v[10#16, 11#16, 12#16, 13#16] }]
        lru := [1, 3, 0, 2] } }

theorem test_fetch_hit :
    start33.fetchedWord 0x1020#32 = 12#16 ∧ (start33.fetchCache 0x1020#32).lru = [3, 1, 0, 2] := by decide +kernel

theorem test_fetch_subsegment_miss :
    start33.fetchedWord 0x1050#32 = 0x1234#16 ∧ (start33.fetchCache 0x1050#32).lru = [3, 1, 0, 2] ∧
      ((start33.fetchCache 0x1050#32).seg 3).present.toList = [true, true, false, false, false, false, false, false] := by
  decide +kernel

theorem test_fetch_absent_segment : (start33.fetchCache 0x4200#32).lru = [1, 3, 0, 2] := by decide +kernel

theorem test_fetch_segment_miss :
    let c := start33.fetchCache 0x8000#32
    c.lru = [2, 1, 3, 0] ∧ (c.seg 2).ssa = 0x40#23 ∧
      (c.seg 2).present.toList = [true, false, false, false, false, false, false, false] := by decide +kernel

/-- A state with CD = 1. -/
def disabled (s : State) : State := { s with mem := s.mem.writeBit s.cdAddr true }

theorem test_fetch_disabled :
    (disabled start33).fetchedWord 0x1020#32 = 0#16 ∧ (disabled start33).fetchCache 0x1020#32 = start33.cache := by
  decide +kernel

/-- T1: five fetches of straight code. -/
theorem test_straight_line :
    let s := (program 0x1000#32 []).fetchWords 5
    s.2.cache.lru = [3, 0, 1, 2] ∧ (s.2.cache.seg 3).ssa = 8#23 ∧
      (s.2.cache.seg 3).present.toList = [true, true, false, false, false, false, false, false] := by decide +kernel

/-- T5: the old word is fetched until CF is set. -/
theorem test_stale_copy :
    let s := ((program 0x1010#32 [0x4CD7#16]).fetchWords 1).2.store 0x1010#32 16 0xE2B7#32
    let t := s.hostStore 0xC0000100#32 0x4000#16
    s.fetchedWord 0x1010#32 = 0x4CD7#16 ∧ t.cf = true ∧ t.cache.lru = [0, 1, 2, 3] ∧
      (t.hostStore 0xC0000100#32 0#16).fetchedWord 0x1010#32 = 0xE2B7#16 := by decide +kernel

/-! ### One step of each instruction -/

/-- P1, its first step. -/
theorem test_move_step :
    after (step { withB 6 0x007F01FF#32 (program 0x1000#32 [0x4CD7#16]) with inputs := [] })
      (fun t => t.readReg .B 7 == 0x007F01FF#32 && t.pc == 0x1010#32) = true := by decide +kernel

theorem test_move_cross_file :
    after (exec (.moveOther .A 3 4) (withA 3 0xDEADBEEF#32))
      (fun t => t.readReg .B 4 == 0xDEADBEEF#32 && t.readReg .A 3 == 0xDEADBEEF#32) = true := by decide +kernel

theorem test_move_to_sp :
    after (exec (.moveSame .A 0 15) (withA 0 0x00100000#32))
      (fun t => t.readReg .B 15 == 0x00100000#32 && t.readReg .A 15 == 0x00100000#32) = true := by decide +kernel

/-- V2.7: a three-word instruction at the top of memory. -/
theorem test_movi_long_wraps :
    after (step (program 0xFFFFFFE0#32 [0x09F8#16, 0x5555#16, 0x0000#16]))
      (fun t => t.readReg .B 8 == 0x00005555#32 && t.pc == 0x10#32) = true := by decide +kernel

theorem test_movi_short_extends :
    after (exec (.moviIW .A 1 0x8000#16) State.reset) (fun t => t.readReg .A 1 == 0xFFFF8000#32) = true := by
  decide +kernel

theorem test_addi_carries :
    after (exec (.addiIL .B 7 0x00010001#32) (withB 7 0x0001FFFF#32)) (fun t => t.readReg .B 7 == 0x00030000#32) = true ∧
    after (exec (.addiIL .B 7 0x00010001#32) (withB 7 0xFFFFFFFF#32)) (fun t => t.readReg .B 7 == 0x00010000#32) = true := by
  decide +kernel

theorem test_addi_short_extends :
    after (exec (.addiIW .B 7 0xFFFF#16) (withB 7 0x00000005#32)) (fun t => t.readReg .B 7 == 0x00000004#32) = true := by
  decide +kernel

theorem test_subxy_halves :
    after (exec (.subxy .B 5 7) (withB 5 0x00010006#32 (withB 7 0x00100005#32)))
      (fun t => t.readReg .B 7 == 0x000FFFFF#32) = true := by decide +kernel

theorem test_subxy_self :
    after (exec (.subxy .B 7 7) (withB 7 0x12345678#32)) (fun t => t.readReg .B 7 == 0#32) = true := by decide +kernel

/-- B registers of a 2 by 2 transfer: source >2000, destination >3004, pitches >10 and >20, COLOR0 >1234, COLOR1 >5678. -/
def transfer : State :=
  let b := #v[0x2000#32, 0x10#32, 0x3004#32, 0x20#32, 0#32, 0#32, 0#32, 0x00020002#32, 0x1234#32, 0x5678#32, 0#32, 0#32,
    0#32, 0#32, 0#32]
  { State.reset with b, mem := load [] 0x2000#32 [0x00BA#16, 0x00DC#16] }

/-- R125, R144: by hand, 4-bit pixels A, B and C, D to >3004 and >3024; the pitches kept. -/
theorem test_pixblt_ll :
    after (exec .pixbltLL transfer) (fun t =>
      t.mem.readBits 0x3000#32 16 == 0x0BA0#16 && t.mem.readBits 0x3020#32 16 == 0x0DC0#16 &&
        t.b[0] == 0x2020#32 && t.b[1] == 0x10#32 && t.b[2] == 0x3044#32 && t.b[3] == 0x20#32) = true := by decide +kernel

/-- R142, R138: source bits 0, 1 and 0, 0 select the aligned pixels of COLOR0 and COLOR1. -/
theorem test_pixblt_bl :
    after (exec .pixbltBL transfer) (fun t =>
      t.mem.readBits 0x3000#32 16 == 0x0630#16 && t.mem.readBits 0x3020#32 16 == 0x0230#16) = true := by decide +kernel

/-- R142, log 24: a source bit that the transfer itself overwrites selects COLOR0 or COLOR1, whichever it is. -/
theorem test_overlapped_bit :
    let s := withB 0 0x3004#32 (withB 7 0x00010001#32 transfer)
    (s.pixbltPlan .binary .linear).ops.map PixelOp.src = [.unknownBit 0x3004#32 0x1234#32 0x5678#32] ∧
      ∀ op : PixelOp, op.src = .unknownBit 0x3004#32 0x1234#32 0x5678#32 →
        (s.sourcePixel op).1 = alignedColor 0x1234#32 op.dst ∨ (s.sourcePixel op).1 = alignedColor 0x5678#32 op.dst := by
  refine ⟨by decide +kernel, fun op h => ?_⟩
  simp only [State.sourcePixel, h]
  split
  · exact .inr rfl
  · exact .inl rfl

/-- R149, R139. -/
theorem test_fill_l :
    after (exec .fillL transfer) (fun t =>
      t.mem.readBits 0x3000#32 16 == 0x0670#16 && t.mem.readBits 0x3020#32 16 == 0x0670#16 &&
        t.b[3] == 0x20#32) = true := by decide +kernel

/-- R129 and V2.10: DY = 0, then DX = 0. -/
theorem test_zero_dimension :
    after (exec .pixbltLL (withB 7 0x00000010#32 transfer)) (fun t => t.mem == transfer.mem) = true ∧
    after (exec .fillL (withB 7 0x00100000#32 transfer)) (fun t => t.mem == transfer.mem) = true := by decide +kernel

/-- Window option 1 with V2.10's window and a destination array. -/
def clipped (daddr dydx : Word) : State :=
  { withB 2 daddr (withB 7 dydx (withB 5 0x00100020#32 (withB 6 0x002F003F#32))) with
    io := { Config.gfxReset with window := .option1 } }

/-- V2.10: a partial overlap. -/
theorem test_fill_xy_option1 :
    after (exec .fillXY (clipped 0x0014000A#32 0x00320064#32)) (fun t =>
      t.b[2] == 0x00140020#32 && t.b[7] == 0x001C0020#32 && t.mem == []) = true := by decide +kernel

/-- A destination array of 2 by 3 pixels at the XY origin, OFFSET >3000, and a window of 2 by 2: its third column lies
outside. -/
def partlyOutside : State :=
  { withB 3 0x20#32 (withB 4 0x3000#32 (withB 6 0x00010001#32 (withB 7 0x00020003#32 (withB 9 0x5678#32)))) with
    io := { Config.gfxReset with window := .clip } }

/-- R148, R134: the origin lies at OFFSET, and clipping keeps the pixels inside. -/
theorem test_fill_xy_clipped :
    after (exec .fillXY partlyOutside) (fun t =>
      t.mem.readBits 0x3000#32 16 == 0x0078#16 && t.mem.readBits 0x3020#32 16 == 0x0078#16) = true := by decide +kernel

/-- V2.10: inside the window. -/
theorem test_pixblt_bxy_option1 :
    after (exec .pixbltBXY (clipped 0x001E0028#32 0x00040004#32)) (fun t =>
      t.b[2] == 0x001E0028#32 && t.b[7] == 0x00040004#32 && t.mem == []) = true := by decide +kernel

/-- V2.10: one pixel at the far corner. -/
theorem test_pixblt_lxy_option1 :
    after (exec .pixbltLXY (clipped 0x002F003F#32 0x00080008#32)) (fun t =>
      t.b[2] == 0x002F003F#32 && t.b[7] == 0x00010001#32 && t.mem == []) = true := by decide +kernel

/-- V2.10: no overlap. -/
theorem test_no_common_rectangle :
    commonRectangle true 0x00640064#32 0x00040004#32 0x00100020#32 0x002F003F#32 = none := by decide +kernel

theorem test_pixblt_xyxy_option1 :
    after (exec .pixbltXYXY (clipped 0x00640064#32 0x00040004#32)) (fun t => t.mem == [] && t.pc == 0#32) = true := by
  decide +kernel

/-- R127: SPTCH and DPTCH after a PIXBLT XY,L. -/
theorem test_pixblt_xyl :
    after (exec .pixbltXYL (withB 7 0#32 transfer)) (fun t =>
      t.b[1] == 0x10#32 && t.b[3] == 0x20#32 && t.mem == transfer.mem) = true := by decide +kernel

/-- V2.10: colour alignment. -/
theorem test_aligned_color :
    (alignedColor 0xFFFF1234#32 0x00#32).setWidth 4 = 4#4 ∧ (alignedColor 0xFFFF1234#32 0x14#32).setWidth 4 = 3#4 ∧
      (alignedColor 0xFFFF1234#32 0x28#32).setWidth 4 = 2#4 ∧ (alignedColor 0xFFFF1234#32 0x3C#32).setWidth 4 = 1#4 := by
  decide

/-- A window of one pixel at the origin, with clipping, and XY operands outside it. -/
def outside : State :=
  { withB 1 0x00050005#32 with io := { Config.gfxReset with window := .clip } }

/-- R154, R156: a pixel outside the window is not drawn. -/
theorem test_pixt_clipped :
    after (exec (.pixtToXY .B 9 1) outside) (fun t => t.mem == [] && t.b[1] == 0x00050005#32) = true ∧
      after (exec (.pixtXYToXY .B 2 1) outside) (fun t => t.mem == [] && t.b[1] == 0x00050005#32) = true := by
  decide +kernel

/-- R155, from the XY origin. -/
theorem test_pixt_load_keeps_memory :
    after (exec (.pixtFromXY .B 10 1) transfer) (fun t => t.mem == transfer.mem && t.b[2] == 0x3004#32) = true := by
  decide +kernel

theorem test_drav_clipped :
    after (exec (.drav .B 3 1) outside) (fun t => t.mem == [] && t.b[3] == 0#32) = true := by decide +kernel

theorem test_cvxyl_keeps_source :
    after (exec (.cvxyl .B 2 1) transfer) (fun t => t.mem == transfer.mem && t.b[2] == 0x3004#32) = true := by
  decide +kernel

/-- R70, R134: the origin's linear address is OFFSET. -/
theorem test_cvxyl_origin :
    after (exec (.cvxyl .B 0 1) (withB 4 0x3000#32)) (fun t => t.b[1] == 0x3000#32) = true := by decide +kernel

theorem test_cpw_keeps_source :
    after (exec (.cpw .B 2 1) transfer) (fun t => t.mem == transfer.mem && t.b[2] == 0x3004#32) = true := by
  decide +kernel

/-- R150, R141: LINE leaves the pitches and B7. -/
theorem test_line_keeps_operands :
    after (exec (.line true) transfer) (fun t => t.b[1] == 0x10#32 && t.b[7] == 0x00020002#32) = true := by decide +kernel

/-- V2.9: the frame's place, with PC pushed first (log 17). -/
theorem test_trap_frame :
    after (exec (.trap 3) { State.reset with sp := 0x00100000#32, pc := 0x1010#32 }) (fun t =>
      t.sp == 0x000FFFC0#32 && t.mem.readBits 0x000FFFE0#32 32 == 0x1010#32 &&
        t.mem.readBits 0x000FFFC0#32 32 == 0x10#32) = true := by decide +kernel

/-- P2, its first step. -/
theorem test_calla_step :
    after (step { program 0x2000#32 [0x0D5F#16, 0x3000#16, 0x0000#16] with sp := 0x00100000#32 }) (fun t =>
      t.pc == 0x3000#32 && t.sp == 0x000FFFE0#32 && t.mem.readBits 0x000FFFE0#32 32 == 0x2030#32) = true := by
  decide +kernel

/-- D18: CALL SP goes to the address SP held before the push. -/
theorem test_call_sp :
    after (exec (.callRs .A 15) { State.reset with sp := 0x00100008#32, pc := 0x1010#32 }) (fun t =>
      t.pc == 0x00100000#32 && t.sp == 0x000FFFE8#32) = true := by decide +kernel

/-- R179's example. -/
theorem test_jump_absolute :
    after (exec (.jacc 0 0xFFFF0008#32) State.reset) (fun t => t.pc == 0xFFFF0000#32) = true := by decide +kernel

/-- V2.7: the 8-bit displacements >7F, >FF and >FE. -/
theorem test_jump_short :
    after (step (program 0x1000#32 [0xC07F#16])) (fun t => t.pc == 0x1800#32) = true ∧
      after (step (program 0x1000#32 [0xC0FF#16])) (fun t => t.pc == 0x1000#32) = true := by decide +kernel

/-- V2.7: the 16-bit displacements >8000 and >7FFF. -/
theorem test_jump_long :
    after (step (program 0x1000#32 [0xC000#16, 0x8000#16])) (fun t => t.pc == 0xFFF81020#32) = true ∧
      after (step (program 0x1000#32 [0xC000#16, 0x7FFF#16])) (fun t => t.pc == 0x00081010#32) = true := by
  decide +kernel

/-- R181, R173: a displacement of -2 from the next instruction's address, when a form jumps. -/
theorem test_dsj_target (s : State) (hp : s.pc = 0x1020#32)
    (h : ∀ form, Config.dsjTaken form s.st (s.readReg .A 1) = true) :
    after (exec (.dsj .A 1 0xFFFE#16) s) (fun t => t.pc == 0x1000#32) = true ∧
      after (exec (.dsjeq .A 1 0xFFFE#16) s) (fun t => t.pc == 0x1000#32) = true ∧
      after (exec (.dsjne .A 1 0xFFFE#16) s) (fun t => t.pc == 0x1000#32) = true := by
  simp [after, exec, execDsj, execDsjeq, execDsjne, State.decrementJump, State.loadPc, State.withFreeFlags, h, hp,
    offset16, alignPc, wordAddr]

/-- R181: a form that does not jump goes on. -/
theorem test_dsjs_goes_on (s : State) (h : Config.dsjTaken .dsjs s.st (s.readReg .B 2) = false) :
    after (exec (.dsjs true 5 .B 2) s) (fun t => t.pc == s.pc && t.mem == s.mem) = true := by
  simp [after, exec, execDsjs, State.decrementJump, State.withFreeFlags, State.writeReg, h]

/-- P4, its first step. -/
theorem test_jump_register :
    after (step (withA 0 0x00012347#32 (program 0x4000#32 [0x0160#16])))
      (fun t => t.pc == 0x00012340#32 && t.readReg .A 0 == 0x00012347#32) = true := by decide +kernel

/-- P4, its second step. -/
theorem test_exgpc :
    after (step (withA 1 0x00020008#32 (program 0x12340#32 [0x0121#16])))
      (fun t => t.pc == 0x00020000#32 && t.readReg .A 1 == 0x00012350#32) = true := by decide +kernel

/-- R184's example. -/
theorem test_rets :
    after (exec (.rets 0) { State.reset with sp := 0x000FFFE0#32, mem := load [] 0x000FFFE0#32 [0x1030#16] })
      (fun t => t.pc == 0x1030#32 && t.sp == 0x00100000#32) = true := by decide +kernel

/-- V2.9: the return from an interrupt, PC having been pushed first. -/
theorem test_reti :
    after (exec .reti { State.reset with sp := 0x000FFFC0#32, mem := load [] 0x000FFFC0#32 [0x10#16, 0#16, 0x1030#16] })
      (fun t => t.pc == 0x1030#32 && t.st == 0x10#32 && t.sp == 0x00100000#32) = true := by decide +kernel

/-! ### Events -/

/-- R244, D20: the host sets HLT; the CPU then keeps still. -/
theorem test_halt :
    after (step { State.reset with inputs := [.hostWrite 0xC0000100#32 0x8000#16] }) (fun t =>
      t.hlt && after (step t) (fun u => u == t)) = true := by decide +kernel

/-- R232: a maskable request waits while IE = 0 and is taken when IE = 1. -/
theorem test_interrupt_masked :
    let s := { program 0x1000#32 [0xC0FF#16] with sp := 0x00100000#32, pending := [⟨true, 0, 0x00080005#32⟩] }
    after (step s) (fun t => t.pc == 0x1000#32 && t.pending.length == 1) = true ∧
      after (step { s with st := 0x00200010#32 }) (fun t =>
        t.pc == 0x00080000#32 && t.sp == 0x000FFFC0#32 && t.pending.isEmpty) = true := by decide +kernel

/-- R236: of two requests the one of the higher priority is taken, the other stays. -/
theorem test_interrupt_priority :
    let s := { State.reset with
      sp := 0x00100000#32, st := 0x00200010#32, pending := [⟨true, 1, 0x100#32⟩, ⟨true, 5, 0x200#32⟩] }
    after (step s) (fun t => t.pc == 0x200#32 && t.pending == [⟨true, 1, 0x100#32⟩]) = true := by decide +kernel

/-- The instruction of an opcode, on a 2 by 1 array of 4-bit pixels at >300E, each of them in two words, about to be
interrupted after the given number of word transfers. -/
def interrupted (opcode : Word16) (done : Nat) : State :=
  { withB 2 0x300E#32 (withB 7 0x00020001#32 transfer) with
    pc := 0x1000#32
    sp := 0x00100000#32
    mem := load transfer.mem 0x1000#32 [opcode]
    inputs := [.interruptBlit ⟨false, 0, 0x00080000#32⟩ done []] }

/-- R233, R234, R126: a FILL interrupted inside its first pixel, between two words: its own address is saved with PBX = 1,
DADDR points to the next word. -/
theorem test_interrupted_fill :
    after (step (interrupted 0x0FC0#16 1)) (fun t =>
      t.mem.readBits 0x3000#32 32 == 0x00004000#32 && t.b[2] == 0x3010#32 &&
        t.mem.readBits 0x000FFFE0#32 32 == 0x1000#32 && t.mem.readBits 0x000FFFC0#32 32 == 0x02000010#32 &&
        t.suspended.length == 1) = true := by decide +kernel

/-- R125, R29: with PBV = 1 and PBH = 1 the last pixel of the last row comes first. -/
theorem test_interrupted_backwards :
    let s := { interrupted 0x0F80#16 1 with io := { Config.gfxReset with pbh := true, pbv := true } }
    after (step (withB 2 0x300C#32 (withB 7 0x00020002#32 s))) (fun t =>
      t.mem.readBits 0x3000#32 32 == 0#32 && t.mem.readBits 0x3020#32 32 == 0x00040000#32 &&
        t.b[2] == 0x3020#32 && t.b[0] == 0x2010#32) = true := by decide +kernel

/-- D13: with a restored PBX = 1 waiting, the ST an interrupt pushes has PBX = 1 if a FILL lies at PC, and 0 if a MOVE
does. -/
theorem test_interrupt_before_resumption :
    let s := fun opcode => { interrupted opcode 0 with
      resuming := true, st := 0x02000010#32, inputs := [], pending := [⟨false, 0, 0x00080000#32⟩] }
    after (step (s 0x0FC0#16)) (fun t => t.mem.readBits 0x000FFFC0#32 32 == 0x02000010#32) = true ∧
      after (step (s 0x4CD7#16)) (fun t => t.mem.readBits 0x000FFFC0#32 32 == 0x00000010#32) = true := by decide +kernel

/-- Log 41: the host sets HLT while the FILL is fetched; the FILL runs to its end, and the request waits. -/
theorem test_halt_inside_transfer :
    let s := { interrupted 0x0FC0#16 0 with
      inputs := [.interruptBlit ⟨false, 0, 0x00080000#32⟩ 1 [some ⟨0xC0000100#32, 0x8000#16⟩]] }
    after (step s) (fun t => t.hlt && t.pc == 0x1010#32 && t.pending.length == 1 && t.suspended.isEmpty) = true := by
  decide +kernel

/-- R68, R207: the host sets CF after the first of a fill's four reads and clears it after the second. The MOVE runs, the
cache is empty, and the next fetch of it is a miss. -/
theorem test_flush_inside_fill :
    let s := { program 0x1000#32 [0x4CD7#16] with
      inputs := [.execute [none, none, some ⟨0xC0000100#32, 0x4000#16⟩, none, some ⟨0xC0000100#32, 0x0000#16⟩]] }
    after (step s) (fun t => t.pc == 0x1010#32 && !t.bypass && t.cache.lru == [0, 1, 2, 3] &&
      t.cache.lookup 0 0x1000#32 == .subsegmentMiss 3) = true := by decide +kernel

/-- R207, D22, D15: the host sets CF between the first and the second fetch of a MOVI; the cache is empty after it. -/
theorem test_flush_between_fetches :
    let s := { program 0x1000#32 [0x09F8#16, 0x5555#16, 0x1234#16] with
      inputs := [.execute (List.replicate 5 none ++ [some ⟨0xC0000100#32, 0x4000#16⟩])] }
    after (step s) (fun t => t.readReg .B 8 == 0x12345555#32 && t.bypass &&
      t.cache.lookup 0 0x1000#32 == .subsegmentMiss 3) = true := by decide +kernel

/-- R92, D3. -/
theorem test_undecodable : step State.reset = .refused (.undecodable 0#16) := by rfl

theorem test_with_fetch_word :
    after (step (State.reset.withFetchWord 48 0x0001000109F8)) (fun t =>
      t.readReg .B 8 == 0x00010001#32 && t.pc == 0x30#32) = true := by decide +kernel

/-! ### Witnesses: states and operands that meet the hypotheses of an obligation -/

/-- The reset state with an ST. -/
def withSt (st : Word) (s : State := State.reset) : State := { s with st }

/-- A running program, its first subsegment in the cache. -/
def running : State :=
  let s := program 0x1000#32 [0x4CD7#16, 0xE2B7#16]
  { s with cache := (s.fetchWords 1).2.cache, pc := 0x1010#32 }

theorem reset_uncached (g : Fin 4) (j : Fin 8) : (State.reset.cache.seg g).isPresent j = false := by
  revert g j; decide +kernel

theorem witness_MidRunResetRestoresStatusAndCache :
    ∃ (s : State) (rest : List Input), s.inputs = .reset :: rest ∧ s ≠ State.reset :=
  ⟨{ running with inputs := [.reset, .execute []] }, [.execute []], rfl, by decide +kernel⟩

theorem witness_DecodeOfEncodeIsIdentity :
    ∃ i : Instr, i.wellFormed = true ∧ i.words = 3 := ⟨.jacc 15 0xFFFFFFFF#32, rfl, rfl⟩

theorem witness_DecodeOfEncodeIsIdentity_short :
    (Instr.jrcc8 15 0x7F#8).wellFormed = true ∧ (Instr.jrcc8 15 0x81#8).wellFormed = true := by decide

theorem witness_EncodeOfDecodeIsIdentity :
    ∃ (ws rest : List Word16) (i : Instr), decode ws = .ok (i, rest) ∧ rest ≠ [] :=
  ⟨[0x0D5F#16, 0xFFFF#16, 0xFFFF#16, 0x1#16], [0x1#16], .calla 0xFFFFFFFF#32, rfl, by decide⟩

theorem witness_UndecodableWordIsRefused :
    ∃ s : State, s.inputs = [] ∧ s.inside = [] ∧ s.hlt = false ∧ s.takeable = none ∧
      findRow (s.fetchedWord s.pc) = none :=
  ⟨State.reset, rfl, rfl, by decide +kernel, rfl, by
    have h : (findRow (State.reset.fetchedWord State.reset.pc)).isNone = true := by decide +kernel
    simpa using h⟩

/-- A word in memory for each of three positions. -/
theorem words_at {s : State} {w0 w1 w2 : Word16} (h0 : s.mem.readBits s.pc 16 = w0)
    (h1 : s.mem.readBits (s.pc + 16#32) 16 = w1) (h2 : s.mem.readBits (s.pc + 32#32) 16 = w2) :
    ∀ (k : Nat) (w : Word16), [w0, w1, w2][k]? = some w → s.mem.readBits (s.pc + BitVec.ofNat 32 (16 * k)) 16 = w
  | 0, _, h => by cases h; simpa using h0
  | 1, _, h => by cases h; simpa using h1
  | 2, _, h => by cases h; simpa using h2
  | _ + 3, _, h => by simp at h

/-- A three-word instruction that wraps around memory, its words not in the cache, with the inputs of each clause. -/
theorem witness_StepRunsTheDecodedInstruction :
    ∀ inputs : List Input, inputs = [] ∨ inputs = [.execute [], .reset] →
      ∃ (s : State) (i : Instr), s.inputs = inputs ∧ s.inside = [] ∧ s.hlt = false ∧ s.takeable = none ∧
        wordAligned s.pc ∧ s.bypass = false ∧ (∀ k < i.words, s.CoherentAt (s.pc + BitVec.ofNat 32 (16 * k))) ∧
        i.wellFormed = true ∧
        (∀ (k : Nat) (w : Word16), (encode i)[k]? = some w →
          s.mem.readBits (s.pc + BitVec.ofNat 32 (16 * k)) 16 = w) := by
  have h : ∀ inputs : List Input,
      let s := { program 0xFFFFFFE0#32 [0x09F8#16, 0x5555#16, 0x1234#16] with inputs }
      ∀ k < 3, s.CoherentAt (s.pc + BitVec.ofNat 32 (16 * k)) := by
    intro inputs s k _ g _ h
    rw [show s.cache = State.reset.cache from rfl, reset_uncached] at h
    cases h
  rintro inputs (rfl | rfl) <;>
    exact ⟨{ program 0xFFFFFFE0#32 [0x09F8#16, 0x5555#16, 0x1234#16] with inputs := _ }, .moviIL .B 8 0x12345555#32, rfl,
      rfl, by decide +kernel, rfl, by decide, by decide +kernel, h _, rfl,
      words_at (by decide +kernel) (by decide +kernel) (by decide +kernel)⟩

/-- The same under CD = 1. -/
theorem witness_StepRunsTheDecodedInstruction_bypass :
    ∃ (s : State) (i : Instr), s.inputs = [] ∧ s.inside = [] ∧ s.hlt = false ∧ s.takeable = none ∧ wordAligned s.pc ∧
      s.bypass = true ∧ i.wellFormed = true ∧
      (∀ (k : Nat) (w : Word16), (encode i)[k]? = some w →
        s.mem.readBits (s.pc + BitVec.ofNat 32 (16 * k)) 16 = w) :=
  ⟨disabled (program 0x1000#32 [0x0D5F#16, 0x3000#16, 0x0000#16]), .calla 0x3000#32, rfl, rfl, by decide +kernel, rfl,
    by decide, by decide +kernel, rfl, words_at (by decide +kernel) (by decide +kernel) (by decide +kernel)⟩

theorem witness_HaltedCpuKeepsItsState :
    ∃ s t : State, s.hlt = true ∧ s.inputs = [] ∧ t.hlt = true ∧ t.inputs = .execute [some ⟨0#32, 1#16⟩] :: [] :=
  let m := Memory.writeBit [] State.reset.hltAddr true
  ⟨{ State.reset with mem := m }, { State.reset with mem := m, inputs := [.execute [some ⟨0#32, 1#16⟩]] }, by decide +kernel, rfl,
    by decide +kernel, rfl⟩

theorem witness_HostWriteStoresOneWord :
    ∃ (s : State) (addr : Word) (value : Word16) (rest : List Input), s.inputs = .hostWrite addr value :: rest :=
  ⟨{ State.reset with inputs := [.hostWrite 0xFFFFFFFF#32 0x4000#16] }, 0xFFFFFFFF#32, 0x4000#16, [], rfl⟩

/-- A host write that comes first, with a write in flight and with none. -/
theorem witness_HostWriteStoresOneWord_first :
    ∃ (s t : State) (p : PostedWrite), s.inputs = [.hostWriteFirst 0x000FFFFF#32 0xBEEF#16] ∧ s.posted = some p ∧
      p.len ≤ 16 ∧ t.inputs = s.inputs ∧ t.posted = none :=
  let s : State := { ({ State.reset with sp := 0x00100000#32 }).push32 0x12345678#32 with
    inputs := [.hostWriteFirst 0x000FFFFF#32 0xBEEF#16] }
  have h : s.posted = some ⟨0x000FFFF0#32, 16, 0x1234#32, 0#32⟩ := by decide +kernel
  ⟨s, { State.reset with inputs := s.inputs }, _, rfl, h, by decide, rfl, rfl⟩

theorem witness_StepKeepsTheInvariant :
    ∃ s t : State, s.Inv ∧ step s = .next t :=
  have h : after (step running) (fun _ => true) = true := by decide +kernel
  ⟨running, (exists_of_after h).choose,
    { mem := by decide +kernel
      pc := by decide +kernel
      lru := by decide +kernel
      flushed := fun h => absurd h (by decide +kernel)
      quiet := rfl },
    (exists_of_after h).choose_spec.1⟩

theorem witness_InstructionsKeepHaltCacheAndOutside :
    ∃ (i : Instr) (s t : State), exec i s = .next t ∧ s.inside = [] := ⟨.calla 0#32, State.reset, _, rfl, rfl⟩

theorem witness_OnlyTrapAndReturnChangeControlBits :
    ∃ (i : Instr) (s t : State), exec i s = .next t ∧ (∀ n, i ≠ .trap n) ∧ i ≠ .reti ∧ stPBX s.st = true ∧
      s.resuming = true :=
  ⟨.fillL, { withSt 0x02200010#32 with resuming := true }, _, rfl, nofun, nofun, by decide, rfl⟩

theorem witness_InterruptsAreMaskedByIE :
    ∃ s : State, s.inputs = [] ∧ s.hlt = false ∧ stIE s.st = false ∧ s.pending ≠ [] ∧
      (∀ irq ∈ s.pending, irq.maskable = true) :=
  ⟨{ running with pending := [⟨true, 0, 0#32⟩] }, rfl, by decide +kernel, by decide, by decide, by decide⟩

/-- With IE = 1, the more urgent of two after a less urgent one and before one as urgent. -/
theorem witness_InterruptsAreMaskedByIE_taken :
    ∃ (s : State) (irq : Irq) (before later : List Irq), s.inputs = [] ∧ s.hlt = false ∧
      s.pending = before ++ irq :: later ∧ before ≠ [] ∧ later ≠ [] ∧ stIE s.st = true ∧ irq.maskable = true ∧
      (∀ other ∈ before, stIE s.st = true ∨ other.maskable = false → other.priority < irq.priority) ∧
      (∀ other ∈ later, stIE s.st = true ∨ other.maskable = false → other.priority ≤ irq.priority) :=
  ⟨{ withSt 0x00200010#32 running with pending := [⟨false, 6, 0#32⟩, ⟨true, 7, 0x10#32⟩, ⟨false, 7, 0x20#32⟩] },
    ⟨true, 7, 0x10#32⟩, [⟨false, 6, 0#32⟩], [⟨false, 7, 0x20#32⟩], rfl, by decide +kernel, rfl, by decide, by decide,
    by decide, rfl, by decide, by decide⟩

/-- With IE = 0, a request that is not maskable behind maskable ones of higher priority. -/
theorem witness_InterruptsAreMaskedByIE_notMaskable :
    ∃ (s : State) (irq : Irq) (before : List Irq), s.inputs = [] ∧ s.hlt = false ∧ s.pending = before ++ [irq] ∧
      before.length = 2 ∧ stIE s.st = false ∧ irq.maskable = false ∧
      (∀ other ∈ before, other.maskable = true ∧ irq.priority < other.priority) ∧
      (∀ other ∈ before, stIE s.st = true ∨ other.maskable = false → other.priority < irq.priority) :=
  ⟨{ running with pending := [⟨true, 5, 0#32⟩, ⟨true, 6, 0x10#32⟩, ⟨false, 0, 0x20#32⟩] }, ⟨false, 0, 0x20#32⟩,
    [⟨true, 5, 0#32⟩, ⟨true, 6, 0x10#32⟩], rfl, by decide +kernel, rfl, rfl, by decide, rfl, by decide, by decide⟩

theorem witness_InterruptEntrySavesPcAndSt :
    ∃ (s : State) (irq : Irq) (rest : List Irq), s.inputs = [] ∧ s.hlt = false ∧ s.takeable = some (irq, rest) ∧
      rest ≠ [] ∧ s.inside = [] ∧ s.midTransfer = true :=
  ⟨{ interrupted 0x0FC0#16 0 with
      resuming := true, inputs := [], pending := [⟨true, 1, 0#32⟩, ⟨false, 0, 0x80#32⟩] },
    ⟨false, 0, 0x80#32⟩, [⟨true, 1, 0#32⟩], rfl, by decide +kernel, by decide +kernel, by decide, rfl, by decide +kernel⟩

theorem witness_ReturnUndoesInterruptEntry :
    ∃ s : State, s.inside = [] ∧ wordAligned s.pc ∧ covers (s.sp - 64#32) 64 s.hltAddr = false ∧
      covers (s.sp - 63#32) 64 s.hltAddr = true ∧ s.midTransfer = true :=
  ⟨{ interrupted 0x0FC0#16 0 with sp := 0xC000010F#32, resuming := true, inputs := [] }, rfl, by decide +kernel,
    by decide +kernel, by decide +kernel, by decide +kernel⟩

/-- The plan of the next instruction, if it is a PIXBLT or FILL. -/
def planAhead (s : State) : Option BlitPlan :=
  match s.fetchInstr with
  | .ok (i, t) => blitPlanOf i t
  | .error _ => none

theorem of_planAhead {s : State} {p : BlitPlan} (h : planAhead s = some p) :
    ∃ i t, s.fetchInstr = .ok (i, t) ∧ blitPlanOf i t = some p := by
  unfold planAhead at h
  cases hf : s.fetchInstr with
  | error e => rw [hf] at h; cases h
  | ok r =>
    obtain ⟨i, t⟩ := r
    rw [hf] at h
    exact ⟨i, t, rfl, h⟩

/-- A PIXBLT L,L of four word transfers: at the first and the last boundary between words, with a next transfer that has a
source in memory, and after no transfer and after the last, where there is no boundary. -/
theorem witness_InterruptInsideTransferSetsPBX :
    ∀ done, done = 0 ∨ done = 1 ∨ done = 3 ∨ done = 4 →
      ∃ (s : State) (irq : Irq) (rest : List Input) (i : Instr) (t : State) (p : BlitPlan),
        s.inputs = .interruptBlit irq done [] :: rest ∧ s.hlt = false ∧ s.takeable = none ∧ s.admits irq = true ∧
        { s with inputs := rest, inside := [] }.received.fetchInstr = .ok (i, t) ∧ blitPlanOf i t = some p ∧
        wordBoundary p.ops done = (decide (0 < done) && decide (done < 4)) ∧ p.hasSource = true ∧
        p.ops.all (fun op => (PixelSource.address op.src).isSome) = true := by
  intro done hd
  have hs : (planAhead { interrupted 0x0F00#16 0 with inputs := [] }.received).any (fun p => p.hasSource &&
      [0, 1, 3, 4].all (fun done => wordBoundary p.ops done == (decide (0 < done) && decide (done < 4))) &&
      p.ops.all (fun op => (PixelSource.address op.src).isSome)) = true := by decide +kernel
  cases hp : planAhead { interrupted 0x0F00#16 0 with inputs := [] }.received with
  | none => rw [hp] at hs; cases hs
  | some p =>
    rw [hp] at hs
    obtain ⟨i, t, hf, hb⟩ := of_planAhead hp
    simp only [Option.any_some, Bool.and_eq_true, List.all_eq_true, beq_iff_eq] at hs
    exact ⟨interrupted 0x0F00#16 done, ⟨false, 0, 0x00080000#32⟩, [], i, t, p, rfl,
      (by decide +kernel : (interrupted 0x0F00#16 0).hlt = false), rfl, rfl, hf, hb,
      hs.1.2 done (by simpa using hd), hs.1.1, by simpa using hs.2⟩

theorem witness_ResumedTransferFinishesTheRest :
    ∃ (s r : State) (p : BlitPlan) (done : Nat) (irq : Irq) (i : Instr),
      r.b = (s.interruptPlan p done irq).b ∧ r.suspended = (s.interruptPlan p done irq).suspended ∧
      r.resuming = true ∧ (blitPlanOf i r).isSome = true ∧ done < p.ops.length :=
  have h : ∀ t : State, ∃ r : State, r.b = t.b ∧ r.suspended = t.suspended ∧ r.resuming = true ∧
      (blitPlanOf .fillL r).isSome = true :=
    fun t => ⟨{ t with resuming := true }, rfl, rfl, rfl, rfl⟩
  let ⟨r, hb, hs, hr, hi⟩ := h (transfer.interruptPlan (transfer.fillPlan .linear) 2 ⟨false, 0, 0#32⟩)
  ⟨transfer, r, transfer.fillPlan .linear, 2, ⟨false, 0, 0#32⟩, .fillL, hb, hs, hr, hi, by decide +kernel⟩

theorem witness_MemoryReadReturnsLatestWrite :
    ∃ (a b : Word) (n k : Nat), n ≤ 32 ∧ k ≤ n ∧ (∀ j, j < k → covers a n (b + BitVec.ofNat 32 j) = false) ∧
      covers a n (b - 1#32) = true ∧ 0 < k :=
  ⟨0xFFFFFFF0#32, 0x10#32, 32, 32, by decide, by decide, by decide, by decide, by decide⟩

theorem witness_PushAndPopFollowTheStack :
    (∃ s : State, s.inside = [] ∧ covers (s.sp - 32#32) 32 s.hltAddr = false ∧
      covers (s.sp - 31#32) 32 s.hltAddr = true) ∧
    ∃ s : State, s.inside = [] ∧ wordAligned s.sp :=
  ⟨⟨{ State.reset with sp := 0xC000010F#32 }, rfl, by decide, by decide⟩, ⟨State.reset, rfl, by decide⟩⟩

/-- A host write to any bit of the first word, between the two words of a push, with HLT just above the second. -/
theorem witness_PushAndPopFollowTheStack_torn :
    ∃ (s : State) (w : HostWrite), s.inside = [none, some w] ∧ wordAligned s.sp ∧ wordAddr w.addr = s.sp - 32#32 ∧
      covers (s.sp - 16#32) 16 s.hltAddr = false :=
  ⟨{ State.reset with sp := 0xC0000100#32, inside := [none, some ⟨0xC00000EF#32, 1#16⟩] }, ⟨0xC00000EF#32, 1#16⟩, rfl,
    by decide, by decide, by decide⟩

theorem witness_FieldLoadExtendsByFE :
    ∃ s t : State, s.inside = [] ∧ stFieldSigned s.st .field0 = true ∧ stFieldSize s.st .field0 = 32 ∧
      t.inside = [] ∧ stFieldSigned t.st .field1 = false ∧ stFieldSize t.st .field1 = 1 :=
  ⟨withSt 0x00000020#32, withSt 0x00000040#32, rfl, by decide, by decide, rfl, by decide, by decide⟩

theorem witness_FieldStoreWritesItsBits :
    ∃ (s : State) (a : Word), s.inside = [] ∧ covers a (stFieldSize s.st .field0) s.hltAddr = false ∧
      covers (a + 1#32) (stFieldSize s.st .field0) s.hltAddr = true :=
  ⟨State.reset, 0xC00000FF#32, rfl, by decide, by decide⟩

theorem witness_TouchMovesSegmentToTop :
    ∃ (lru : List (Fin 4)) (g : Fin 4) (k : Nat), lru.Perm [0, 1, 2, 3] ∧ lru ≠ [0, 1, 2, 3] ∧ lru.idxOf g < k ∧ k < 4 :=
  ⟨[2, 0, 1, 3], 1, 3, by decide, by decide, by decide, by decide⟩

theorem witness_CacheHitReturnsTheCopy :
    ∀ inside : List (Option HostWrite), inside = [] ∨ inside = [some ⟨0x1030#32, 1#16⟩, none] →
      ∃ (s : State) (a : Word) (g : Fin 4), s.inside = inside ∧ s.cycle.bypass = false ∧
        (s.cycle.cache.seg g).ssa = tagOf a ∧ (∀ h, (s.cycle.cache.seg h).ssa = tagOf a → h = g) ∧
        (s.cycle.cache.seg g).isPresent (subOf a) = true := by
  rintro inside (rfl | rfl)
  · exact ⟨start33, 0x103F#32, 3, rfl, by decide +kernel, by decide +kernel, by decide +kernel, by decide +kernel⟩
  · exact ⟨{ start33 with inside := [some ⟨0x1030#32, 1#16⟩, none] }, 0x103F#32, 3, rfl, by decide +kernel,
      by decide +kernel, by decide +kernel, by decide +kernel⟩

theorem witness_SubsegmentMissLoadsFourWords :
    ∃ (s : State) (a : Word) (g : Fin 4), s.inside = [] ∧ s.bypass = false ∧ (s.cache.seg g).ssa = tagOf a ∧
      (∀ h, (s.cache.seg h).ssa = tagOf a → h = g) ∧ (s.cache.seg g).isPresent (subOf a) = false :=
  ⟨start33, 0x1040#32, 3, rfl, by decide +kernel, by decide +kernel, by decide +kernel, by decide +kernel⟩

theorem witness_SegmentMissReplacesTheBottomSegment :
    ∃ (s : State) (a : Word) (g : Fin 4), s.inside = [] ∧ s.bypass = false ∧ (∀ h, (s.cache.seg h).ssa ≠ tagOf a) ∧
      s.cache.lru.length = 4 ∧ s.cache.lru[3]? = some g :=
  ⟨start33, 0x1200#32, 2, rfl, by decide +kernel, by decide +kernel, by decide, by decide⟩

/-- A state with CF = 1. -/
def flushing (s : State) : State := { s with mem := s.mem.writeBit s.cfAddr true, cache := s.cache.flush }

/-- With CD = 1, and with CF = 1. -/
theorem witness_BypassedFetchesLeaveTheCacheAlone :
    ∀ s, s = disabled (program 0x1000#32 [0x4CD7#16]) ∨ s = flushing (program 0x1000#32 [0x4CD7#16]) →
      s.inside = [] ∧ s.bypass = true ∧ s.inputs = [] ∧ ∃ t, step s = .next t := by
  rintro s (rfl | rfl)
  · have h : after (step (disabled (program 0x1000#32 [0x4CD7#16]))) (fun _ => true) = true := by decide +kernel
    exact ⟨rfl, by decide +kernel, rfl, _, (exists_of_after h).choose_spec.1⟩
  · have h : after (step (flushing (program 0x1000#32 [0x4CD7#16]))) (fun _ => true) = true := by decide +kernel
    exact ⟨rfl, by decide +kernel, rfl, _, (exists_of_after h).choose_spec.1⟩

theorem witness_WritingCFFlushesTheCache :
    ∃ (s : State) (addr : Word) (value : Word16) (rest : List Input), s.inputs = .hostWrite addr value :: rest ∧
      covers (wordAddr addr) 16 s.cfAddr = true ∧ value.getLsbD (s.cfAddr - wordAddr addr).toNat = true ∧ s.inside = [] :=
  ⟨{ start33 with inputs := [.hostWrite 0xC0000100#32 0x4000#16] }, 0xC0000100#32, 0x4000#16, [], rfl, by decide,
    by decide, rfl⟩

/-- A store over the fetched word itself, by the CPU and by the host. -/
theorem witness_StoredWordIsNotSeenInCache :
    ∃ (s : State) (a : Word) (g : Fin 4), s.inside = [] ∧ s.bypass = false ∧ (s.cache.seg g).ssa = tagOf a ∧
      (∀ h, (s.cache.seg h).ssa = tagOf a → h = g) ∧ (s.cache.seg g).isPresent (subOf a) = true ∧
      covers a 16 s.cfAddr = false ∧ covers a 16 s.cdAddr = false ∧
      covers (wordAddr a) 16 s.cfAddr = false ∧ covers (wordAddr a) 16 s.cdAddr = false :=
  ⟨start33, 0x1020#32, 3, rfl, by decide +kernel, by decide +kernel, by decide +kernel, by decide +kernel, by decide,
    by decide, by decide, by decide⟩

theorem witness_FetchKeepsSegmentTagsDistinct : start33.cache.distinct := by
  intro g h; revert g h; decide +kernel

theorem witness_PixbltCompletesAndKeepsItsOperands :
    ∃ (i : Instr) (src dst : ArrayForm) (s : State), pixbltForms i = some (src, dst) ∧ s.resuming = false ∧
      ¬ (dst = .xy ∧ s.io.window = .option1) :=
  ⟨.pixbltXYXY, .xy, .xy, transfer, rfl, rfl, by decide⟩

/-- PIXBLT L,L unturned and with PBH = 1, PIXBLT XY,L with PBH = 1, and PIXBLT B,XY clipped. -/
theorem witness_PixbltEndsAtTheRowAfterTheLast :
    (∃ s : State, pixbltForms .pixbltLL = some (.linear, .linear) ∧ s.resuming = false ∧ s.io.pbv = false ∧
      s.io.pbh = false ∧ rowsOf s.dydx ≠ 0 ∧ columnsOf s.dydx ≠ 0) ∧
    (∃ s : State, pixbltForms .pixbltLL = some (.linear, .linear) ∧ pixbltForms .pixbltXYL = some (.xy, .linear) ∧
      s.resuming = false ∧ s.io.pbv = false ∧ s.io.pbh = true ∧ rowsOf s.dydx ≠ 0 ∧ columnsOf s.dydx ≠ 0) ∧
    (∃ s : State, pixbltForms .pixbltBXY = some (.binary, .xy) ∧ s.resuming = false ∧ s.io.pbv = false ∧
      s.io.window = .clip ∧ rowsOf s.dydx ≠ 0 ∧ columnsOf s.dydx ≠ 0) :=
  ⟨⟨transfer, rfl, rfl, rfl, rfl, by decide, by decide⟩,
    ⟨{ withB 7 0x00010001#32 with io := { Config.gfxReset with pbh := true } }, rfl, rfl, rfl, rfl, rfl, by decide,
      by decide⟩,
    ⟨partlyOutside, rfl, rfl, rfl, rfl, by decide, by decide⟩⟩

theorem witness_ZeroDimensionMovesNothing :
    (∃ (i : Instr) (s : State), (pixbltForms i).isSome = true ∧ s.resuming = false ∧ rowsOf s.dydx = 0 ∧
      columnsOf s.dydx ≠ 0) ∧
    (∃ s : State, s.resuming = false ∧ rowsOf s.dydx ≠ 0 ∧ columnsOf s.dydx = 0) :=
  ⟨⟨.pixbltLL, withB 7 0x00000010#32, rfl, by decide, by decide, by decide⟩,
    ⟨withB 7 0x00100000#32, by decide, by decide, by decide⟩⟩

/-- With a common rectangle of one pixel, and with none (V2.10). -/
theorem witness_WindowOptionOneFindsTheCommonRectangle :
    ∃ s t : State, (∃ src, pixbltForms .pixbltLXY = some (src, .xy)) ∧
      s.resuming = false ∧ s.io.window = .option1 ∧ t.resuming = false ∧ t.io.window = .option1 ∧ stV t.st = false ∧
      (commonRectangle s.params.signedXY s.daddr s.dydx s.wstart s.wend).isSome = true ∧
      (commonRectangle t.params.signedXY t.daddr t.dydx t.wstart t.wend).isSome = false :=
  ⟨clipped 0x002F003F#32 0x00080008#32, clipped 0x00640064#32 0x00040004#32, ⟨.linear, rfl⟩, by decide, rfl, by decide,
    rfl, by decide, by decide +kernel, by decide +kernel⟩

theorem witness_FillCompletesAndKeepsItsOperands :
    ∃ s : State, s.resuming = false ∧ ¬ (true = true ∧ s.io.window = .option1) := ⟨transfer, by decide, by decide⟩

theorem transfer_plain : transfer.PlainTransfer :=
  { plain := by decide, quiet := rfl, fresh := rfl, unclipped := rfl, pbh := rfl, pbv := rfl }

/-- The last bit of the last pixel of the array, and the next bit, which lies in none. -/
theorem witness_FillPaintsColor1 :
    transfer.PlainTransfer ∧
    (0x302B#32 ≠ transfer.hltAddr ∧
      ∃ row col, transfer.inElement (transfer.fillBase (fillForm false)) 0x302B#32 row col) ∧
    ¬ (∃ row col, transfer.inElement (transfer.fillBase (fillForm false)) 0x302C#32 row col) := by
  refine ⟨transfer_plain, ⟨by decide, 1, 1, by decide, by decide, by decide⟩, ?_⟩
  rintro ⟨row, col, hr, hc, h⟩
  have hr' : row < 2 := hr
  have hc' : col < 2 := hc
  revert h
  interval_cases row <;> interval_cases col <;> decide

/-- A bit of the array lies in one element only. -/
theorem transfer_single :
    ∀ row' col', transfer.inElement 0x3004#32 0x302B#32 row' col' → row' = 1 ∧ col' = 1 := by
  rintro row col ⟨hr, hc, h⟩
  have hr' : row < 2 := hr
  have hc' : col < 2 := hc
  revert h
  interval_cases row <;> interval_cases col <;> decide

theorem witness_PixbltExpandsBinarySource :
    pixbltForms .pixbltBL = some (.binary, .linear) ∧ transfer.PlainTransfer ∧
    (∀ row col row' col', row < rowsOf transfer.dydx → col < columnsOf transfer.dydx →
      ¬ transfer.inElement 0x3004#32 (elementAddr transfer.saddr transfer.sptch 1 row col) row' col') ∧
    0x302B#32 ≠ transfer.hltAddr ∧ transfer.inElement 0x3004#32 0x302B#32 1 1 ∧
    (∀ row' col', transfer.inElement 0x3004#32 0x302B#32 row' col' → row' = 1 ∧ col' = 1) := by
  refine ⟨rfl, transfer_plain, ?_, by decide, ⟨by decide, by decide, by decide⟩, transfer_single⟩
  rintro row col row' col' hr hc ⟨hr', hc', h⟩
  replace hr : row < 2 := hr
  replace hc : col < 2 := hc
  replace hr' : row' < 2 := hr'
  replace hc' : col' < 2 := hc'
  revert h
  interval_cases row <;> interval_cases col <;> interval_cases row' <;> interval_cases col' <;> decide

/-- Four bits from >2000, >2004, >2010 or >2014 never meet four bits of the destination. -/
theorem witness_PixbltCopiesPixels :
    pixbltForms .pixbltLL = some (.linear, .linear) ∧ ArrayForm.linear ≠ .binary ∧ transfer.PlainTransfer ∧
    (∀ row col row' col' x, row < rowsOf transfer.dydx → col < columnsOf transfer.dydx →
      covers (elementAddr transfer.saddr transfer.sptch transfer.io.pixelSize row col) transfer.io.pixelSize x = true →
        ¬ transfer.inElement 0x3004#32 x row' col') ∧
    0x302B#32 ≠ transfer.hltAddr ∧ transfer.inElement 0x3004#32 0x302B#32 1 1 ∧
    (∀ row' col', transfer.inElement 0x3004#32 0x302B#32 row' col' → row' = 1 ∧ col' = 1) := by
  refine ⟨rfl, by decide, transfer_plain, ?_, by decide, ⟨by decide, by decide, by decide⟩, transfer_single⟩
  rintro row col row' col' x hr hc hx ⟨hr', hc', h⟩
  replace hr : row < 2 := hr
  replace hc : col < 2 := hc
  replace hr' : row' < 2 := hr'
  replace hc' : col' < 2 := hc'
  have hs : 0x2000 ≤ x.toNat ∧ x.toNat < 0x2018 := by
    revert hx
    interval_cases row <;> interval_cases col <;>
      simp [covers, elementAddr, transfer, State.reset, Config.gfxReset, State.saddr, State.sptch] <;> bv_omega
  have hd : 0x3004 ≤ x.toNat := by
    revert h
    interval_cases row' <;> interval_cases col' <;>
      simp [covers, elementAddr, transfer, State.reset, Config.gfxReset, State.dptch] <;> bv_omega
  omega

/-- The first bit of the third column lies in one element, which is outside the window; the bit before it lies inside. -/
theorem witness_ClippedTransfersStayInTheWindow :
    let s := partlyOutside
    let base := s.linearOf .destination s.daddr
    (∃ src, pixbltForms .pixbltXYXY = some (src, .xy)) ∧ s.inside = [] ∧ s.resuming = false ∧ s.io.window = .clip ∧
      s.inElement base 0x3008#32 0 2 ∧ s.keepsElement .xy 0 2 = false ∧
      s.inElement base 0x3007#32 0 1 ∧ s.keepsElement .xy 0 1 = true ∧
      (∀ row col, s.inElement base 0x3008#32 row col → row = 0 ∧ col = 2) := by
  refine ⟨⟨.xy, rfl⟩, rfl, rfl, rfl, ⟨by decide, by decide, by decide⟩, by decide, ⟨by decide, by decide, by decide⟩,
    by decide, ?_⟩
  rintro row col ⟨hr, hc, h⟩
  replace hr : row < 2 := hr
  replace hc : col < 3 := hc
  revert h
  interval_cases row <;> interval_cases col <;> decide

theorem outside_plain : outside.PlainPixels := { plain := by decide, quiet := rfl }

theorem witness_LineDrawsColor1 : ∃ s : State, s.PlainPixels := ⟨outside, outside_plain⟩

/-- Every pixel has a bit that is not HLT: of two neighbours one is not. -/
theorem exists_inPixel (a : Word) : ∃ x, transfer.inPixel a x := by
  by_cases h : a = transfer.hltAddr
  · refine ⟨a + 1#32, by simp [covers, transfer, State.reset, Config.gfxReset], ?_⟩
    rw [h]
    decide
  · exact ⟨a, by simp [covers, transfer, State.reset, Config.gfxReset], h⟩

theorem witness_DravDrawsOnePixelAndAdvances (f : RFile) (dst : RegIdx) :
    ∃ s : State, s.PlainPixels ∧ s.drawsAt (s.readReg f dst) = true ∧
      ∃ x, s.inPixel (s.linearOf .pixelDestination (s.readReg f dst)) x :=
  ⟨transfer, transfer_plain.toPlainPixels, rfl, exists_inPixel _⟩

theorem witness_PixtStoresOnePixel (f : RFile) (dst : RegIdx) :
    ∃ s : State, s.PlainPixels ∧ s.drawsAt (s.readReg f dst) = true ∧
      ∃ x, s.inPixel (s.linearOf .pixelDestination (s.readReg f dst)) x :=
  ⟨transfer, transfer_plain.toPlainPixels, rfl, exists_inPixel _⟩

theorem witness_PixtLoadsOnePixel : ∃ (s : State) (k : Nat), s.inside = [] ∧ k + 1 = (s.io.pixelSize : Nat) :=
  ⟨transfer, 3, rfl, rfl⟩

/-- The last point inside the window and the first outside, with clipping, and a point outside with option 1. -/
theorem witness_PixelsAreClippedToTheWindow :
    let s : State := { clipped 0#32 0#32 with io := { Config.gfxReset with window := .clip } }
    s.io.window = .clip ∧ s.drawsAt 0x002F003F#32 = true ∧ s.drawsAt 0x0030003F#32 = false ∧
      State.reset.io.window = .off ∧ (clipped 0#32 0#32).io.window = .option1 ∧
      (clipped 0#32 0#32).inWindow 32 15 = false := by decide +kernel

theorem witness_JumpRelativeOnCondition :
    ∃ (s : State) (c : BitVec 4), wordAligned s.pc ∧ conditionHolds c s.st = true :=
  ⟨running, 0#4, by decide +kernel, rfl⟩

theorem witness_DecrementJumpsBranchOrGoOn :
    ∃ (s : State) (f : RFile) (dst : RegIdx) (d : Word16) (i : Instr) (form : DsjForm), wordAligned s.pc ∧
      (i, form) ∈ [(Instr.dsj f dst d, DsjForm.dsj), (Instr.dsjeq f dst d, DsjForm.dsjeq),
        (Instr.dsjne f dst d, DsjForm.dsjne)] :=
  ⟨running, .A, 15, 0x8000#16, .dsjne .A 15 0x8000#16, .dsjne, by decide +kernel, by decide⟩

theorem witness_ReturnPopsPc : ∃ s : State, s.inside = [] ∧ s.sp ≠ 0#32 :=
  ⟨{ running with sp := 0xFFFFFFF8#32 }, rfl, by decide⟩

theorem witness_ReturnFromInterruptPopsPcAndSt :
    ∃ s t : State, s.inside = [] ∧ s.params.intFrame = .pcFirst ∧ t.inside = [] ∧ t.params.intFrame = .stFirst :=
  ⟨State.reset, { State.reset with params := { Config.paramsReset with intFrame := .stFirst } }, rfl, rfl, rfl, rfl⟩

theorem witness_ReturnUndoesCall :
    ∃ (s : State) (i j : Instr), (∃ addr, i = .calla addr) ∧ (∃ f src, j = .callRs f src) ∧ s.inside = [] ∧ wordAligned s.pc ∧
      covers (s.sp - 32#32) 32 s.hltAddr = false ∧ covers (s.sp - 31#32) 32 s.hltAddr = true :=
  ⟨{ running with sp := 0xC000010F#32 }, .calla 0#32, .callRs .A 15, ⟨_, rfl⟩, ⟨_, _, rfl⟩, rfl, by decide +kernel,
    by decide +kernel, by decide +kernel⟩

end Sys2Proof.Tests
end

/-! SUPPORT. The fields of ST at their places (R18), and a field of memory loaded into a register as ST says (R20, R21,
R58). -/

namespace Sys2Proof.Machine

/-! ### The layout of ST (R18) -/

/-- The fields and the reserved bits of ST, in the order of R18's table from bit 31 down. -/
structure StatusFields where
  n : Bool
  c : Bool
  z : Bool
  v : Bool
  r2 : BitVec 2
  pbx : Bool
  r1 : BitVec 3
  ie : Bool
  r0 : BitVec 9
  fe1 : Bool
  fs1 : BitVec 5
  fe0 : Bool
  fs0 : BitVec 5

namespace StatusFields

/-- The fields side by side. The width stays a sum, the form in which the library's laws of `++` apply; so the proofs below
tell `simp` not to add it up. -/
def layout (x : StatusFields) : BitVec (1 + 1 + 1 + 1 + 2 + 1 + 3 + 1 + 9 + 1 + 5 + 1 + 5) :=
  BitVec.ofBool x.n ++ BitVec.ofBool x.c ++ BitVec.ofBool x.z ++ BitVec.ofBool x.v ++ x.r2 ++ BitVec.ofBool x.pbx ++
    x.r1 ++ BitVec.ofBool x.ie ++ x.r0 ++ BitVec.ofBool x.fe1 ++ x.fs1 ++ BitVec.ofBool x.fe0 ++ x.fs0

/-- ST with these fields. -/
def word (x : StatusFields) : Word := x.layout

/-- A bit of ST, found by stepping over the fields from bit 0 up. -/
theorem getLsbD_word (x : StatusFields) (i : Nat) : x.word.getLsbD i =
    if i < 5 then x.fs0.getLsbD i else
    let i := i - 5; if i < 1 then (BitVec.ofBool x.fe0).getLsbD i else
    let i := i - 1; if i < 5 then x.fs1.getLsbD i else
    let i := i - 5; if i < 1 then (BitVec.ofBool x.fe1).getLsbD i else
    let i := i - 1; if i < 9 then x.r0.getLsbD i else
    let i := i - 9; if i < 1 then (BitVec.ofBool x.ie).getLsbD i else
    let i := i - 1; if i < 3 then x.r1.getLsbD i else
    let i := i - 3; if i < 1 then (BitVec.ofBool x.pbx).getLsbD i else
    let i := i - 1; if i < 2 then x.r2.getLsbD i else
    let i := i - 2; if i < 1 then (BitVec.ofBool x.v).getLsbD i else
    let i := i - 1; if i < 1 then (BitVec.ofBool x.z).getLsbD i else
    let i := i - 1; if i < 1 then (BitVec.ofBool x.c).getLsbD i else
    let i := i - 1; (BitVec.ofBool x.n).getLsbD i := by
  change x.layout.getLsbD i = _
  simp only [layout, BitVec.getLsbD_append]

@[simp] theorem stN_word (x : StatusFields) : stN x.word = x.n := (x.getLsbD_word 31).trans (by simp)

@[simp] theorem stC_word (x : StatusFields) : stC x.word = x.c := (x.getLsbD_word 30).trans (by simp)

@[simp] theorem stZ_word (x : StatusFields) : stZ x.word = x.z := (x.getLsbD_word 29).trans (by simp)

@[simp] theorem stV_word (x : StatusFields) : stV x.word = x.v := (x.getLsbD_word 28).trans (by simp)

@[simp] theorem stPBX_word (x : StatusFields) : stPBX x.word = x.pbx := (x.getLsbD_word 25).trans (by simp)

@[simp] theorem stIE_word (x : StatusFields) : stIE x.word = x.ie := (x.getLsbD_word 21).trans (by simp)

@[simp] theorem stFieldSigned_word (x : StatusFields) (k : FieldSel) :
    stFieldSigned x.word k = match k with | .field0 => x.fe0 | .field1 => x.fe1 := by
  cases k with
  | field0 => exact (x.getLsbD_word 5).trans (by simp)
  | field1 => exact (x.getLsbD_word 11).trans (by simp)

@[simp] theorem stFieldCode_word (x : StatusFields) (k : FieldSel) :
    stFieldCode x.word k = match k with | .field0 => x.fs0 | .field1 => x.fs1 := by
  cases k with
  | field0 =>
    change x.layout.extractLsb' 0 5 = x.fs0
    simp [layout, BitVec.extractLsb'_append_eq_of_add_le, -Nat.reduceAdd]
  | field1 =>
    change x.layout.extractLsb' 6 5 = x.fs1
    simp [layout, BitVec.extractLsb'_append_eq_of_le, BitVec.extractLsb'_append_eq_of_add_le, -Nat.reduceAdd]

/-- Ones in the reserved bits (R19): the mask of `stReserved`. -/
def reservedMask : StatusFields where
  n := false
  c := false
  z := false
  v := false
  r2 := BitVec.allOnes 2
  pbx := false
  r1 := BitVec.allOnes 3
  ie := false
  r0 := BitVec.allOnes 9
  fe1 := false
  fs1 := 0#5
  fe0 := false
  fs0 := 0#5

/-- The fields with all but the reserved bits cleared. -/
def keepReserved (x : StatusFields) : StatusFields :=
  { reservedMask with r2 := x.r2, r1 := x.r1, r0 := x.r0 }

/-- The mask is ANDed with ST field by field. -/
theorem layout_and_reservedMask (x : StatusFields) : x.layout &&& reservedMask.layout = x.keepReserved.layout := by
  simp only [layout, reservedMask, keepReserved, BitVec.and_append, BitVec.and_allOnes, BitVec.ofBool_false,
    BitVec.ofNat_eq_ofNat, BitVec.and_zero, -Nat.reduceAdd]

/-- What the mask leaves of ST, the neighbouring cleared fields run together. -/
theorem word_keepReserved (x : StatusFields) :
    x.keepReserved.word = (0#4 ++ x.r2 ++ 0#1 ++ x.r1 ++ 0#1 ++ x.r0 ++ 0#12 : BitVec 32) := by
  change x.keepReserved.layout = 0#4 ++ x.r2 ++ 0#1 ++ x.r1 ++ 0#1 ++ x.r0 ++ 0#12
  apply BitVec.eq_of_toNat_eq
  simp [layout, keepReserved, reservedMask, BitVec.toNat_append, ← Nat.shiftLeft_add, -Nat.reduceAdd]

@[simp] theorem stReserved_word (x : StatusFields) :
    stReserved x.word = (0#4 ++ x.r2 ++ 0#1 ++ x.r1 ++ 0#1 ++ x.r0 ++ 0#12 : BitVec 32) :=
  calc stReserved x.word = x.layout &&& reservedMask.layout := rfl
    _ = x.keepReserved.layout := x.layout_and_reservedMask
    _ = _ := x.word_keepReserved

end StatusFields

/-- Settles O1: the fields are read off the layout one by one; the value at reset is evaluated. -/
theorem statusRegisterLayoutAndReset : Obligations.StatusRegisterLayoutAndReset := by
  refine ⟨fun n c z v pbx ie fe1 fe0 r2 r1 r0 fs1 fs0 => ?_, by decide⟩
  let x : StatusFields := { n, c, z, v, r2, pbx, r1, ie, r0, fe1, fs1, fe0, fs0 }
  exact ⟨x.stN_word, x.stC_word, x.stZ_word, x.stV_word, x.stPBX_word, x.stIE_word,
    x.stFieldSigned_word .field1, x.stFieldCode_word .field1, x.stFieldSigned_word .field0, x.stFieldCode_word .field0,
    x.stReserved_word⟩

/-! ### Fields loaded into registers (R20, R21, R58) -/

/-- The size of a field by the number its code stands for (R20). -/
theorem stFieldSize_eq_ite_toNat (st : Word) (k : FieldSel) :
    stFieldSize st k = if (stFieldCode st k).toNat = 0 then 32 else (stFieldCode st k).toNat := by
  simp only [stFieldSize, ← BitVec.toNat_inj, BitVec.toNat_zero]

/-- A field is no longer than a register. -/
theorem stFieldSize_le (st : Word) (k : FieldSel) : stFieldSize st k ≤ 32 := by
  have := (stFieldCode st k).isLt
  rw [stFieldSize_eq_ite_toNat]
  split_ifs <;> omega

/-- The value of a field as a register takes it, from memory's bits. -/
theorem State.fst_readField_of_quiet {s : State} (h : s.inside = []) (k : FieldSel) (a : Word) :
    (s.readField k a).1 =
      if stFieldSigned s.st k then (s.mem.readBits a (stFieldSize s.st k)).signExtend 32
      else (s.mem.readBits a (stFieldSize s.st k)).setWidth 32 := by
  rw [State.readField, State.load_of_quiet h a (stFieldSize_le s.st k)]
  simp only [Memory.readZext, BitVec.setWidth_setWidth_of_le _ (stFieldSize_le s.st k), BitVec.setWidth_eq]

/-- Settles O21: neither extension changes the value, since a field has at most the 32 bits of a register. -/
theorem fieldLoadExtendsByFE : Obligations.FieldLoadExtendsByFE := by
  intro s k f dst a quiet
  have hle := stFieldSize_le s.st k
  refine ⟨stFieldSize_eq_ite_toNat s.st k, fun signed => ?_, fun unsigned => ?_⟩
  · rw [State.readReg_fieldLoad_self, State.fst_readField_of_quiet quiet, if_pos signed,
      BitVec.toInt_signExtend_of_le hle]
  · rw [State.readReg_fieldLoad_self, State.fst_readField_of_quiet quiet, if_neg (by simp [unsigned]),
      BitVec.toNat_setWidth_of_le hle]

end Sys2Proof.Machine

/-! SUPPORT. What memory reads after a value is written: the value, its neighbours, and a part of it (R52, D1). -/

namespace Sys2Proof.Machine

/-- The bit of a value at its own address has its own number. -/
theorem toNat_add_ofNat_sub_self (a : Word) {i : Nat} (hi : i < 2 ^ 32) : (a + BitVec.ofNat 32 i - a).toNat = i :=
  (eq_add_ofNat_iff a _ hi).1 rfl

/-- A write of any length changes no bit that it does not cover. -/
theorem Memory.readBit_writeBits_of_not_covers (m : Memory) {a x : Word} (v : Word) {n : Nat}
    (h : covers a n x = false) : (m.writeBits a n v).readBit x = m.readBit x := by
  have outside : ¬ (x - a).toNat < n := by simpa [covers] using h
  have hlt := (x - a).isLt
  rw [Memory.readBit_writeBits m a x v (by omega), if_neg outside]

/-- The value written is read back: its bit `i` went to the address `a + i`, which no other of its bits has. -/
theorem Memory.readBits_writeBits_self (m : Memory) (a v : Word) {n : Nat} (hn : n ≤ 2 ^ 32) :
    (m.writeBits a n v).readBits a n = v.setWidth n := by
  apply BitVec.eq_of_getLsbD_eq
  intro i hi
  rw [Memory.getLsbD_readBits, Memory.readBit_writeBits m a _ v hn, toNat_add_ofNat_sub_self a (by omega), if_pos hi,
    BitVec.getLsbD_setWidth]

/-- A value none of whose bits the write covers reads as before. -/
theorem Memory.readBits_writeBits_of_not_covers (m : Memory) (a v b : Word) {n k : Nat}
    (h : ∀ j, j < k → covers a n (b + BitVec.ofNat 32 j) = false) :
    (m.writeBits a n v).readBits b k = m.readBits b k :=
  Memory.readBits_congr fun j hj => m.readBit_writeBits_of_not_covers v (h j hj)

/-- A narrower read returns the low bits of a wider one at the same address. -/
theorem Memory.setWidth_readBits (m : Memory) (a : Word) {n k : Nat} (hk : k ≤ n) :
    (m.readBits a n).setWidth k = m.readBits a k := by
  apply BitVec.eq_of_getLsbD_eq
  intro i hi
  have hin : i < n := by omega
  simp only [BitVec.getLsbD_setWidth, Memory.getLsbD_readBits, hi, hin, decide_true, Bool.true_and]

/-- Settles O19: bit by bit, through what one bit reads after a write. -/
theorem memoryReadReturnsLatestWrite : Obligations.MemoryReadReturnsLatestWrite := by
  intro m a v n hn
  exact ⟨m.readBits_writeBits_self a v (by omega), fun b _ outside => m.readBits_writeBits_of_not_covers a v b outside,
    fun _ hk => (m.setWidth_readBits a hk).symm⟩

end Sys2Proof.Machine

/-! SUPPORT. The instructions that leave a value in one register, N, C, Z and V free: their result and frame, said once, and
the moves and additions of R103 to R105 as uses of it. -/

namespace Sys2Proof.Machine

/-! ### One register written, flags free -/

/-- Making flags free leaves the registers alone. -/
@[simp] theorem State.readReg_withFreeFlags (s : State) (f : RFile) (i : RegIdx) :
    s.withFreeFlags.readReg f i = s.readReg f i :=
  State.readReg_congr rfl rfl rfl f i

/-- Free flags change N, C, Z and V alone: the bits from 28 up (R18, R25). -/
theorem State.keepsStatus_writeReg_withFreeFlags (s : State) (f : RFile) (i : RegIdx) (v : Word) :
    s.KeepsStatus (s.writeReg f i v).withFreeFlags where
  bits k hk := by rw [State.st_withFreeFlags, getLsbD_setFlags_low _ _ hk, State.st_writeReg]
  resuming := by simp

/-- Registers and flags are apart from memory, the cache and the outside world. -/
theorem State.keepsStorage_writeReg_withFreeFlags (s : State) (f : RFile) (i : RegIdx) (v : Word) :
    s.KeepsStorage (s.writeReg f i v).withFreeFlags where
  io := by simp
  pending := by simp
  params := by simp
  freeCount := by simp
  inputs := by simp
  mem := by simp
  posted := by simp
  inside := by simp
  cache := by simp
  rewritten := by simp
  suspended := by simp

/-- A register written and the flags made free: the whole effect of MOVE, MOVI, ADDI and SUBXY (R103 to R106). -/
theorem State.oneRegister_writeReg_withFreeFlags (s : State) (f : RFile) (i : RegIdx) (v : Word) :
    s.OneRegister (s.writeReg f i v).withFreeFlags f i v where
  toKeepsStorage := s.keepsStorage_writeReg_withFreeFlags f i v
  result := by rw [State.readReg_withFreeFlags, State.readReg_writeReg_self]
  stack := by
    rintro rfl
    exact s.writeReg_sp f f.other v
  others g j other := by rw [State.readReg_withFreeFlags, State.readReg_writeReg, if_neg other]
  status := s.keepsStatus_writeReg_withFreeFlags f i v
  pc := by simp

/-! ### MOVE and ADDI -/

theorem exec_moveSame (f : RFile) (src dst : RegIdx) (s : State) :
    exec (.moveSame f src dst) s = .next (s.writeReg f dst (s.readReg f src)).withFreeFlags := rfl

theorem exec_moveOther (f : RFile) (src dst : RegIdx) (s : State) :
    exec (.moveOther f src dst) s = .next (s.writeReg f.other dst (s.readReg f src)).withFreeFlags := rfl

theorem exec_addiIL (f : RFile) (dst : RegIdx) (imm : Word) (s : State) :
    exec (.addiIL f dst imm) s = .next (s.writeReg f dst (s.readReg f dst + imm)).withFreeFlags := rfl

/-- Settles O31: either MOVE writes the source to the one register it names. -/
theorem moveCopiesTheSource : Obligations.MoveCopiesTheSource := fun s f src dst =>
  ⟨⟨_, exec_moveSame f src dst s, s.oneRegister_writeReg_withFreeFlags f dst _⟩,
    ⟨_, exec_moveOther f src dst s, s.oneRegister_writeReg_withFreeFlags f.other dst _⟩⟩

/-- Settles O34: the sum of two words is their sum as numbers, modulo 2^32. -/
theorem addiAddsModuloTwoTo32 : Obligations.AddiAddsModuloTwoTo32 := by
  intro s f dst imm
  refine ⟨_, exec_addiIL f dst imm s, ?_⟩
  rw [← BitVec.add_def]
  exact s.oneRegister_writeReg_withFreeFlags f dst _

end Sys2Proof.Machine

/-! SUPPORT. PIXBLT and FILL carry out their plan, and a plan without transfers leaves memory and the cache alone; the
plan of an array with a zero dimension is one (R128, R129). -/

namespace Sys2Proof.Machine

/-! ### The plan an array instruction carries out -/

theorem exec_of_pixbltForms {i : Instr} {src dst : ArrayForm} (h : pixbltForms i = some (src, dst)) (s : State) :
    exec i s = .next (s.finishBlit (s.currentPlan (s.pixbltPlan src dst))) := by
  cases i with
  | pixbltLL | pixbltLXY | pixbltXYL | pixbltXYXY | pixbltBL | pixbltBXY => cases h; rfl
  | _ => cases h

theorem exec_fillOf (xy : Bool) (s : State) :
    exec (fillOf xy) s = .next (s.finishBlit (s.currentPlan (s.fillPlan (fillForm xy)))) := by
  cases xy <;> rfl

theorem State.currentPlan_of_not_resuming {s : State} (h : s.resuming = false) (fresh : BlitPlan) :
    s.currentPlan fresh = fresh := by
  simp [State.currentPlan, h]

/-! ### A zero dimension (R129) -/

theorem emptyArray_iff {dydx : Word} : emptyArray dydx = true ↔ rowsOf dydx = 0 ∨ columnsOf dydx = 0 := by
  simp [emptyArray]

/-- Window option 1 draws nothing at all; otherwise a PIXBLT of an empty array has no transfers. -/
theorem State.ops_pixbltPlan_of_empty {s : State} (h : emptyArray s.dydx = true) (src dst : ArrayForm) :
    (s.pixbltPlan src dst).ops = [] := by
  by_cases option1 : dst = .xy ∧ s.io.window = .option1
  · obtain ⟨rfl, window⟩ := option1
    rw [s.pixbltPlan_option1 src window]
    exact (s.commonRectPlan_spec true).1
  · rw [s.ops_pixbltPlan src dst option1, if_pos h]

/-- Window option 1 draws nothing at all; otherwise a FILL of an empty array has no transfers. -/
theorem State.ops_fillPlan_of_empty {s : State} (h : emptyArray s.dydx = true) (dst : ArrayForm) :
    (s.fillPlan dst).ops = [] := by
  by_cases option1 : dst = .xy ∧ s.io.window = .option1
  · obtain ⟨rfl, window⟩ := option1
    rw [s.fillPlan_option1 window]
    exact (s.commonRectPlan_spec false).1
  · rw [s.ops_fillPlan dst option1, if_pos h]

/-- Nothing to transfer: memory stays, and no write to CF can flush the cache. -/
theorem State.mem_cache_finishBlit_of_ops_nil (s : State) {p : BlitPlan} (h : p.ops = []) :
    (s.finishBlit p).mem = s.mem ∧ (s.finishBlit p).cache = s.cache := by
  simp [h]

/-- Settles O38: the plan that is carried out, a fresh one, has no transfers. -/
theorem zeroDimensionMovesNothing : Obligations.ZeroDimensionMovesNothing := by
  intro i s array fresh zero
  have empty : emptyArray s.dydx = true := emptyArray_iff.2 zero
  have fillMovesNothing (xy : Bool) :
      ∃ t, exec (fillOf xy) s = .next t ∧ t.mem = s.mem ∧ t.cache = s.cache := by
    refine ⟨_, exec_fillOf xy s, s.mem_cache_finishBlit_of_ops_nil ?_⟩
    rw [State.currentPlan_of_not_resuming fresh, State.ops_fillPlan_of_empty empty]
  rcases array with pixblt | rfl | rfl
  · obtain ⟨⟨src, dst⟩, forms⟩ := Option.isSome_iff_exists.1 pixblt
    refine ⟨_, exec_of_pixbltForms forms s, s.mem_cache_finishBlit_of_ops_nil ?_⟩
    rw [State.currentPlan_of_not_resuming fresh, State.ops_pixbltPlan_of_empty empty]
  · exact fillMovesNothing false
  · exact fillMovesNothing true

end Sys2Proof.Machine

/-! SUPPORT. The conditional branches: the address an absolute branch loads (R172), the offset a relative one adds (R86,
R173), and JAcc and JRcc as uses of them. -/

namespace Sys2Proof.Machine

/-! ### Branch addresses and offsets -/

/-- Loading PC clears the four LSBs of the address and keeps the others (R172, R174). -/
theorem alignPc_eq_and (a : Word) : alignPc a = a &&& 0xFFFFFFF0#32 :=
  have parts : a.extractLsb' 4 28 ++ a.extractLsb' 0 4 = a := by
    rw [BitVec.extractLsb'_append_extractLsb'_eq_extractLsb' (by rfl), BitVec.extractLsb'_eq_self]
  calc alignPc a = a.extractLsb' 4 28 ++ a.extractLsb' 0 4 &&& BitVec.allOnes 28 ++ 0#4 := by
        rw [BitVec.and_append, BitVec.and_allOnes, BitVec.and_zero]; rfl
    _ = a &&& 0xFFFFFFF0#32 := by rw [parts]; rfl

/-- A displacement of any width, counted in words, is a signed multiple of 16 bits (R86). -/
theorem signExtend_shiftLeft_four {n : Nat} (d : BitVec n) :
    d.signExtend 32 <<< 4 = BitVec.ofInt 32 (16 * d.toInt) := by
  rw [BitVec.shiftLeft_eq_mul_twoPow, BitVec.mul_comm, BitVec.ofInt_mul]
  rfl

theorem offset8_eq_ofInt (d : BitVec 8) : offset8 d = BitVec.ofInt 32 (16 * d.toInt) :=
  signExtend_shiftLeft_four d

theorem offset16_eq_ofInt (d : Word16) : offset16 d = BitVec.ofInt 32 (16 * d.toInt) :=
  signExtend_shiftLeft_four d

/-- A multiple of 16, even taken modulo 2^32, has its four LSBs 0. -/
theorem wordAligned_ofInt_mul (k : Int) : wordAligned (BitVec.ofInt 32 (16 * k)) := by
  rw [wordAligned_iff_toNat, BitVec.toNat_ofInt]
  omega

/-! ### JAcc and JRcc -/

/-- A relative branch by whole words from an aligned PC loses no bit of the sum when it loads PC (R173). -/
theorem State.branchIf_eq {s : State} (aligned : wordAligned s.pc) (taken : Bool) (k : Int) :
    s.branchIf taken (BitVec.ofInt 32 (16 * k)) =
      { s with pc := if taken then s.pc + BitVec.ofInt 32 (16 * k) else s.pc } := by
  cases taken with
  | false => rfl
  | true =>
    have target := alignPc_of_wordAligned (wordAligned_add aligned (wordAligned_ofInt_mul k))
    simp only [State.branchIf, State.loadPc, target, if_true]

theorem exec_jacc (c : BitVec 4) (addr : Word) (s : State) :
    exec (.jacc c addr) s = .next (if conditionHolds c s.st then s.loadPc addr else s) := rfl

theorem exec_jrcc8 (c : BitVec 4) (d : BitVec 8) (s : State) :
    exec (.jrcc8 c d) s = .next (s.branchIf (conditionHolds c s.st) (offset8 d)) := rfl

theorem exec_jrcc16 (c : BitVec 4) (d : Word16) (s : State) :
    exec (.jrcc16 c d) s = .next (s.branchIf (conditionHolds c s.st) (offset16 d)) := rfl

/-- Settles O53: taken, PC alone is loaded; not taken, nothing changes. -/
theorem jumpAbsoluteOnCondition : Obligations.JumpAbsoluteOnCondition := by
  intro c addr s
  rw [exec_jacc, ← alignPc_eq_and]
  cases conditionHolds c s.st with
  | true => rfl
  | false => rfl

/-- Settles O54: both lengths are one relative branch by sixteen times the displacement. -/
theorem jumpRelativeOnCondition : Obligations.JumpRelativeOnCondition := by
  intro c s aligned
  refine ⟨fun d => ?_, fun d => ?_⟩
  · rw [exec_jrcc8, offset8_eq_ofInt, State.branchIf_eq aligned]
  · rw [exec_jrcc16, offset16_eq_ofInt, State.branchIf_eq aligned]

end Sys2Proof.Machine

/-! SUPPORT. The LRU stack after an access (R196), and the two misses of the instruction cache: which outcome a lookup has
(R198), and what the load of a subsegment leaves of the cache and returns (R200, R201). -/

namespace Sys2Proof.Machine

/-! ### The order of the LRU stack (R196) -/

theorem getElem?_touch_zero (lru : List (Fin 4)) (g : Fin 4) : (touch lru g)[0]? = some g := rfl

theorem filter_ne_touch {lru : List (Fin 4)} (nodup : lru.Nodup) (g : Fin 4) :
    (touch lru g).filter (fun h => h ≠ g) = lru.filter (fun h => h ≠ g) := by
  rw [touch, nodup.erase_eq_filter, List.filter_cons_of_neg (by simp), List.filter_filter]
  exact List.filter_congr fun h _ => by by_cases same : h = g <;> simp [same]

/-- One segment leaves from above and one arrives on top, so those below stay where they are. -/
theorem getElem?_touch_of_idxOf_lt {lru : List (Fin 4)} {g : Fin 4} {k : Nat} (h : lru.idxOf g < k) :
    (touch lru g)[k]? = lru[k]? := by
  cases k with
  | zero => exact absurd h (Nat.not_lt_zero _)
  | succ k =>
    rw [touch, List.getElem?_cons_succ, ← List.eraseIdx_idxOf_eq_erase,
      List.getElem?_eraseIdx_of_ge (Nat.lt_succ_iff.mp h)]

/-- Settles O23: the segment is taken out of the stack and put in front of it. -/
theorem touchMovesSegmentToTop : Obligations.TouchMovesSegmentToTop := by
  intro lru g perm
  have nodup : lru.Nodup := perm.nodup_iff.mpr (by decide)
  exact ⟨getElem?_touch_zero lru g, filter_ne_touch nodup g, fun _ => getElem?_touch_of_idxOf_lt⟩

/-! ### Lookups that miss (R198) -/

theorem Cache.lookup_eq_subsegmentMiss {c : Cache} {a : Word} {g : Fin 4} (unique : ∀ h, (c.seg h).ssa = tagOf a → h = g)
    (tag : (c.seg g).ssa = tagOf a) (absent : (c.seg g).isPresent (subOf a) = false) (choice : Nat) :
    c.lookup choice a = .subsegmentMiss g := by
  rcases c.lookup_cases choice a with ⟨h, -, matched, present⟩ | ⟨h, miss, matched, -⟩ | ⟨-, unmatched⟩
  · rw [unique h matched, absent] at present
    cases present
  · rw [miss, unique h matched]
  · exact absurd tag (unmatched g)

theorem Cache.lookup_eq_segmentMiss {c : Cache} {a : Word} (unmatched : ∀ h, (c.seg h).ssa ≠ tagOf a) (choice : Nat) :
    c.lookup choice a = .segmentMiss c.victim := by
  rcases c.lookup_cases choice a with ⟨h, -, matched, -⟩ | ⟨h, -, matched, -⟩ | ⟨miss, -⟩
  · exact absurd matched (unmatched h)
  · exact absurd matched (unmatched h)
  · exact miss

/-- The victim is the segment at the bottom of the stack (R203). -/
theorem Cache.victim_eq {c : Cache} {g : Fin 4} (bottom : c.lru[3]? = some g) : c.victim = g := by
  rw [Cache.victim, List.getD_eq_getElem?_getD, bottom, Option.getD_some]

/-! ### What the load of a subsegment leaves of the cache (R200) -/

@[simp] theorem Cache.lru_install (c : Cache) (g : Fin 4) (sub : Fin 8) (line : Vector Word16 4) :
    (c.install g sub line).lru = touch c.lru g := rfl

theorem Cache.seg_install_same (c : Cache) (g : Fin 4) (sub : Fin 8) (line : Vector Word16 4) :
    (c.install g sub line).seg g = (c.seg g).fill sub line := by
  rw [Cache.seg_install, if_pos rfl]

theorem Cache.seg_install_of_ne (c : Cache) {g h : Fin 4} (ne : h ≠ g) (sub : Fin 8) (line : Vector Word16 4) :
    (c.install g sub line).seg h = c.seg h := by
  rw [Cache.seg_install, if_neg ne]

@[simp] theorem Cache.ssa_install (c : Cache) (g : Fin 4) (sub : Fin 8) (line : Vector Word16 4) :
    ((c.install g sub line).seg g).ssa = (c.seg g).ssa := by
  rw [Cache.seg_install_same, Segment.ssa_fill]

theorem Cache.isPresent_install (c : Cache) (g : Fin 4) (sub j : Fin 8) (line : Vector Word16 4) :
    ((c.install g sub line).seg g).isPresent j = if j = sub then true else (c.seg g).isPresent j := by
  rw [Cache.seg_install_same, Segment.isPresent_fill]

theorem Cache.line_install_same (c : Cache) (g : Fin 4) (sub : Fin 8) (line : Vector Word16 4) :
    ((c.install g sub line).seg g).line sub = line := by
  rw [Cache.seg_install_same, Segment.line_fill, if_pos rfl]

theorem Cache.line_install_of_ne (c : Cache) (g : Fin 4) {sub j : Fin 8} (ne : j ≠ sub) (line : Vector Word16 4) :
    ((c.install g sub line).seg g).line j = (c.seg g).line j := by
  rw [Cache.seg_install_same, Segment.line_fill, if_neg ne]

/-! ### A segment replaced (R201) -/

@[simp] theorem Cache.lru_retag (c : Cache) (g : Fin 4) (tag : BitVec 23) : (c.retag g tag).lru = c.lru := rfl

theorem Cache.seg_retag_same (c : Cache) (g : Fin 4) (tag : BitVec 23) :
    (c.retag g tag).seg g = { (c.seg g).clear with ssa := tag } := by
  rw [Cache.seg_retag, if_pos rfl]

theorem Cache.seg_retag_of_ne (c : Cache) {g h : Fin 4} (ne : h ≠ g) (tag : BitVec 23) :
    (c.retag g tag).seg h = c.seg h := by
  rw [Cache.seg_retag, if_neg ne]

@[simp] theorem Cache.ssa_retag (c : Cache) (g : Fin 4) (tag : BitVec 23) : ((c.retag g tag).seg g).ssa = tag := by
  rw [Cache.seg_retag_same]

@[simp] theorem Cache.isPresent_retag (c : Cache) (g : Fin 4) (tag : BitVec 23) (j : Fin 8) :
    ((c.retag g tag).seg g).isPresent j = false := by
  rw [Cache.seg_retag_same]
  exact Segment.isPresent_clear (c.seg g) j

/-! ### Fetches that miss -/

/-- A fetch that leaves its subsegment loaded returns the word of memory. -/
theorem State.fetchedWord_of_installed {s : State} {a : Word} (c : Cache) (quiet : s.inside = [])
    (enabled : s.bypass = false)
    (installed : s.fetchCache a =
      c.install (s.cache.lookup (s.fetchChoice a) a).segment (subOf a) (readSubsegment s.mem (tagOf a) (subOf a))) :
    s.fetchedWord a = s.mem.readBits (lineAddr (tagOf a) (subOf a) (wordOf a)) 16 := by
  rw [State.fetchedWord_of_quiet quiet enabled, ← State.fetchCache_of_quiet quiet enabled, installed,
    Cache.line_install_same, readSubsegment_get]

theorem State.fetch_of_subsegmentMiss {s : State} {a : Word} {g : Fin 4} (quiet : s.inside = [])
    (enabled : s.bypass = false) (miss : s.cache.lookup (s.fetchChoice a) a = .subsegmentMiss g) :
    s.fetchCache a = s.cache.install g (subOf a) (readSubsegment s.mem (tagOf a) (subOf a)) ∧
    s.fetchedWord a = s.mem.readBits (lineAddr (tagOf a) (subOf a) (wordOf a)) 16 := by
  have cache : s.fetchCache a = s.cache.install g (subOf a) (readSubsegment s.mem (tagOf a) (subOf a)) := by
    rw [State.fetchCache_of_quiet quiet enabled, Cache.access, miss]
  exact ⟨cache, State.fetchedWord_of_installed s.cache quiet enabled (by rw [cache, miss, LookupResult.segment])⟩

theorem State.fetch_of_segmentMiss {s : State} {a : Word} {g : Fin 4} (quiet : s.inside = [])
    (enabled : s.bypass = false) (miss : s.cache.lookup (s.fetchChoice a) a = .segmentMiss g) :
    s.fetchCache a =
      (s.cache.retag g (tagOf a)).install g (subOf a) (readSubsegment s.mem (tagOf a) (subOf a)) ∧
    s.fetchedWord a = s.mem.readBits (lineAddr (tagOf a) (subOf a) (wordOf a)) 16 := by
  have cache : s.fetchCache a =
      (s.cache.retag g (tagOf a)).install g (subOf a) (readSubsegment s.mem (tagOf a) (subOf a)) := by
    rw [State.fetchCache_of_quiet quiet enabled, Cache.access, miss]
  exact ⟨cache, State.fetchedWord_of_installed _ quiet enabled (by rw [cache, miss, LookupResult.segment])⟩

/-- Settles O25: the one segment with the tag lacks the subsegment, so it is loaded there. -/
theorem subsegmentMissLoadsFourWords : Obligations.SubsegmentMissLoadsFourWords := by
  intro s a g quiet enabled tag unique absent
  have miss := Cache.lookup_eq_subsegmentMiss unique tag absent (s.fetchChoice a)
  obtain ⟨cache, word⟩ := State.fetch_of_subsegmentMiss quiet enabled miss
  simp only [cache]
  refine ⟨rfl, ?ssa, fun j => ?presentFlags, fun w => ?loaded, fun j ne => ?otherLines, fun h ne => ?otherSegments, word⟩
  case ssa => rw [Cache.ssa_install, tag]
  case presentFlags => exact Cache.isPresent_install ..
  case loaded => rw [Cache.line_install_same, readSubsegment_get]
  case otherLines => exact Cache.line_install_of_ne _ _ ne _
  case otherSegments => exact Cache.seg_install_of_ne _ ne _ _

/-- Settles O26: no segment has the tag, so the one at the bottom gets it, cleared, and the subsegment is loaded there. -/
theorem segmentMissReplacesTheBottomSegment : Obligations.SegmentMissReplacesTheBottomSegment := by
  intro s a g quiet enabled unmatched _ bottom
  have miss := Cache.lookup_eq_segmentMiss unmatched (s.fetchChoice a)
  rw [Cache.victim_eq bottom] at miss
  obtain ⟨cache, word⟩ := State.fetch_of_segmentMiss quiet enabled miss
  simp only [cache]
  refine ⟨rfl, ?ssa, fun j => ?presentFlags, fun w => ?loaded, fun h ne => ?otherSegments, word⟩
  case ssa => rw [Cache.ssa_install, Cache.ssa_retag]
  case presentFlags =>
    rw [Cache.isPresent_install, Cache.isPresent_retag]
    by_cases same : j = subOf a
    · rw [if_pos same, decide_eq_true same]
    · rw [if_neg same, decide_eq_false same]
  case loaded => rw [Cache.line_install_same, readSubsegment_get]
  case otherSegments => rw [Cache.seg_install_of_ne _ ne, Cache.seg_retag_of_ne _ ne]

end Sys2Proof.Machine

/-! SUPPORT. What an instruction does, one equation per constructor of `Instr`; and the frame that every operation inside an
instruction stays in, composed along `exec` and then along `step`: the invariant of every step, and what no instruction
changes. -/

namespace Sys2Proof.Machine

/-! ### One equation per instruction -/

section Equations

variable (f : RFile) (src dst : RegIdx) (s : State)

theorem exec_moviIW (imm : Word16) :
    exec (.moviIW f dst imm) s = .next (s.writeReg f dst (shortImmediate imm)).withFreeFlags := rfl

theorem exec_moviIL (imm : Word) : exec (.moviIL f dst imm) s = .next (s.writeReg f dst imm).withFreeFlags := rfl

theorem exec_addiIW (imm : Word16) :
    exec (.addiIW f dst imm) s = .next (s.writeReg f dst (s.readReg f dst + shortImmediate imm)).withFreeFlags := rfl

theorem exec_subxy :
    exec (.subxy f src dst) s =
      .next (s.writeReg f dst (subHalves (s.readReg f dst) (s.readReg f src))).withFreeFlags := rfl

/-- The B file replaced, as LINE does at its end. -/
def State.withB (s : State) (b : Vector Word 15) : State := { s with b }

theorem exec_line (z : Bool) :
    exec (.line z) s =
      .next ((s.drawPixels (((s.linePoints z).filter s.drawsAt).map s.colorOp)).withB
        (s.withLineRegs (s.lineAfter z (s.lineCount z)))).withFreeFlags := rfl

/-- DRAV with its address register and its step register named. -/
def State.drav (s : State) (f : RFile) (addrReg stepReg : RegIdx) : State :=
  let xy := s.readReg f addrReg
  ((if s.drawsAt xy then s.drawPixel (s.colorOp xy) else s).writeReg f addrReg
    (Config.advanceXY xy (s.readReg f stepReg))).withFreeFlags

theorem exec_drav :
    exec (.drav f src dst) s =
      .next (s.drav f (if s.params.dravAddrInRd then dst else src) (if s.params.dravAddrInRd then src else dst)) := rfl

theorem exec_cvxyl :
    exec (.cvxyl f src dst) s =
      .next (s.writeReg f dst (s.linearOf .convert (s.readReg f src))).withFreeFlags := rfl

theorem exec_cpw :
    exec (.cpw f src dst) s =
      .next (s.writeReg f dst
        (Config.cpwResult (s.readReg f src) (s.readReg f dst) s.wstart s.wend)).withFreeFlags := rfl

/-- A pixel stored at an XY address where the window lets it: what both storing PIXTs do (R154, R156). -/
def State.storePixel (s : State) (source : PixelSource) (xy : Word) : State :=
  (if s.drawsAt xy then s.drawPixel (s.wholePixel source (s.linearOf .pixelDestination xy)) else s).withFreeFlags

theorem exec_pixtToXY :
    exec (.pixtToXY f src dst) s = .next (s.storePixel (.value (s.readReg f src)) (s.readReg f dst)) := rfl

theorem exec_pixtXYToXY :
    exec (.pixtXYToXY f src dst) s =
      .next (s.storePixel (.memory (s.linearOf .pixelSource (s.readReg f src))) (s.readReg f dst)) := rfl

/-- The pixel that PIXT from an XY address loads, and the state after its read. -/
def State.loadPixel (s : State) (xy : Word) : Word × State := s.load (s.linearOf .pixelSource xy) s.io.pixelSize

theorem exec_pixtFromXY :
    exec (.pixtFromXY f src dst) s =
      .next ((s.loadPixel (s.readReg f src)).2.writeReg f dst
        ((s.loadPixel (s.readReg f src)).1 |||
          (Config.freeWord s.freeCount .highBits <<< (s.io.pixelSize : Nat)))).withFreeFlags := rfl

theorem exec_trap (n : BitVec 5) :
    exec (.trap n) s = .next (s.enterException s.pc (setPBX s.st false) (Config.trapAddress s.freeCount n)) := rfl

theorem exec_calla (addr : Word) :
    exec (.calla addr) s = .next ((s.push32 s.pc).loadPc addr).withFreeFlags := rfl

theorem exec_callRs :
    exec (.callRs f src) s = .next ((s.push32 s.pc).loadPc (s.readReg f src)).withFreeFlags := rfl

theorem exec_dsj (d : Word16) :
    exec (.dsj f dst d) s = .next (s.decrementJump .dsj f dst (s.pc + offset16 d)) := rfl

theorem exec_dsjeq (d : Word16) :
    exec (.dsjeq f dst d) s = .next (s.decrementJump .dsjeq f dst (s.pc + offset16 d)) := rfl

theorem exec_dsjne (d : Word16) :
    exec (.dsjne f dst d) s = .next (s.decrementJump .dsjne f dst (s.pc + offset16 d)) := rfl

theorem exec_dsjs (back : Bool) (offset : BitVec 5) :
    exec (.dsjs back offset f dst) s =
      .next (s.decrementJump .dsjs f dst (Config.dsjsTarget s.pc back offset)) := rfl

theorem exec_jump : exec (.jump f src) s = .next (s.loadPc (s.readReg f src)).withFreeFlags := rfl

theorem exec_exgpc :
    exec (.exgpc f dst) s = .next ((s.writeReg f dst s.pc).loadPc (s.readReg f dst)).withFreeFlags := rfl

/-- SP raised past the words that RETS drops besides PC. -/
def State.dropWords (s : State) (n : BitVec 5) : State := { s with sp := s.sp + 16#32 * n.setWidth 32 }

theorem exec_rets (n : BitVec 5) :
    exec (.rets n) s = .next ((s.pop32.2.dropWords n).loadPc s.pop32.1).withFreeFlags := rfl

theorem exec_reti : exec .reti s = .next s.returnFromException := rfl

end Equations

/-! ### The frame of every operation -/

/-- What even a step keeps besides the outside world and the cache: the quiet of a state without due host writes, and what
every memory cycle keeps. -/
structure State.Steady (s t : State) : Prop where
  quiet : s.inside = [] → t.inside = []
  sound : s.Sound → t.Sound

/-- What every operation inside an instruction keeps: the outside world, the cache but for a flush, HLT where no host write
is due, and what a step keeps. -/
structure State.Framed (s t : State) : Prop extends State.KeepsOutside s t, State.Steady s t where
  cache : s.KeepsCacheOrFlushes t
  halt : s.inside = [] → t.hlt = s.hlt

theorem State.Steady.trans {s t u : State} (h : s.Steady t) (h' : t.Steady u) : s.Steady u where
  quiet q := h'.quiet (h.quiet q)
  sound i := h'.sound (h.sound i)

theorem State.Framed.trans {s t u : State} (h : s.Framed t) (h' : t.Framed u) : s.Framed u where
  toSteady := h.toSteady.trans h'.toSteady
  io := h'.io.trans h.io
  pending := h'.pending.trans h.pending
  params := h'.params.trans h.params
  freeCount := h'.freeCount.trans h.freeCount
  inputs := h'.inputs.trans h.inputs
  cache := h.cache.trans h'.cache
  halt q := (h'.halt (h.quiet q)).trans (h.halt q)

theorem State.OnlyMemory.keepsOutside {s t : State} (h : s.OnlyMemory t) : s.KeepsOutside t :=
  ⟨h.io, h.pending, h.params, h.freeCount, h.inputs⟩

theorem State.hlt_congr {s t : State} (hm : t.mem = s.mem) (hp : t.params = s.params) : t.hlt = s.hlt := by
  unfold State.hlt State.hltAddr; rw [hm, hp]

/-- A change of registers and flags alone is in the frame, if PC stays word aligned. -/
theorem State.Framed.of_keepsMemory {s t : State} (outside : s.KeepsOutside t) (memory : s.KeepsMemory t)
    (pc : wordAligned s.pc → wordAligned t.pc) : s.Framed t where
  toKeepsOutside := outside
  cache := .inl memory.cache
  quiet q := memory.inside.trans q
  halt _ := State.hlt_congr memory.mem outside.params
  sound i := i.congr memory.mem (pc i.pc) memory.cache outside.params

theorem State.Framed.refl (s : State) : s.Framed s :=
  .of_keepsMemory ⟨rfl, rfl, rfl, rfl, rfl⟩ ⟨rfl, rfl, rfl, rfl, rfl⟩ id

theorem State.framed_withFreeFlags (s : State) : s.Framed s.withFreeFlags :=
  .of_keepsMemory ⟨rfl, rfl, rfl, rfl, rfl⟩ ⟨rfl, rfl, rfl, rfl, rfl⟩ id

theorem State.framed_loadPc (s : State) (a : Word) : s.Framed (s.loadPc a) :=
  .of_keepsMemory ⟨rfl, rfl, rfl, rfl, rfl⟩ ⟨rfl, rfl, rfl, rfl, rfl⟩ (fun _ => wordAligned_alignPc a)

theorem State.framed_restore (s : State) (pc st : Word) : s.Framed (s.restore pc st) :=
  .of_keepsMemory ⟨rfl, rfl, rfl, rfl, rfl⟩ ⟨rfl, rfl, rfl, rfl, rfl⟩ (fun _ => wordAligned_alignPc pc)

theorem State.framed_dropWords (s : State) (n : BitVec 5) : s.Framed (s.dropWords n) :=
  .of_keepsMemory ⟨rfl, rfl, rfl, rfl, rfl⟩ ⟨rfl, rfl, rfl, rfl, rfl⟩ id

theorem State.framed_withB (s : State) (b : Vector Word 15) : s.Framed (s.withB b) :=
  .of_keepsMemory ⟨rfl, rfl, rfl, rfl, rfl⟩ ⟨rfl, rfl, rfl, rfl, rfl⟩ id

theorem State.framed_writeReg (s : State) (f : RFile) (i : RegIdx) (v : Word) : s.Framed (s.writeReg f i v) := by
  refine .of_keepsMemory ?_ ?_ (fun h => by rwa [State.pc_writeReg])
  · constructor <;> simp
  · constructor <;> simp

theorem State.framed_load (s : State) (a : Word) {n : Nat} (hn : n ≤ 32) : s.Framed (s.load a n).2 where
  toKeepsOutside := (s.onlyMemory_load a n).keepsOutside
  cache := s.cache_load a n
  quiet q := State.inside_load_of_quiet q a n
  halt q := by rw [State.load_of_quiet q a hn]
  sound i := i.load a n

theorem State.framed_push32 (s : State) (v : Word) : s.Framed (s.push32 v) where
  io := s.io_push32 v
  pending := s.pending_push32 v
  params := s.params_push32 v
  freeCount := s.freeCount_push32 v
  inputs := s.inputs_push32 v
  cache := s.cache_push32 v
  quiet q := State.inside_push32_of_quiet q v
  halt q := State.hlt_push32_of_quiet q v
  sound i := i.push32 v

theorem State.framed_pop32 (s : State) : s.Framed s.pop32.2 where
  io := s.io_pop32
  pending := s.pending_pop32
  params := s.params_pop32
  freeCount := s.freeCount_pop32
  inputs := s.inputs_pop32
  cache := s.cache_pop32
  quiet q := State.inside_pop32_of_quiet q
  halt q := by rw [State.pop32_of_quiet q]; rfl
  sound i := i.pop32

theorem State.framed_drawPixels (s : State) (ops : List PixelOp) : s.Framed (s.drawPixels ops) where
  toKeepsOutside := (s.onlyMemory_drawPixels ops).keepsOutside
  cache := s.cache_drawPixels ops
  quiet q := State.inside_drawPixels_of_quiet q ops
  halt q := State.hlt_drawPixels_of_quiet q ops
  sound i := i.drawPixels ops

theorem State.framed_drawPixel (s : State) (op : PixelOp) : s.Framed (s.drawPixel op) :=
  s.framed_drawPixels [op]

theorem State.framed_finishBlit (s : State) (p : BlitPlan) : s.Framed (s.finishBlit p) :=
  (s.framed_drawPixels p.ops).trans (.of_keepsMemory ⟨rfl, rfl, rfl, rfl, rfl⟩ ⟨rfl, rfl, rfl, rfl, rfl⟩ id)

theorem State.framed_pushFrame (s : State) (pc st : Word) : s.Framed (s.pushFrame pc st) := by
  unfold State.pushFrame
  cases s.params.intFrame with
  | pcFirst => exact (s.framed_push32 pc).trans (State.framed_push32 _ st)
  | stFirst => exact (s.framed_push32 st).trans (State.framed_push32 _ pc)

theorem State.framed_enterException (s : State) (pc st target : Word) : s.Framed (s.enterException pc st target) :=
  (s.framed_pushFrame pc st).trans
    (.of_keepsMemory ⟨rfl, rfl, rfl, rfl, rfl⟩ ⟨rfl, rfl, rfl, rfl, rfl⟩ (fun _ => wordAligned_alignPc target))

theorem State.framed_returnFromException (s : State) : s.Framed s.returnFromException := by
  have popped := s.framed_pop32.trans s.pop32.2.framed_pop32
  rw [State.returnFromException_eq]
  cases s.params.intFrame with
  | pcFirst => exact popped.trans (State.framed_restore _ _ _)
  | stFirst => exact popped.trans (State.framed_restore _ _ _)

/-- A jump, taken or not. -/
theorem State.framed_ite_loadPc (s : State) (taken : Bool) (a : Word) :
    s.Framed (if taken then s.loadPc a else s) := by
  cases taken with
  | true => exact s.framed_loadPc a
  | false => exact .refl s

/-- A pixel, drawn or not. -/
theorem State.framed_ite_drawPixel (s : State) (drawn : Bool) (op : PixelOp) :
    s.Framed (if drawn then s.drawPixel op else s) := by
  cases drawn with
  | true => exact s.framed_drawPixel op
  | false => exact .refl s

/-! ### Instructions in that frame -/

theorem State.framed_writeReg_withFreeFlags (s : State) (f : RFile) (i : RegIdx) (v : Word) :
    s.Framed (s.writeReg f i v).withFreeFlags :=
  (s.framed_writeReg f i v).trans (State.framed_withFreeFlags _)

theorem State.framed_drav (s : State) (f : RFile) (addrReg stepReg : RegIdx) : s.Framed (s.drav f addrReg stepReg) :=
  (s.framed_ite_drawPixel _ _).trans (State.framed_writeReg_withFreeFlags _ _ _ _)

theorem State.framed_storePixel (s : State) (source : PixelSource) (xy : Word) : s.Framed (s.storePixel source xy) :=
  (s.framed_ite_drawPixel _ _).trans (State.framed_withFreeFlags _)

theorem State.framed_decrementJump (s : State) (form : DsjForm) (f : RFile) (dst : RegIdx) (target : Word) :
    s.Framed (s.decrementJump form f dst target) :=
  ((s.framed_writeReg f dst _).trans (State.framed_ite_loadPc _ _ target)).trans (State.framed_withFreeFlags _)

theorem State.framed_call (s : State) (target : Word) : s.Framed ((s.push32 s.pc).loadPc target).withFreeFlags :=
  ((s.framed_push32 s.pc).trans (State.framed_loadPc _ target)).trans (State.framed_withFreeFlags _)

/-- Every instruction completes, and stays in the frame. -/
theorem exec_framed (i : Instr) (s : State) : ∃ t, exec i s = .next t ∧ s.Framed t := by
  cases i with
  | moveSame | moveOther | moviIW | moviIL | addiIW | addiIL | subxy | cvxyl | cpw =>
    exact ⟨_, rfl, s.framed_writeReg_withFreeFlags _ _ _⟩
  | pixbltLL | pixbltLXY | pixbltXYL | pixbltXYXY | pixbltBL | pixbltBXY | fillL | fillXY =>
    exact ⟨_, rfl, s.framed_finishBlit _⟩
  | line z =>
    exact ⟨_, exec_line s z, ((s.framed_drawPixels _).trans (State.framed_withB _ _)).trans (State.framed_withFreeFlags _)⟩
  | drav f src dst => exact ⟨_, exec_drav f src dst s, s.framed_drav _ _ _⟩
  | pixtToXY f src dst => exact ⟨_, exec_pixtToXY f src dst s, s.framed_storePixel _ _⟩
  | pixtXYToXY f src dst => exact ⟨_, exec_pixtXYToXY f src dst s, s.framed_storePixel _ _⟩
  | pixtFromXY f src dst =>
    exact ⟨_, exec_pixtFromXY f src dst s,
      (s.framed_load _ (pixelSize_le s.io)).trans (State.framed_writeReg_withFreeFlags _ _ _ _)⟩
  | trap n => exact ⟨_, exec_trap s n, s.framed_enterException _ _ _⟩
  | calla addr => exact ⟨_, exec_calla s addr, s.framed_call _⟩
  | callRs f src => exact ⟨_, exec_callRs f src s, s.framed_call _⟩
  | jacc | jrcc8 | jrcc16 => exact ⟨_, rfl, s.framed_ite_loadPc _ _⟩
  | dsj | dsjeq | dsjne | dsjs => exact ⟨_, rfl, s.framed_decrementJump _ _ _ _⟩
  | jump f src => exact ⟨_, exec_jump f src s, (s.framed_loadPc _).trans (State.framed_withFreeFlags _)⟩
  | exgpc f dst =>
    exact ⟨_, exec_exgpc f dst s,
      ((s.framed_writeReg _ _ _).trans (State.framed_loadPc _ _)).trans (State.framed_withFreeFlags _)⟩
  | rets n =>
    exact ⟨_, exec_rets s n, ((s.framed_pop32.trans (State.framed_dropWords _ n)).trans (State.framed_loadPc _ _)).trans
      (State.framed_withFreeFlags _)⟩
  | reti => exact ⟨_, exec_reti s, s.framed_returnFromException⟩

theorem framed_of_exec {i : Instr} {s t : State} (h : exec i s = .next t) : s.Framed t := by
  obtain ⟨u, hu, framed⟩ := exec_framed i s
  cases hu.symm.trans h
  exact framed

/-- Settles O12: the frame of every operation, composed along the instruction. -/
theorem instructionsKeepHaltCacheAndOutside : Obligations.InstructionsKeepHaltCacheAndOutside := by
  intro i s t h
  have framed := framed_of_exec h
  exact ⟨framed.toKeepsOutside, fun quiet => ⟨framed.halt quiet, framed.quiet quiet⟩, framed.cache⟩

/-! ### What a step can do -/

/-- An instruction run: fetched, then executed. -/
theorem State.runInstr_cases {s t : State} (h : s.runInstr = .next t) :
    ∃ i u, s.fetchInstr = .ok (i, u) ∧ exec i (u.forInstr i) = .next t := by
  unfold State.runInstr at h
  split at h
  case h_1 i u fetched => exact ⟨i, u, fetched, h⟩
  case h_2 => cases h

/-- The CPU at a boundary: halted, interrupted, or running an instruction. -/
theorem State.cpuStep_cases {s t : State} (h : s.cpuStep = .next t) :
    (s.hlt = true ∧ t = s) ∨
    (∃ irq rest, s.takeable = some (irq, rest) ∧ t = ({ s with pending := rest } : State).takeInterrupt irq) ∨
    (∃ i u, s.fetchInstr = .ok (i, u) ∧ exec i (u.forInstr i) = .next t) := by
  unfold State.cpuStep at h
  split at h
  case isTrue halted =>
    cases h
    exact .inl ⟨halted, rfl⟩
  case isFalse =>
    split at h
    case h_1 irq rest taken =>
      cases h
      exact .inr (.inl ⟨irq, rest, taken, rfl⟩)
    case h_2 => exact .inr (.inr (State.runInstr_cases h))

/-- A request inside the next PIXBLT or FILL: it waits from the start, or interrupts the transfer, or waits while the
instruction runs. -/
theorem State.stepInterrupted_cases {s t : State} {irq : Irq} {done : Nat} (h : s.stepInterrupted irq done = .next t) :
    (s.request irq).cpuStep = .next t ∨
    (∃ i u p, s.fetchInstr = .ok (i, u) ∧ blitPlanOf i u = some p ∧ t = u.interruptPlan p done irq) ∨
    (∃ i u, s.fetchInstr = .ok (i, u) ∧ exec i ((u.forInstr i).request irq) = .next t) := by
  unfold State.stepInterrupted at h
  split at h
  case isTrue => exact .inl h
  case isFalse =>
    split at h
    case h_2 => cases h
    case h_1 i u fetched =>
      split at h
      case h_2 => exact .inr (.inr ⟨i, u, fetched, h⟩)
      case h_1 p plan =>
        split at h
        case isTrue =>
          cases h
          exact .inr (.inl ⟨i, u, p, fetched, plan, rfl⟩)
        case isFalse => exact .inr (.inr ⟨i, u, fetched, h⟩)

theorem Outcome.settled_cases {o : Outcome} {t : State} (h : Outcome.settled o = .next t) :
    ∃ u, o = .next u ∧ t = State.hostRest u.inside u := by
  cases o with
  | next u =>
    cases h
    exact ⟨u, rfl, rfl⟩
  | fault r => cases h
  | refused r => cases h

/-! ### The invariant along a step -/

/-- A change of neither memory, PC nor the parameters. -/
theorem State.Steady.of_eq {s t : State} (inside : t.inside = s.inside) (mem : t.mem = s.mem) (pc : t.pc = s.pc)
    (cache : t.cache = s.cache) (params : t.params = s.params) : s.Steady t where
  quiet q := inside.trans q
  sound i := i.congr mem (by rw [pc]; exact i.pc) cache params

theorem State.steady_tick (s : State) : s.Steady s.tick := .of_eq rfl rfl rfl rfl rfl

theorem State.steady_request (s : State) (irq : Irq) : s.Steady (s.request irq) := .of_eq rfl rfl rfl rfl rfl

theorem State.steady_forInstr (s : State) (i : Instr) : s.Steady (s.forInstr i) := .of_eq rfl rfl rfl rfl rfl

theorem State.inside_fetchWords_of_quiet {s : State} (h : s.inside = []) (n : Nat) : (s.fetchWords n).2.inside = [] := by
  obtain ⟨c, r, eq⟩ := State.fetchWords_of_quiet h n
  rw [eq]
  exact h

/-- What a fetch that decodes has fetched. -/
theorem State.fetchInstr_cases {s t : State} {i : Instr} (h : s.fetchInstr = .ok (i, t)) :
    ∃ rest, decode (s.fetchWords (lengthOf (s.fetchedWord s.pc))).1 = .ok (i, rest) ∧
      t = (s.fetchWords (lengthOf (s.fetchedWord s.pc))).2.tick := by
  unfold State.fetchInstr at h
  simp only at h
  split at h
  case h_1 j rest decoded =>
    cases h
    exact ⟨rest, decoded, rfl⟩
  case h_2 => cases h

theorem State.steady_fetchInstr {s t : State} {i : Instr} (h : s.fetchInstr = .ok (i, t)) : s.Steady t where
  quiet q := by
    obtain ⟨-, -, rfl⟩ := State.fetchInstr_cases h
    exact State.inside_fetchWords_of_quiet q _
  sound inv := inv.fetchInstr h

theorem State.steady_takeInterrupt (s : State) (irq : Irq) : s.Steady (s.takeInterrupt irq) :=
  (s.framed_enterException _ _ _).toSteady.trans (.of_eq rfl rfl rfl rfl rfl)

/-- The state inside a PIXBLT or FILL, its context in the B file, in which an interrupt is taken. -/
def State.heldContext (s : State) (p : BlitPlan) (done : Nat) : State :=
  { s.drawPixels (p.ops.take done) with
    b := s.contextB p p.ops[done]?
    resuming := false
    suspended := { bfile := s.contextB p p.ops[done]?, rest := { p with ops := p.ops.drop done } } :: s.otherContexts }

theorem State.interruptPlan_eq (s : State) (p : BlitPlan) (done : Nat) (irq : Irq) :
    s.interruptPlan p done irq =
      ((s.heldContext p done).enterException (s.pc - 16#32) (setPBX s.st true) irq.vector).tick := rfl

theorem State.steady_heldContext (s : State) (p : BlitPlan) (done : Nat) : s.Steady (s.heldContext p done) :=
  (s.framed_drawPixels (p.ops.take done)).toSteady.trans (.of_eq rfl rfl rfl rfl rfl)

theorem State.steady_interruptPlan (s : State) (p : BlitPlan) (done : Nat) (irq : Irq) :
    s.Steady (s.interruptPlan p done irq) := by
  rw [State.interruptPlan_eq]
  exact (s.steady_heldContext p done).trans ((State.framed_enterException _ _ _ _).toSteady.trans (State.steady_tick _))

theorem State.steady_of_cpuStep {s t : State} (h : s.cpuStep = .next t) : s.Steady t := by
  rcases State.cpuStep_cases h with ⟨-, rfl⟩ | ⟨irq, rest, -, rfl⟩ | ⟨i, u, fetched, ran⟩
  · exact .of_eq rfl rfl rfl rfl rfl
  · have left : s.Steady { s with pending := rest } := .of_eq rfl rfl rfl rfl rfl
    exact left.trans (State.steady_takeInterrupt _ irq)
  · exact ((State.steady_fetchInstr fetched).trans (u.steady_forInstr i)).trans (framed_of_exec ran).toSteady

theorem State.steady_of_stepInterrupted {s t : State} {irq : Irq} {done : Nat}
    (h : s.stepInterrupted irq done = .next t) : s.Steady t := by
  rcases State.stepInterrupted_cases h with waits | ⟨i, u, p, fetched, -, rfl⟩ | ⟨i, u, fetched, ran⟩
  · exact (s.steady_request irq).trans (State.steady_of_cpuStep waits)
  · exact (State.steady_fetchInstr fetched).trans (u.steady_interruptPlan p done irq)
  · exact ((State.steady_fetchInstr fetched).trans ((u.steady_forInstr i).trans (State.steady_request _ irq))).trans
      (framed_of_exec ran).toSteady

theorem State.inside_hostRest (l : List (Option HostWrite)) (s : State) : (State.hostRest l s).inside = [] := by
  induction l generalizing s with
  | nil => rfl
  | cons w l ih =>
    cases w with
    | none => exact ih s
    | some w => exact ih _

/-- The end of a step: what the host still writes leaves nothing due. -/
theorem State.Sound.inv_hostRest {s : State} (h : s.Sound) : (State.hostRest s.inside s).Inv where
  toSound := h.hostRest _
  quiet := State.inside_hostRest _ s

/-- Settled by the end of the step, the invariant needs of the CPU's move only what every memory cycle keeps. -/
theorem inv_of_settled {o : Outcome} {s t : State} (h : Outcome.settled o = .next t)
    (steady : ∀ u, o = .next u → s.Steady u) (sound : s.Sound) : t.Inv := by
  obtain ⟨u, moved, rfl⟩ := Outcome.settled_cases h
  exact ((steady u moved).sound sound).inv_hostRest

@[simp] theorem State.inside_hostStoreFirst (s : State) (a : Word) (v : Word16) :
    (s.hostStoreFirst a v).inside = s.inside := by
  unfold State.hostStoreFirst
  cases s.posted with
  | none => rfl
  | some p => rfl

/-! ### Reset in mid-run (R250) -/

/-- Every segment is cleared, under a free tag. -/
theorem State.seg_resetEvent (s : State) (g : Fin 4) :
    s.resetEvent.cache.seg g =
      { (s.cache.seg g).clear with ssa := (Config.freeWord (s.freeCount + 1) (.ssa g)).setWidth 23 } :=
  vector_get_ofFn _ g

theorem State.empty_cache_resetEvent (s : State) : s.resetEvent.cache.empty := by
  intro g j
  rw [State.seg_resetEvent]
  exact Segment.isPresent_clear (s.cache.seg g) j

theorem State.Inv.resetEvent {s : State} (h : s.Inv) : s.resetEvent.Inv where
  mem := Memory.wf_writeBit (Memory.wf_writeBit (Memory.wf_writeBit h.mem _ _) _ _) _ _
  pc := (by decide : wordAligned Config.resetPc)
  lru := List.Perm.refl _
  flushed _ := s.empty_cache_resetEvent
  quiet := h.quiet

/-- Settles O11: the CPU's moves are steady, host writes and resets keep each part, and what is left over of the host's
writes falls at the end of the step. -/
theorem stepKeepsTheInvariant : Obligations.StepKeepsTheInvariant := by
  intro s t inv h
  have received (l : List Input) (m : List (Option HostWrite)) :
      ({ s with inputs := l, inside := m } : State).received.Sound := inv.toSound.congr rfl inv.pc rfl rfl
  have next (l : List Input) : ({ s with inputs := l } : State).Sound := inv.toSound.congr rfl inv.pc rfl rfl
  unfold step at h
  split at h
  case h_1 =>
    have steady := State.steady_of_cpuStep h
    exact ⟨steady.sound (inv.toSound.congr rfl inv.pc rfl rfl), steady.quiet inv.quiet⟩
  case h_2 inside rest _ => exact inv_of_settled h (fun _ => State.steady_of_cpuStep) (received rest inside)
  case h_3 irq rest _ =>
    cases h
    exact ⟨(State.steady_request _ irq).sound (next rest), inv.quiet⟩
  case h_4 irq done inside rest _ =>
    exact inv_of_settled h (fun _ => State.steady_of_stepInterrupted) (received rest inside)
  case h_5 addr value rest _ =>
    cases h
    exact ⟨(next rest).hostStore addr value, inv.quiet⟩
  case h_6 addr value rest _ =>
    cases h
    exact ⟨(next rest).hostStoreFirst addr value, by rw [State.inside_hostStoreFirst]; exact inv.quiet⟩
  case h_7 rest _ =>
    cases h
    exact State.Inv.resetEvent (s := { s with inputs := rest }) ⟨next rest, inv.quiet⟩

end Sys2Proof.Machine

/-! SUPPORT. The opcode map read both ways (R80 to R93): operand fields placed in a word and taken out again, the words that a
row matches against the instructions that it builds, and that no word matches two rows. -/

namespace Sys2Proof

/-! ### Fields of an instruction word -/

/-- A field put at bit `k` of an instruction word, every other bit 0. -/
def placed {n : Nat} (v : BitVec n) (k : Nat) : Word16 := v.setWidth 16 <<< k

theorem getLsbD_placed {n : Nat} (v : BitVec n) (k i : Nat) :
    (placed v k).getLsbD i = (decide (i < 16) && decide (k ≤ i) && v.getLsbD (i - k)) := by
  unfold placed
  rw [BitVec.getLsbD_shiftLeft, BitVec.getLsbD_setWidth]
  by_cases h : k ≤ i
  · by_cases h16 : i < 16
    · have : i - k < 16 := by omega
      simp [h, h16, this, Nat.not_lt.2 h]
    · simp [h16]
  · simp [h, Nat.lt_of_not_le h]

/-- A field taken out where it was put. -/
theorem extractLsb'_placed_self {n k : Nat} (v : BitVec n) (fits : k + n ≤ 16) :
    (placed v k).extractLsb' k n = v := by
  apply BitVec.eq_of_getLsbD_eq
  intro i hi
  have : k + i < 16 := by omega
  simp only [BitVec.getLsbD_extractLsb', getLsbD_placed, hi, this, Nat.le_add_right, Nat.add_sub_cancel_left,
    decide_true, Bool.true_and]

/-- Nothing of a field is found beside it. -/
theorem extractLsb'_placed_apart {n m k l : Nat} (v : BitVec n) (apart : k + n ≤ l ∨ l + m ≤ k) :
    (placed v k).extractLsb' l m = 0#m := by
  apply BitVec.eq_of_getLsbD_eq
  intro i hi
  rw [BitVec.getLsbD_extractLsb', getLsbD_placed, BitVec.getLsbD_zero]
  rcases apart with above | below
  · rw [BitVec.getLsbD_of_ge v _ (by omega), Bool.and_false, Bool.and_false]
  · rw [decide_eq_false (show ¬ k ≤ l + i by omega), Bool.and_false, Bool.false_and, Bool.and_false]

/-- A mask without the field's bits clears it. -/
theorem placed_and_eq_zero {n k : Nat} (v : BitVec n) {mask : Word16}
    (outside : placed (BitVec.allOnes n) k &&& mask = 0#16) : placed v k &&& mask = 0#16 := by
  have within : placed v k = placed v k &&& placed (BitVec.allOnes n) k := by
    apply BitVec.eq_of_getLsbD_eq
    intro i hi
    rw [BitVec.getLsbD_and, getLsbD_placed, getLsbD_placed, BitVec.getLsbD_allOnes]
    by_cases h : i - k < n
    · simp +contextual [h]
    · simp [BitVec.getLsbD_of_ge v _ (Nat.not_lt.1 h)]
  rw [within, BitVec.and_assoc, outside, BitVec.and_zero]

/-- A field taken out and put back: the word under the field's mask. -/
theorem placed_extractLsb' (w : Word16) (k n : Nat) :
    placed (w.extractLsb' k n) k = w &&& placed (BitVec.allOnes n) k := by
  apply BitVec.eq_of_getLsbD_eq
  intro i hi
  rw [BitVec.getLsbD_and, getLsbD_placed, getLsbD_placed, BitVec.getLsbD_extractLsb', BitVec.getLsbD_allOnes]
  by_cases h : k ≤ i
  · rw [Nat.add_sub_cancel' h]
    cases w.getLsbD i <;> simp
  · simp [h]

/-- A pattern has no bit where its mask has none. -/
theorem extractLsb'_pattern {p mask : Word16} {k n : Nat} (fixed : p &&& mask = p) (outside : mask.extractLsb' k n = 0#n) :
    p.extractLsb' k n = 0#n := by
  rw [← fixed, BitVec.extractLsb'_and, outside, BitVec.and_zero]

/-- One more field leaves the fields beside it as they are. -/
theorem extractLsb'_or_placed_apart {n m k l : Nat} (x : Word16) (v : BitVec n) (apart : k + n ≤ l ∨ l + m ≤ k) :
    (x ||| placed v k).extractLsb' l m = x.extractLsb' l m := by
  rw [BitVec.extractLsb'_or, extractLsb'_placed_apart v apart, BitVec.or_zero]

/-- A field put where the word was empty. -/
theorem extractLsb'_or_placed_self {n k : Nat} {x : Word16} (v : BitVec n) (fits : k + n ≤ 16)
    (free : x.extractLsb' k n = 0#n) : (x ||| placed v k).extractLsb' k n = v := by
  rw [BitVec.extractLsb'_or, extractLsb'_placed_self v fits, free, BitVec.zero_or]

/-- One more field leaves the bits under a mask without it as they are. -/
theorem or_placed_and {n k : Nat} (x : Word16) (v : BitVec n) {mask : Word16}
    (outside : placed (BitVec.allOnes n) k &&& mask = 0#16) : (x ||| placed v k) &&& mask = x &&& mask := by
  rw [BitVec.and_or_distrib_right, placed_and_eq_zero v outside, BitVec.or_zero]

/-- A word's bits under a mask and one more of its fields are its bits under the wider mask. -/
theorem and_or_placed_extractLsb' (w mask : Word16) (k n : Nat) :
    (w &&& mask) ||| placed (w.extractLsb' k n) k = w &&& (mask ||| placed (BitVec.allOnes n) k) := by
  rw [placed_extractLsb', BitVec.and_or_distrib_left]

theorem dstBits_eq_placed (i : RegIdx) : dstBits i = placed (BitVec.ofFin i : BitVec 4) 0 := by
  apply BitVec.eq_of_toNat_eq
  simp [dstBits, placed]

theorem srcBits_eq_placed (i : RegIdx) : srcBits i = placed (BitVec.ofFin i : BitVec 4) 5 := by
  apply BitVec.eq_of_toNat_eq
  simp [srcBits, placed, Nat.shiftLeft_eq, Nat.mul_comm]

/-- The file select bit as a field. -/
def fileCode (f : RFile) : BitVec 1 := BitVec.ofBool (f = .B)

theorem fileBits_eq_placed (f : RFile) : fileBits f = placed (fileCode f) 4 := by
  cases f <;> rfl

/-- A bit of a word as a field of one bit. -/
theorem ofBool_getLsbD (w : Word16) (k : Nat) : BitVec.ofBool (w.getLsbD k) = w.extractLsb' k 1 := by
  apply BitVec.eq_of_getLsbD_eq
  intro i hi
  simp [Nat.lt_one_iff.1 hi]

theorem fileCode_fileField (w : Word16) : fileCode (fileField w) = w.extractLsb' 4 1 := by
  rw [← ofBool_getLsbD]
  unfold fileField
  cases w.getLsbD 4 <;> rfl

theorem fileCode_inj {f g : RFile} : fileCode f = fileCode g ↔ f = g := by
  cases f <;> cases g <;> decide

theorem fileField_eq {w : Word16} {f : RFile} (h : w.extractLsb' 4 1 = fileCode f) : fileField w = f :=
  fileCode_inj.1 ((fileCode_fileField w).trans h)

theorem ofFin_srcField (w : Word16) : (BitVec.ofFin (srcField w) : BitVec 4) = w.extractLsb' 5 4 := rfl

theorem ofFin_dstField (w : Word16) : (BitVec.ofFin (dstField w) : BitVec 4) = w.extractLsb' 0 4 := rfl

/-! ### First words, from their fields and back -/

/-- The fields of a first word with two registers, taken out again. -/
theorem fields_encodeTwoRegs {p : Word16} (fixed : p &&& 0xFE00#16 = p) (f : RFile) (src dst : RegIdx) :
    encodeTwoRegs p f src dst &&& 0xFE00#16 = p ∧ fileField (encodeTwoRegs p f src dst) = f ∧
      srcField (encodeTwoRegs p f src dst) = src ∧ dstField (encodeTwoRegs p f src dst) = dst := by
  have word : encodeTwoRegs p f src dst =
      p ||| placed (BitVec.ofFin src : BitVec 4) 5 ||| placed (fileCode f) 4 ||| placed (BitVec.ofFin dst : BitVec 4) 0 := by
    rw [encodeTwoRegs, srcBits_eq_placed, fileBits_eq_placed, dstBits_eq_placed]
  have file : (encodeTwoRegs p f src dst).extractLsb' 4 1 = fileCode f := by
    rw [word, extractLsb'_or_placed_apart _ _ (by omega), extractLsb'_or_placed_self _ (by omega)]
    rw [extractLsb'_or_placed_apart _ _ (by omega), extractLsb'_pattern fixed (by decide)]
  have source : (encodeTwoRegs p f src dst).extractLsb' 5 4 = BitVec.ofFin src := by
    rw [word, extractLsb'_or_placed_apart _ _ (by omega), extractLsb'_or_placed_apart _ _ (by omega),
      extractLsb'_or_placed_self _ (by omega) (extractLsb'_pattern fixed (by decide))]
  have destination : (encodeTwoRegs p f src dst).extractLsb' 0 4 = BitVec.ofFin dst := by
    rw [word, extractLsb'_or_placed_self _ (by omega)]
    rw [extractLsb'_or_placed_apart _ _ (by omega), extractLsb'_or_placed_apart _ _ (by omega),
      extractLsb'_pattern fixed (by decide)]
  refine ⟨?_, fileField_eq file, congrArg BitVec.toFin source, congrArg BitVec.toFin destination⟩
  rw [word, or_placed_and _ _ (by decide), or_placed_and _ _ (by decide), or_placed_and _ _ (by decide), fixed]

theorem encodeTwoRegs_fields {w p : Word16} (h : w &&& 0xFE00#16 = p) :
    encodeTwoRegs p (fileField w) (srcField w) (dstField w) = w := by
  rw [encodeTwoRegs, srcBits_eq_placed, fileBits_eq_placed, dstBits_eq_placed, fileCode_fileField, ofFin_srcField,
    ofFin_dstField, ← h, and_or_placed_extractLsb', and_or_placed_extractLsb', and_or_placed_extractLsb']
  exact BitVec.and_allOnes

/-- The fields of a first word with one register, taken out again. -/
theorem fields_encodeOneReg {p : Word16} (fixed : p &&& 0xFFE0#16 = p) (f : RFile) (dst : RegIdx) :
    encodeOneReg p f dst &&& 0xFFE0#16 = p ∧ fileField (encodeOneReg p f dst) = f ∧
      dstField (encodeOneReg p f dst) = dst := by
  have word : encodeOneReg p f dst = p ||| placed (fileCode f) 4 ||| placed (BitVec.ofFin dst : BitVec 4) 0 := by
    rw [encodeOneReg, fileBits_eq_placed, dstBits_eq_placed]
  have file : (encodeOneReg p f dst).extractLsb' 4 1 = fileCode f := by
    rw [word, extractLsb'_or_placed_apart _ _ (by omega),
      extractLsb'_or_placed_self _ (by omega) (extractLsb'_pattern fixed (by decide))]
  have register : (encodeOneReg p f dst).extractLsb' 0 4 = BitVec.ofFin dst := by
    rw [word, extractLsb'_or_placed_self _ (by omega)]
    rw [extractLsb'_or_placed_apart _ _ (by omega), extractLsb'_pattern fixed (by decide)]
  refine ⟨?_, fileField_eq file, congrArg BitVec.toFin register⟩
  rw [word, or_placed_and _ _ (by decide), or_placed_and _ _ (by decide), fixed]

theorem encodeOneReg_fields {w p : Word16} (h : w &&& 0xFFE0#16 = p) :
    encodeOneReg p (fileField w) (dstField w) = w := by
  rw [encodeOneReg, fileBits_eq_placed, dstBits_eq_placed, fileCode_fileField, ofFin_dstField, ← h,
    and_or_placed_extractLsb', and_or_placed_extractLsb']
  exact BitVec.and_allOnes

/-- A field at bit 0. -/
theorem setWidth_eq_placed {n : Nat} (v : BitVec n) : v.setWidth 16 = placed v 0 := by
  rw [placed, BitVec.shiftLeft_zero]

/-- A trap number or a count of words, taken out of its first word again. -/
theorem fields_encodeCount {p : Word16} (fixed : p &&& 0xFFE0#16 = p) (n : BitVec 5) :
    (p ||| n.setWidth 16) &&& 0xFFE0#16 = p ∧ countField (p ||| n.setWidth 16) = n := by
  rw [setWidth_eq_placed]
  refine ⟨?_, extractLsb'_or_placed_self n (by omega) (extractLsb'_pattern fixed (by decide))⟩
  rw [or_placed_and _ _ (by decide), fixed]

theorem encodeCount_fields {w p : Word16} (h : w &&& 0xFFE0#16 = p) : p ||| (countField w).setWidth 16 = w := by
  rw [setWidth_eq_placed, countField, ← h, and_or_placed_extractLsb']
  exact BitVec.and_allOnes

/-- The condition code of a jump, taken out of its first word again. -/
theorem fields_encodeCond {p : Word16} (fixed : p &&& 0xF0FF#16 = p) (c : BitVec 4) :
    encodeCond p c &&& 0xF0FF#16 = p ∧ condField (encodeCond p c) = c := by
  have word : encodeCond p c = p ||| placed c 8 := rfl
  rw [word]
  refine ⟨?_, extractLsb'_or_placed_self c (by omega) (extractLsb'_pattern fixed (by decide))⟩
  rw [or_placed_and _ _ (by decide), fixed]

theorem encodeCond_fields {w p : Word16} (h : w &&& 0xF0FF#16 = p) : encodeCond p (condField w) = w := by
  have word : encodeCond p (condField w) = p ||| placed (w.extractLsb' 8 4) 8 := rfl
  rw [word, ← h, and_or_placed_extractLsb']
  exact BitVec.and_allOnes

/-- The condition code and the displacement of a short JRcc. -/
theorem fields_encodeShortJump (c : BitVec 4) (disp : BitVec 8) :
    (encodeCond 0xC000#16 c ||| disp.setWidth 16) &&& 0xF000#16 = 0xC000#16 ∧
      condField (encodeCond 0xC000#16 c ||| disp.setWidth 16) = c ∧
      (encodeCond 0xC000#16 c ||| disp.setWidth 16).extractLsb' 0 8 = disp := by
  have word : encodeCond 0xC000#16 c ||| disp.setWidth 16 = 0xC000#16 ||| placed c 8 ||| placed disp 0 := by
    rw [setWidth_eq_placed]; rfl
  rw [word]
  refine ⟨?_, ?_, extractLsb'_or_placed_self disp (by omega) ?_⟩
  · rw [or_placed_and _ _ (by decide), or_placed_and _ _ (by decide)]; rfl
  · rw [condField, extractLsb'_or_placed_apart _ _ (by omega), extractLsb'_or_placed_self c (by omega) (by decide)]
  · rw [extractLsb'_or_placed_apart _ _ (by omega)]; rfl

theorem encodeShortJump_fields {w : Word16} (h : w &&& 0xF000#16 = 0xC000#16) :
    encodeCond 0xC000#16 (condField w) ||| (w.extractLsb' 0 8).setWidth 16 = w := by
  have word : encodeCond 0xC000#16 (condField w) = 0xC000#16 ||| placed (w.extractLsb' 8 4) 8 := rfl
  rw [word, setWidth_eq_placed, ← h, and_or_placed_extractLsb', and_or_placed_extractLsb']
  exact BitVec.and_allOnes

/-- The fixed bits of DSJS with its direction bit. -/
theorem dsjsPattern_eq (back : Bool) :
    (if back then 0x3C00#16 else 0x3800#16) = 0x3800#16 ||| placed (BitVec.ofBool back) 10 := by
  cases back <;> rfl

/-- The fields of DSJS, taken out again. -/
theorem fields_encodeDsjs (back : Bool) (offset : BitVec 5) (f : RFile) (dst : RegIdx) :
    let w := encodeOneReg (if back then 0x3C00#16 else 0x3800#16) f dst ||| (offset.setWidth 16 <<< 5)
    w &&& 0xF800#16 = 0x3800#16 ∧ w.getLsbD 10 = back ∧ w.extractLsb' 5 5 = offset ∧ fileField w = f ∧
      dstField w = dst := by
  intro w
  have word : w = 0x3800#16 ||| placed (BitVec.ofBool back) 10 ||| placed (fileCode f) 4 |||
      placed (BitVec.ofFin dst : BitVec 4) 0 ||| placed offset 5 := by
    rw [← dsjsPattern_eq, ← fileBits_eq_placed, ← dstBits_eq_placed]; rfl
  have direction : w.extractLsb' 10 1 = BitVec.ofBool back := by
    rw [word, extractLsb'_or_placed_apart _ _ (by omega), extractLsb'_or_placed_apart _ _ (by omega),
      extractLsb'_or_placed_apart _ _ (by omega), extractLsb'_or_placed_self _ (by omega) (by decide)]
  have file : w.extractLsb' 4 1 = fileCode f := by
    rw [word, extractLsb'_or_placed_apart _ _ (by omega), extractLsb'_or_placed_apart _ _ (by omega),
      extractLsb'_or_placed_self _ (by omega)]
    rw [extractLsb'_or_placed_apart _ _ (by omega)]; rfl
  have register : w.extractLsb' 0 4 = BitVec.ofFin dst := by
    rw [word, extractLsb'_or_placed_apart _ _ (by omega), extractLsb'_or_placed_self _ (by omega)]
    rw [extractLsb'_or_placed_apart _ _ (by omega), extractLsb'_or_placed_apart _ _ (by omega)]; rfl
  have words : w.extractLsb' 5 5 = offset := by
    rw [word, extractLsb'_or_placed_self _ (by omega)]
    rw [extractLsb'_or_placed_apart _ _ (by omega), extractLsb'_or_placed_apart _ _ (by omega),
      extractLsb'_or_placed_apart _ _ (by omega)]; rfl
  refine ⟨?_, BitVec.ofBool_eq_iff_eq.1 ((ofBool_getLsbD w 10).trans direction), words, fileField_eq file,
    congrArg BitVec.toFin register⟩
  rw [word, or_placed_and _ _ (by decide), or_placed_and _ _ (by decide), or_placed_and _ _ (by decide),
    or_placed_and _ _ (by decide)]
  rfl

theorem encodeDsjs_fields {w : Word16} (h : w &&& 0xF800#16 = 0x3800#16) :
    encodeOneReg (if w.getLsbD 10 then 0x3C00#16 else 0x3800#16) (fileField w) (dstField w) |||
      ((w.extractLsb' 5 5).setWidth 16 <<< 5) = w := by
  have word : (w.extractLsb' 5 5).setWidth 16 <<< 5 = placed (w.extractLsb' 5 5) 5 := rfl
  rw [word, encodeOneReg, dsjsPattern_eq, fileBits_eq_placed, dstBits_eq_placed, ofBool_getLsbD, fileCode_fileField,
    ofFin_dstField, ← h, and_or_placed_extractLsb', and_or_placed_extractLsb', and_or_placed_extractLsb',
    and_or_placed_extractLsb']
  exact BitVec.and_allOnes

/-- The first word of LINE with its algorithm select bit. -/
theorem linePattern_eq (z : Bool) :
    (if z then 0xDF9A#16 else 0xDF1A#16) = 0xDF1A#16 ||| placed (BitVec.ofBool z) 7 := by
  cases z <;> rfl

theorem encodeLine_fields {w : Word16} (h : w &&& 0xFF7F#16 = 0xDF1A#16) :
    (if w.getLsbD 7 then 0xDF9A#16 else 0xDF1A#16) = w := by
  rw [linePattern_eq, ofBool_getLsbD, ← h, and_or_placed_extractLsb']
  exact BitVec.and_allOnes

/-- The two extra words of a 32-bit value, and the value back (R91). -/
theorem longImmediate_extract (v : Word) : longImmediate (v.extractLsb' 0 16) (v.extractLsb' 16 16) = v := by
  rw [longImmediate, BitVec.extractLsb'_append_extractLsb'_eq_extractLsb' (by rfl), BitVec.extractLsb'_eq_self]

theorem encodeLong_longImmediate (lo hi : Word16) : encodeLong (longImmediate lo hi) = [lo, hi] := by
  rw [encodeLong, longImmediate, BitVec.extractLsb'_append_eq_right, BitVec.extractLsb'_append_eq_left]

/-! ### What a row matches and what it builds -/

/-- A row reads its words to the end: the instruction it builds is well formed, and encoded in the very words. -/
structure OpcodeRow.Faithful (r : OpcodeRow) : Prop where
  extra : r.extra ≤ 2
  wellFormed : ∀ w w1 w2, r.matches w = true → (r.build w w1 w2).wellFormed = true
  encode : ∀ w w1 w2, r.matches w = true → encode (r.build w w1 w2) = w :: [w1, w2].take r.extra

theorem OpcodeRow.matches_iff {r : OpcodeRow} {w : Word16} :
    r.matches w = true ↔ w &&& r.mask = r.pattern ∧ r.guard w = true := by
  simp [OpcodeRow.matches]

theorem OpcodeRow.Faithful.fixed {p : Word16} {i : Instr} (wf : i.wellFormed = true) (enc : Sys2Proof.encode i = [p]) :
    (OpcodeRow.fixed p i).Faithful where
  extra := by simp [OpcodeRow.fixed]
  wellFormed _ _ _ _ := wf
  encode w _ _ h := by
    have word : w &&& BitVec.allOnes 16 = p := (OpcodeRow.matches_iff.1 h).1
    rw [BitVec.and_allOnes] at word
    rw [word]
    exact enc

theorem OpcodeRow.Faithful.twoRegs {p : Word16} {mk : RFile → RegIdx → RegIdx → Instr}
    (wf : ∀ f src dst, (mk f src dst).wellFormed = true)
    (enc : ∀ f src dst, Sys2Proof.encode (mk f src dst) = [encodeTwoRegs p f src dst]) : (OpcodeRow.twoRegs p mk).Faithful where
  extra := by simp [OpcodeRow.twoRegs]
  wellFormed _ _ _ _ := wf _ _ _
  encode w _ _ h := by
    have word : encodeTwoRegs p (fileField w) (srcField w) (dstField w) = w :=
      encodeTwoRegs_fields (OpcodeRow.matches_iff.1 h).1
    exact (enc _ _ _).trans (by rw [word]; rfl)

theorem OpcodeRow.Faithful.oneReg {p : Word16} {extra : Nat} {mk : RFile → RegIdx → Word16 → Word16 → Instr} (few : extra ≤ 2)
    (wf : ∀ f dst w1 w2, (mk f dst w1 w2).wellFormed = true)
    (enc : ∀ f dst w1 w2, Sys2Proof.encode (mk f dst w1 w2) = encodeOneReg p f dst :: [w1, w2].take extra) :
    (OpcodeRow.oneReg p extra mk).Faithful where
  extra := few
  wellFormed _ _ _ _ := wf _ _ _ _
  encode w _ _ h := by
    have word : encodeOneReg p (fileField w) (dstField w) = w := encodeOneReg_fields (OpcodeRow.matches_iff.1 h).1
    exact (enc _ _ _ _).trans (by rw [word]; rfl)

theorem faithful_generalRows : ∀ r ∈ generalRows, r.Faithful := by
  have long (first : Word16) (w1 w2 : Word16) : first :: encodeLong (longImmediate w1 w2) = first :: [w1, w2] := by
    rw [encodeLong_longImmediate]
  simp only [generalRows, List.forall_mem_cons, List.not_mem_nil, false_imp_iff, implies_true, and_true]
  exact ⟨.twoRegs (fun _ _ _ => rfl) (fun _ _ _ => rfl), .twoRegs (fun _ _ _ => rfl) (fun _ _ _ => rfl),
    .oneReg (by decide) (fun _ _ _ _ => rfl) (fun _ _ _ _ => rfl),
    .oneReg (by decide) (fun _ _ _ _ => rfl) (fun _ _ _ _ => long _ _ _),
    .oneReg (by decide) (fun _ _ _ _ => rfl) (fun _ _ _ _ => rfl),
    .oneReg (by decide) (fun _ _ _ _ => rfl) (fun _ _ _ _ => long _ _ _),
    .twoRegs (fun _ _ _ => rfl) (fun _ _ _ => rfl)⟩

theorem faithful_arrayRows : ∀ r ∈ arrayRows, r.Faithful := by
  simp only [arrayRows, List.forall_mem_cons, List.not_mem_nil, false_imp_iff, implies_true, and_true]
  exact ⟨.fixed rfl rfl, .fixed rfl rfl, .fixed rfl rfl, .fixed rfl rfl,
    .fixed rfl rfl, .fixed rfl rfl, .fixed rfl rfl, .fixed rfl rfl⟩

theorem faithful_pixelRows : ∀ r ∈ pixelRows, r.Faithful := by
  simp only [pixelRows, List.forall_mem_cons, List.not_mem_nil, false_imp_iff, implies_true, and_true]
  refine ⟨⟨by decide, fun _ _ _ _ => rfl, fun w _ _ h => ?line⟩, .twoRegs (fun _ _ _ => rfl) (fun _ _ _ => rfl),
    .twoRegs (fun _ _ _ => rfl) (fun _ _ _ => rfl), .twoRegs (fun _ _ _ => rfl) (fun _ _ _ => rfl),
    .twoRegs (fun _ _ _ => rfl) (fun _ _ _ => rfl), .twoRegs (fun _ _ _ => rfl) (fun _ _ _ => rfl),
    .twoRegs (fun _ _ _ => rfl) (fun _ _ _ => rfl)⟩
  exact congrArg (fun x => [x]) (encodeLine_fields (OpcodeRow.matches_iff.1 h).1)

theorem faithful_callRows : ∀ r ∈ callRows, r.Faithful := by
  simp only [callRows, List.forall_mem_cons, List.not_mem_nil, false_imp_iff, implies_true, and_true]
  refine ⟨⟨by decide, fun _ _ _ _ => rfl, fun w _ _ h => ?trap⟩, ⟨by decide, fun _ _ _ _ => rfl, fun w w1 w2 h => ?calla⟩,
    .oneReg (by decide) (fun _ _ _ _ => rfl) (fun _ _ _ _ => rfl),
    .oneReg (by decide) (fun _ _ _ _ => rfl) (fun _ _ _ _ => rfl),
    .oneReg (by decide) (fun _ _ _ _ => rfl) (fun _ _ _ _ => rfl),
    ⟨by decide, fun _ _ _ _ => rfl, fun w _ _ h => ?rets⟩, .fixed rfl rfl⟩
  case trap => exact congrArg (fun x => [x]) (encodeCount_fields (OpcodeRow.matches_iff.1 h).1)
  case rets => exact congrArg (fun x => [x]) (encodeCount_fields (OpcodeRow.matches_iff.1 h).1)
  case calla =>
    have word : w &&& BitVec.allOnes 16 = 0x0D5F#16 := (OpcodeRow.matches_iff.1 h).1
    rw [BitVec.and_allOnes] at word
    exact congrArg₂ List.cons word.symm (encodeLong_longImmediate w1 w2)

theorem faithful_jumpRows : ∀ r ∈ jumpRows, r.Faithful := by
  simp only [jumpRows, List.forall_mem_cons, List.not_mem_nil, false_imp_iff, implies_true, and_true]
  refine ⟨⟨by decide, fun _ _ _ _ => rfl, fun w w1 w2 h => ?jacc⟩, ⟨by decide, fun _ _ _ _ => rfl, fun w w1 _ h => ?jrcc16⟩,
    ⟨by decide, fun w _ _ h => (OpcodeRow.matches_iff.1 h).2, fun w _ _ h => ?jrcc8⟩,
    .oneReg (by decide) (fun _ _ _ _ => rfl) (fun _ _ _ _ => rfl),
    .oneReg (by decide) (fun _ _ _ _ => rfl) (fun _ _ _ _ => rfl),
    .oneReg (by decide) (fun _ _ _ _ => rfl) (fun _ _ _ _ => rfl),
    ⟨by decide, fun _ _ _ _ => rfl, fun w _ _ h => ?dsjs⟩⟩
  case jacc =>
    exact congrArg₂ List.cons (encodeCond_fields (OpcodeRow.matches_iff.1 h).1) (encodeLong_longImmediate w1 w2)
  case jrcc16 => exact congrArg (fun x => [x, w1]) (encodeCond_fields (OpcodeRow.matches_iff.1 h).1)
  case jrcc8 => exact congrArg (fun x => [x]) (encodeShortJump_fields (OpcodeRow.matches_iff.1 h).1)
  case dsjs => exact congrArg (fun x => [x]) (encodeDsjs_fields (OpcodeRow.matches_iff.1 h).1)

/-- Every row of the opcode map is read to the end. -/
theorem faithful_opcodeRows : ∀ r ∈ opcodeRows, r.Faithful := by
  simp only [opcodeRows, List.forall_mem_append]
  exact ⟨⟨⟨⟨faithful_generalRows, faithful_arrayRows⟩, faithful_pixelRows⟩, faithful_callRows⟩, faithful_jumpRows⟩

theorem matches_of_findRow {w : Word16} {r : OpcodeRow} (h : findRow w = some r) : r.matches w = true :=
  List.find?_some (p := fun r : OpcodeRow => r.matches w) h

/-- Words decode where their first is in a row and enough of them follow. -/
theorem decode_eq_ok {ws rest : List Word16} {i : Instr} (h : decode ws = .ok (i, rest)) :
    ∃ w tail r, ws = w :: tail ∧ findRow w = some r ∧ r.extra ≤ tail.length ∧
      i = r.build w (tail.getD 0 0) (tail.getD 1 0) ∧ rest = tail.drop r.extra := by
  cases ws with
  | nil => cases h
  | cons w tail =>
    unfold decode at h
    simp only at h
    split at h
    case h_1 => cases h
    case h_2 r found =>
      split at h
      case isTrue enough =>
        cases h
        exact ⟨w, tail, r, rfl, found, enough, rfl, rfl⟩
      case isFalse => cases h

/-- The words that an instruction takes of those that follow its first, and the rest of them. -/
theorem take_getD_append_drop {tail : List Word16} {n : Nat} (few : n ≤ 2) (enough : n ≤ tail.length) :
    [tail.getD 0 0, tail.getD 1 0].take n ++ tail.drop n = tail := by
  match n, tail with
  | 0, _ => rfl
  | 1, _ :: _ => rfl
  | 2, _ :: _ :: _ => rfl

/-- Settles O6: the row that was found is read to the end. -/
theorem encodeOfDecodeIsIdentity : Obligations.EncodeOfDecodeIsIdentity := by
  intro ws rest i h
  obtain ⟨w, tail, r, rfl, found, enough, rfl, rfl⟩ := decode_eq_ok h
  obtain ⟨extra, wellFormed, encode⟩ := faithful_opcodeRows r (List.mem_of_find?_eq_some found)
  have word := matches_of_findRow found
  refine ⟨wellFormed _ _ _ word, ?_⟩
  rw [encode _ _ _ word, List.cons_append, take_getD_append_drop extra enough]

/-! ### No word matches two rows -/

/-- Two rows fix a bit differently. -/
def OpcodeRow.apart (r r' : OpcodeRow) : Bool := r.pattern &&& r'.mask != r'.pattern &&& r.mask

/-- The long forms of JRcc and JAcc, and the short one: the guard of the short one alone keeps them apart. -/
def OpcodeRow.longAndShort (r r' : OpcodeRow) : Bool :=
  r.mask == 0xF0FF#16 && !shortDisplacement r.pattern && r'.mask == 0xF000#16

theorem OpcodeRow.not_matches_of_apart {r r' : OpcodeRow} (h : r.apart r' = true) {w : Word16} (hr : r.matches w = true) :
    r'.matches w = false := by
  rw [← Bool.not_eq_true]
  intro hr'
  obtain ⟨pattern, -⟩ := OpcodeRow.matches_iff.1 hr
  obtain ⟨pattern', -⟩ := OpcodeRow.matches_iff.1 hr'
  have same : r.pattern &&& r'.mask = r'.pattern &&& r.mask := by
    rw [← pattern, ← pattern', BitVec.and_assoc, BitVec.and_assoc, BitVec.and_comm r.mask]
  simp [OpcodeRow.apart, same] at h

/-- The short form of JRcc is the one row whose mask fixes the four bits of a jump alone. -/
theorem guard_of_jumpMask : ∀ r ∈ opcodeRows, r.mask = 0xF000#16 → r.guard = shortDisplacement := by
  simp [opcodeRows, generalRows, arrayRows, pixelRows, callRows, jumpRows, OpcodeRow.fixed, OpcodeRow.twoRegs,
    OpcodeRow.oneReg]

theorem pairwise_apart_opcodeRows :
    opcodeRows.Pairwise (fun r r' => (r.apart r' || r.longAndShort r') = true) := by
  decide

/-- The guard looks at the displacement byte alone. -/
theorem shortDisplacement_and (w : Word16) : shortDisplacement (w &&& 0xF0FF#16) = shortDisplacement w := by
  have byte : (w &&& 0xF0FF#16).extractLsb' 0 8 = w.extractLsb' 0 8 := by
    rw [BitVec.extractLsb'_and]
    exact BitVec.and_allOnes
  rw [shortDisplacement, byte, ← shortDisplacement]

theorem OpcodeRow.not_matches_of_longAndShort {r r' : OpcodeRow} (mem : r' ∈ opcodeRows) (h : r.longAndShort r' = true)
    {w : Word16} (hr : r.matches w = true) : r'.matches w = false := by
  simp only [OpcodeRow.longAndShort, Bool.and_eq_true, beq_iff_eq, Bool.not_eq_true'] at h
  obtain ⟨⟨mask, long⟩, mask'⟩ := h
  obtain ⟨pattern, -⟩ := OpcodeRow.matches_iff.1 hr
  rw [← pattern, mask, shortDisplacement_and] at long
  rw [OpcodeRow.matches, guard_of_jumpMask r' mem mask', long, Bool.and_false]

/-- A list whose later elements fail wherever an earlier one holds is searched to any element that holds. -/
theorem find?_eq_some_of_pairwise {α : Type} {p : α → Bool} {l : List α} {a : α}
    (apart : l.Pairwise (fun x y => p x = true → p y = false)) (mem : a ∈ l) (holds : p a = true) :
    l.find? p = some a := by
  induction l with
  | nil => cases mem
  | cons x l ih =>
    obtain ⟨first, others⟩ := List.pairwise_cons.1 apart
    rcases List.mem_cons.1 mem with rfl | later
    · exact List.find?_cons_of_pos holds
    · have fails : ¬ p x = true := fun hx => by rw [first a later hx] at holds; cases holds
      rw [List.find?_cons_of_neg fails, ih others later]

/-- A word is found in the row that it matches. -/
theorem findRow_eq_some {w : Word16} {r : OpcodeRow} (mem : r ∈ opcodeRows) (h : r.matches w = true) :
    findRow w = some r := by
  refine find?_eq_some_of_pairwise ?_ mem h
  refine pairwise_apart_opcodeRows.imp_of_mem (fun {r r'} _ mem' related matched => ?_)
  rcases Bool.or_eq_true _ _ ▸ related with apart | guarded
  · exact OpcodeRow.not_matches_of_apart apart matched
  · exact OpcodeRow.not_matches_of_longAndShort mem' guarded matched

/-! ### The row of an instruction -/

/-- A row carries an instruction: its first word `w` matches, the others `tail` are as many as the row says, and from them the
row builds it. -/
structure OpcodeRow.Carries (r : OpcodeRow) (i : Instr) (w : Word16) (tail : List Word16) : Prop where
  encode : encode i = w :: tail
  matched : r.matches w = true
  extra : tail.length = r.extra
  build : ∀ rest : List Word16, r.build w ((tail ++ rest).getD 0 0) ((tail ++ rest).getD 1 0) = i

theorem OpcodeRow.Carries.fixed {p : Word16} {i : Instr} (enc : Sys2Proof.encode i = [p]) :
    (OpcodeRow.fixed p i).Carries i p [] :=
  ⟨enc, OpcodeRow.matches_iff.2 ⟨BitVec.and_allOnes, rfl⟩, rfl, fun _ => rfl⟩

theorem OpcodeRow.Carries.twoRegs {p : Word16} {mk : RFile → RegIdx → RegIdx → Instr} {f : RFile} {src dst : RegIdx}
    (enc : Sys2Proof.encode (mk f src dst) = [encodeTwoRegs p f src dst]) (fixed : p &&& 0xFE00#16 = p) :
    (OpcodeRow.twoRegs p mk).Carries (mk f src dst) (encodeTwoRegs p f src dst) [] := by
  obtain ⟨pattern, file, source, destination⟩ := fields_encodeTwoRegs fixed f src dst
  refine ⟨enc, OpcodeRow.matches_iff.2 ⟨pattern, rfl⟩, rfl, fun _ => ?_⟩
  simp only [OpcodeRow.twoRegs, file, source, destination]

theorem OpcodeRow.Carries.oneReg {p : Word16} {extra : Nat} {mk : RFile → RegIdx → Word16 → Word16 → Instr} {i : Instr}
    {f : RFile} {dst : RegIdx} {tail : List Word16} (enc : Sys2Proof.encode i = encodeOneReg p f dst :: tail)
    (fixed : p &&& 0xFFE0#16 = p) (length : tail.length = extra)
    (build : ∀ rest : List Word16, mk f dst ((tail ++ rest).getD 0 0) ((tail ++ rest).getD 1 0) = i) :
    (OpcodeRow.oneReg p extra mk).Carries i (encodeOneReg p f dst) tail := by
  obtain ⟨pattern, file, register⟩ := fields_encodeOneReg fixed f dst
  refine ⟨enc, OpcodeRow.matches_iff.2 ⟨pattern, rfl⟩, length, fun rest => ?_⟩
  rw [← build rest]
  simp only [OpcodeRow.oneReg, file, register]

/-- What a row of the map carries is decoded, whatever follows. -/
theorem decode_of_carries {r : OpcodeRow} (mem : r ∈ opcodeRows) {i : Instr} {w : Word16} {tail : List Word16}
    (h : r.Carries i w tail) (rest : List Word16) : decode (encode i ++ rest) = .ok (i, rest) := by
  obtain ⟨enc, matched, extra, build⟩ := h
  have enough : r.extra ≤ (tail ++ rest).length := by rw [List.length_append]; omega
  rw [enc, List.cons_append, decode]
  simp only [findRow_eq_some mem matched, if_pos enough, build]
  rw [← extra, List.drop_left]

/-- Every well-formed instruction is carried by a row of the map. -/
theorem exists_carries (i : Instr) (wf : i.wellFormed = true) : ∃ r ∈ opcodeRows, ∃ w tail, r.Carries i w tail := by
  have row (k : Nat) {r : OpcodeRow} {w : Word16} {tail : List Word16} (h : opcodeRows[k]? = some r)
      (c : r.Carries i w tail) : ∃ r ∈ opcodeRows, ∃ w tail, r.Carries i w tail :=
    ⟨r, List.mem_of_getElem? h, w, tail, c⟩
  cases i with
  | moveSame f src dst => exact row 0 rfl (.twoRegs rfl rfl)
  | moveOther f src dst => exact row 1 rfl (.twoRegs rfl rfl)
  | moviIW f dst imm => exact row 2 rfl (.oneReg rfl rfl rfl (fun _ => rfl))
  | moviIL f dst imm => exact row 3 rfl (.oneReg rfl rfl rfl (fun _ => congrArg _ (longImmediate_extract imm)))
  | addiIW f dst imm => exact row 4 rfl (.oneReg rfl rfl rfl (fun _ => rfl))
  | addiIL f dst imm => exact row 5 rfl (.oneReg rfl rfl rfl (fun _ => congrArg _ (longImmediate_extract imm)))
  | subxy f src dst => exact row 6 rfl (.twoRegs rfl rfl)
  | pixbltLL => exact row 7 rfl (.fixed rfl)
  | pixbltLXY => exact row 8 rfl (.fixed rfl)
  | pixbltXYL => exact row 9 rfl (.fixed rfl)
  | pixbltXYXY => exact row 10 rfl (.fixed rfl)
  | pixbltBL => exact row 11 rfl (.fixed rfl)
  | pixbltBXY => exact row 12 rfl (.fixed rfl)
  | fillL => exact row 13 rfl (.fixed rfl)
  | fillXY => exact row 14 rfl (.fixed rfl)
  | line z =>
    have matched : (if z then 0xDF9A#16 else 0xDF1A#16) &&& 0xFF7F#16 = 0xDF1A#16 := by cases z <;> rfl
    refine row 15 rfl ⟨rfl, OpcodeRow.matches_iff.2 ⟨matched, rfl⟩, rfl, fun _ => ?_⟩
    cases z <;> rfl
  | drav f src dst => exact row 16 rfl (.twoRegs rfl rfl)
  | cvxyl f src dst => exact row 17 rfl (.twoRegs rfl rfl)
  | cpw f src dst => exact row 18 rfl (.twoRegs rfl rfl)
  | pixtToXY f src dst => exact row 19 rfl (.twoRegs rfl rfl)
  | pixtFromXY f src dst => exact row 20 rfl (.twoRegs rfl rfl)
  | pixtXYToXY f src dst => exact row 21 rfl (.twoRegs rfl rfl)
  | trap n =>
    obtain ⟨pattern, count⟩ := fields_encodeCount (p := 0x0900#16) rfl n
    exact row 22 rfl ⟨rfl, OpcodeRow.matches_iff.2 ⟨pattern, rfl⟩, rfl, fun _ => congrArg Instr.trap count⟩
  | calla addr =>
    exact row 23 rfl ⟨rfl, OpcodeRow.matches_iff.2 ⟨rfl, rfl⟩, rfl,
      fun _ => congrArg Instr.calla (longImmediate_extract addr)⟩
  | callRs f src => exact row 24 rfl (.oneReg rfl rfl rfl (fun _ => rfl))
  | jump f src => exact row 25 rfl (.oneReg rfl rfl rfl (fun _ => rfl))
  | exgpc f dst => exact row 26 rfl (.oneReg rfl rfl rfl (fun _ => rfl))
  | rets n =>
    obtain ⟨pattern, count⟩ := fields_encodeCount (p := 0x0960#16) rfl n
    exact row 27 rfl ⟨rfl, OpcodeRow.matches_iff.2 ⟨pattern, rfl⟩, rfl, fun _ => congrArg Instr.rets count⟩
  | reti => exact row 28 rfl (.fixed rfl)
  | jacc c addr =>
    obtain ⟨pattern, code⟩ := fields_encodeCond (p := 0xC080#16) rfl c
    exact row 29 rfl ⟨rfl, OpcodeRow.matches_iff.2 ⟨pattern, rfl⟩, rfl,
      fun _ => congrArg₂ Instr.jacc code (longImmediate_extract addr)⟩
  | jrcc16 c disp =>
    obtain ⟨pattern, code⟩ := fields_encodeCond (p := 0xC000#16) rfl c
    exact row 30 rfl ⟨rfl, OpcodeRow.matches_iff.2 ⟨pattern, rfl⟩, rfl, fun _ => congrArg₂ Instr.jrcc16 code rfl⟩
  | jrcc8 c disp =>
    obtain ⟨pattern, code, displacement⟩ := fields_encodeShortJump c disp
    have guard : shortDisplacement (encodeCond 0xC000#16 c ||| disp.setWidth 16) = true := by
      rw [shortDisplacement, displacement]; exact wf
    exact row 31 rfl ⟨rfl, OpcodeRow.matches_iff.2 ⟨pattern, guard⟩, rfl, fun _ => congrArg₂ Instr.jrcc8 code displacement⟩
  | dsj f dst disp => exact row 32 rfl (.oneReg rfl rfl rfl (fun _ => rfl))
  | dsjeq f dst disp => exact row 33 rfl (.oneReg rfl rfl rfl (fun _ => rfl))
  | dsjne f dst disp => exact row 34 rfl (.oneReg rfl rfl rfl (fun _ => rfl))
  | dsjs back offset f dst =>
    obtain ⟨pattern, direction, words, file, register⟩ := fields_encodeDsjs back offset f dst
    refine row 35 rfl ⟨rfl, OpcodeRow.matches_iff.2 ⟨pattern, rfl⟩, rfl, fun _ => ?_⟩
    change Instr.dsjs _ _ _ _ = _
    rw [direction, words, file, register]

/-- Settles O5: the row that carries the instruction is the one found. -/
theorem decodeOfEncodeIsIdentity : Obligations.DecodeOfEncodeIsIdentity := by
  intro i rest wf
  obtain ⟨r, mem, w, tail, carries⟩ := exists_carries i wf
  exact decode_of_carries mem carries rest

/-- Settles O4: each word list is the encoding of its instruction. -/
theorem sampleWordsDecode : Obligations.SampleWordsDecode := by
  have words (i : Instr) (wf : i.wellFormed = true) : decode (encode i ++ []) = .ok (i, []) :=
    decodeOfEncodeIsIdentity i [] wf
  exact ⟨words (.moveSame .B 6 7) rfl, words (.moveOther .A 1 15) rfl, words (.moviIL .B 8 0x00005555#32) rfl,
    words (.addiIL .B 7 0x00010001#32) rfl, words (.subxy .B 5 7) rfl, words .fillL rfl, words (.calla 0x00012345#32) rfl,
    words (.callRs .A 5) rfl, words (.jrcc8 0 0xFE#8) rfl, words (.jrcc16 0 0x8000#16) rfl, words (.jump .A 0) rfl,
    words (.rets 0) rfl, words .reti rfl⟩

end Sys2Proof

/-! SUPPORT. One equation of `step` per input, and what follows for reset, host writes, a halted CPU, and the fetch of a whole
instruction. -/

namespace Sys2Proof.Machine

/-! ### One equation per input -/

section Equations

variable {s : State} {rest : List Input}

theorem step_of_no_input (h : s.inputs = []) : step s = s.received.cpuStep := by
  unfold step; rw [h]

theorem step_of_execute {inside : List (Option HostWrite)} (h : s.inputs = .execute inside :: rest) :
    step s = Outcome.settled ({ s with inputs := rest, inside }.received.cpuStep) := by
  unfold step; rw [h]

theorem step_of_interruptBlit {irq : Irq} {done : Nat} {inside : List (Option HostWrite)}
    (h : s.inputs = .interruptBlit irq done inside :: rest) :
    step s = Outcome.settled ({ s with inputs := rest, inside }.received.stepInterrupted irq done) := by
  unfold step; rw [h]

theorem step_of_hostWrite {addr : Word} {value : Word16} (h : s.inputs = .hostWrite addr value :: rest) :
    step s = .next ({ s with inputs := rest }.hostStore addr value) := by
  unfold step; rw [h]

theorem step_of_hostWriteFirst {addr : Word} {value : Word16} (h : s.inputs = .hostWriteFirst addr value :: rest) :
    step s = .next ({ s with inputs := rest }.hostStoreFirst addr value) := by
  unfold step; rw [h]

theorem step_of_reset (h : s.inputs = .reset :: rest) : step s = .next { s with inputs := rest }.resetEvent := by
  unfold step; rw [h]

end Equations

theorem State.cpuStep_of_halted {s : State} (h : s.hlt = true) : s.cpuStep = .next s := by
  rw [State.cpuStep, if_pos h]

theorem State.cpuStep_of_taken {s : State} (running : s.hlt = false) {irq : Irq} {rest : List Irq}
    (h : s.takeable = some (irq, rest)) : s.cpuStep = .next ({ s with pending := rest }.takeInterrupt irq) := by
  rw [State.cpuStep, if_neg (by simp [running]), h]

theorem State.cpuStep_of_running {s : State} (running : s.hlt = false) (h : s.takeable = none) :
    s.cpuStep = s.runInstr := by
  rw [State.cpuStep, if_neg (by simp [running]), h]

/-- Settles O9: halted, the CPU's move is none. -/
theorem haltedCpuKeepsItsState : Obligations.HaltedCpuKeepsItsState := by
  intro s halted
  refine ⟨fun h => ?_, fun inside rest h => ?_⟩
  · rw [step_of_no_input h]
    exact State.cpuStep_of_halted halted
  · rw [step_of_execute h, State.cpuStep_of_halted (by exact halted)]
    rfl

/-! ### Reset -/

/-- Settles O2: the state at reset, field by field. -/
theorem resetStateIsWellFormed : Obligations.ResetStateIsWellFormed := by
  have empty : State.reset.cache.empty := fun g j => by
    rw [State.reset, Cache.atReset, Cache.seg, vector_get_ofFn]
    exact Segment.isPresent_clear (Segment.atReset g) j
  exact ⟨⟨⟨Memory.wf_nil, by decide, .refl _, fun _ => empty⟩, rfl⟩, empty, rfl, by decide⟩

/-- Memory after a reset in mid-run, bit by bit. -/
theorem State.readBit_memAfterReset (s : State) (x : Word) :
    s.memAfterReset.readBit x =
      if x = s.cfAddr then false
      else if x = s.cdAddr then false
      else if x = s.hltAddr then (Config.freeWord s.freeCount .hlt).getLsbD 0
      else s.mem.readBit x := by
  simp only [State.memAfterReset, Memory.readBit_writeBit, Config.cfReset, Config.cdReset]

theorem State.cf_resetEvent (s : State) : s.resetEvent.cf = false :=
  (s.tick.readBit_memAfterReset _).trans (if_pos rfl)

theorem State.cd_resetEvent (s : State) : s.resetEvent.cd = false := by
  have bit : s.resetEvent.cd = s.tick.memAfterReset.readBit s.cdAddr := rfl
  have address : s.tick.cdAddr = s.cdAddr := rfl
  rw [bit, State.readBit_memAfterReset, address, if_pos rfl, ite_self]

theorem State.readBit_resetEvent (s : State) {x : Word} (notCf : x ≠ s.cfAddr) (notCd : x ≠ s.cdAddr)
    (notHlt : x ≠ s.hltAddr) : s.resetEvent.mem.readBit x = s.mem.readBit x :=
  (s.tick.readBit_memAfterReset x).trans ((if_neg notCf).trans ((if_neg notCd).trans (if_neg notHlt)))

theorem State.line_resetEvent (s : State) (g : Fin 4) (j : Fin 8) :
    (s.resetEvent.cache.seg g).line j = (s.cache.seg g).line j := by
  rw [State.seg_resetEvent]
  rfl

/-- Settles O3: the fields of the event, its cleared segments, and the three bits it writes. -/
theorem midRunResetRestoresStatusAndCache : Obligations.MidRunResetRestoresStatusAndCache := by
  intro s rest h
  exact ⟨_, step_of_reset h, rfl, rfl, State.empty_cache_resetEvent _, rfl, State.cf_resetEvent _, State.cd_resetEvent _,
    rfl, rfl, State.line_resetEvent _, fun _ => State.readBit_resetEvent _⟩

/-! ### Host writes -/

/-- A word written by the host, bit by bit. -/
theorem State.readBit_hostStore (s : State) (addr x : Word) (value : Word16) :
    (s.hostStore addr value).mem.readBit x =
      if covers (wordAddr addr) 16 x then value.getLsbD (x - wordAddr addr).toNat else s.mem.readBit x := by
  refine (Memory.readBit_writeBits _ _ _ _ (by norm_num)).trans ?_
  simp only [covers, decide_eq_true_eq]
  split_ifs with h
  · rw [BitVec.getLsbD_setWidth, decide_eq_true (by omega), Bool.true_and]
  · rfl

theorem State.cache_hostStore_eq (s : State) (addr : Word) (value : Word16) :
    (s.hostStore addr value).cache =
      if covers (wordAddr addr) 16 s.cfAddr && (s.hostStore addr value).cf then s.cache.flush else s.cache := rfl

/-- The bits of a host write that comes before the write in flight: the CPU's over the host's over those of before. -/
theorem State.readBit_hostStoreFirst {s : State} {p : PostedWrite} (inFlight : s.posted = some p) (len : p.len ≤ 16)
    (addr x : Word) (value : Word16) :
    (s.hostStoreFirst addr value).mem.readBit x =
      if x ≠ s.hltAddr ∧ covers p.addr p.len x = true then p.value.getLsbD (x - p.addr).toNat
      else if covers (wordAddr addr) 16 x then value.getLsbD (x - wordAddr addr).toNat
      else s.mem.readBit x := by
  have small : p.len ≤ 2 ^ 32 := by omega
  unfold State.hostStoreFirst
  simp only [inFlight, covers_iff]
  refine (Memory.readBit_writeBitsBut _ _ _ _ _ small).trans (if_ctx_congr Iff.rfl (fun _ => rfl) (fun outside => ?_))
  rw [State.readBit_hostStore]
  simp only [Memory.readBit_writeBitsBut _ _ _ _ _ small, if_neg outside, covers_iff]

/-- Settles O10: the host's word, alone or under the write in flight. -/
theorem hostWriteStoresOneWord : Obligations.HostWriteStoresOneWord := by
  intro s addr value rest
  refine ⟨fun h => ?_, fun h => ⟨fun none => ?_, fun p inFlight len => ?_⟩⟩
  · exact ⟨_, step_of_hostWrite h, fun x => State.readBit_hostStore _ addr x value, rfl, ⟨rfl, rfl, rfl⟩, rfl, rfl, rfl, rfl,
      rfl, rfl, rfl, rfl, rfl, rfl⟩
  · rw [step_of_hostWriteFirst h, step_of_hostWrite (s := { s with inputs := .hostWrite addr value :: rest }) rfl,
      State.hostStoreFirst]
    simp only [none]
  · exact ⟨_, step_of_hostWriteFirst h,
      fun x => State.readBit_hostStoreFirst (s := { s with inputs := rest }) inFlight len addr x value⟩

/-! ### Fetches that see memory -/

/-- A fetch at an address sees memory: the cache is bypassed, or no copy of the address's word differs from memory. -/
def State.FreshAt (s : State) (a : Word) : Prop := s.bypass = true ∨ wordAligned a ∧ s.CoherentAt a

theorem State.FreshAt.fetchedWord {s : State} (quiet : s.inside = []) {a : Word} (h : s.FreshAt a) :
    s.fetchedWord a = s.mem.readBits a 16 := by
  rcases h with bypass | ⟨aligned, coherent⟩
  · exact State.fetchedWord_bypass_of_quiet quiet bypass a
  · exact State.fetchedWord_of_coherentAt quiet coherent aligned

theorem State.FreshAt.advance {s : State} (quiet : s.inside = []) {a : Word} (h : s.FreshAt a) : s.advance.FreshAt a := by
  rcases h with bypass | ⟨aligned, coherent⟩
  · refine .inl ((State.bypass_congr ?_ ?_).trans bypass) <;> rw [State.advance_of_quiet quiet]
  · exact .inr ⟨aligned, coherent.advance quiet⟩

/-- The address of the word after next. -/
theorem add_ofNat_succ (a : Word) (k : Nat) : a + 16#32 + BitVec.ofNat 32 (16 * k) = a + BitVec.ofNat 32 (16 * (k + 1)) := by
  rw [add_assoc, ← BitVec.ofNat_add]
  congr 2
  omega

/-- Words fetched one after the other, each as memory holds it. -/
theorem State.getElem?_fst_fetchWords {s : State} (quiet : s.inside = []) {n : Nat}
    (fresh : ∀ k < n, s.FreshAt (s.pc + BitVec.ofNat 32 (16 * k))) {k : Nat} (hk : k < n) :
    (s.fetchWords n).1[k]? = some (s.mem.readBits (s.pc + BitVec.ofNat 32 (16 * k)) 16) := by
  induction n generalizing s k with
  | zero => omega
  | succ n ih =>
    have after := State.advance_of_quiet quiet
    have words : (s.fetchWords (n + 1)).1 = s.fetchedWord s.pc :: (s.advance.fetchWords n).1 := rfl
    rw [words]
    cases k with
    | zero =>
      have first : s.FreshAt s.pc := by simpa using fresh 0 (by omega)
      simp [first.fetchedWord quiet]
    | succ k =>
      have pc : s.advance.pc = s.pc + 16#32 := by rw [after]
      have mem : s.advance.mem = s.mem := by rw [after]
      have later : ∀ j < n, s.advance.FreshAt (s.advance.pc + BitVec.ofNat 32 (16 * j)) := fun j hj => by
        rw [pc, add_ofNat_succ]
        exact (fresh (j + 1) (by omega)).advance quiet
      rw [List.getElem?_cons_succ, ih (by rw [after]; exact quiet) later (by omega), pc, mem, add_ofNat_succ]

theorem State.length_fst_fetchWords (s : State) (n : Nat) : (s.fetchWords n).1.length = n := by
  induction n generalizing s with
  | zero => rfl
  | succ n ih => exact congrArg (· + 1) (ih s.advance)

/-- Words that memory holds are the words fetched. -/
theorem State.fst_fetchWords_eq {s : State} (quiet : s.inside = []) {ws : List Word16}
    (fresh : ∀ k < ws.length, s.FreshAt (s.pc + BitVec.ofNat 32 (16 * k)))
    (held : ∀ (k : Nat) (w : Word16), ws[k]? = some w → s.mem.readBits (s.pc + BitVec.ofNat 32 (16 * k)) 16 = w) :
    (s.fetchWords ws.length).1 = ws := by
  refine List.ext_getElem? (fun k => ?_)
  by_cases hk : k < ws.length
  · rw [State.getElem?_fst_fetchWords quiet fresh hk, List.getElem?_eq_getElem hk,
      held k _ (List.getElem?_eq_getElem hk)]
  · rw [List.getElem?_eq_none (by rw [State.length_fst_fetchWords]; omega), List.getElem?_eq_none (by omega)]

/-- A fetch of the first word does not depend on what is in flight. -/
theorem State.fetchedWord_received {s : State} (quiet : s.inside = []) (a : Word) :
    s.received.fetchedWord a = s.fetchedWord a := by
  unfold State.fetchedWord
  rw [State.fetchWord_of_quiet quiet, State.fetchWord_of_quiet (by exact quiet)]
  rfl

/-- A first word in no row is an instruction of one word that does not decode. -/
theorem State.runInstr_of_undecodable {s : State} (h : findRow (s.fetchedWord s.pc) = none) :
    s.runInstr = .refused (.undecodable (s.fetchedWord s.pc)) := by
  have length : lengthOf (s.fetchedWord s.pc) = 1 := by rw [lengthOf, h]
  have words : (s.fetchWords 1).1 = [s.fetchedWord s.pc] := rfl
  have decoded : decode [s.fetchedWord s.pc] = .error (.undecodable (s.fetchedWord s.pc)) := by
    rw [decode, h]
  have fetched : s.fetchInstr = .error (.undecodable (s.fetchedWord s.pc)) := by
    unfold State.fetchInstr
    simp only [length, words, decoded]
  rw [State.runInstr, fetched]
  rfl

/-- Settles O7: running and with no interrupt to take, the CPU fetches the word and refuses it. -/
theorem undecodableWordIsRefused : Obligations.UndecodableWordIsRefused := by
  intro s noInput quiet running noInterrupt unknown
  have word := State.fetchedWord_received quiet s.pc
  rw [step_of_no_input noInput, State.cpuStep_of_running (by exact running) (by exact noInterrupt),
    State.runInstr_of_undecodable (by rw [State.pc_received, word]; exact unknown), State.pc_received, word]

theorem length_encode (i : Instr) : (encode i).length = i.words := by
  cases i <;> rfl

theorem exists_encode_eq_cons (i : Instr) : ∃ w tail, encode i = w :: tail := by
  cases i <;> exact ⟨_, _, rfl⟩

/-- The first word of an encoding tells its length (R82). -/
theorem lengthOf_of_encode {i : Instr} {w : Word16} {tail : List Word16} (wf : i.wellFormed = true)
    (words : encode i = w :: tail) : lengthOf w = i.words := by
  obtain ⟨r, mem, w', tail', encoded, matched, extra, -⟩ := exists_carries i wf
  cases words.symm.trans encoded
  rw [lengthOf, findRow_eq_some mem matched, ← length_encode, words, List.length_cons, extra]

/-- An instruction that memory holds and whose fetches see memory is fetched as it is. -/
theorem State.fetchInstr_of_held {s : State} {i : Instr} (quiet : s.inside = [])
    (fresh : ∀ k < i.words, s.FreshAt (s.pc + BitVec.ofNat 32 (16 * k))) (wf : i.wellFormed = true)
    (held : ∀ (k : Nat) (w : Word16), (encode i)[k]? = some w →
      s.mem.readBits (s.pc + BitVec.ofNat 32 (16 * k)) 16 = w) :
    s.fetchInstr = .ok (i, (s.fetchWords i.words).2.tick) := by
  have words : (s.fetchWords i.words).1 = encode i := by
    rw [← length_encode] at fresh ⊢
    exact State.fst_fetchWords_eq quiet fresh held
  obtain ⟨w, tail, encoded⟩ := exists_encode_eq_cons i
  have pc : s.FreshAt s.pc := by
    simpa using fresh 0 (by rw [← length_encode, encoded]; exact Nat.succ_pos _)
  have first : s.fetchedWord s.pc = w := by
    rw [pc.fetchedWord quiet]
    simpa using held 0 w (by rw [encoded]; rfl)
  have decoded : decode (encode i) = .ok (i, []) := by
    simpa using decodeOfEncodeIsIdentity i [] wf
  unfold State.fetchInstr
  simp only [first, lengthOf_of_encode wf encoded, words, decoded]

/-- A pc that is word aligned stays so from word to word. -/
theorem wordAligned_add_words {a : Word} (h : wordAligned a) (k : Nat) : wordAligned (a + BitVec.ofNat 32 (16 * k)) := by
  refine wordAligned_add h ((wordAligned_iff_toNat _).2 ?_)
  rw [BitVec.toNat_ofNat]
  omega

/-- The inputs still to come do not matter to a fetch. -/
theorem State.snd_fetchWords_inputs {s : State} (quiet : s.inside = []) (l : List Input) (n : Nat) :
    (({ s with inputs := l } : State).fetchWords n).2 = { (s.fetchWords n).2 with inputs := l } := by
  obtain ⟨c, r, after⟩ := State.fetchWords_of_quiet quiet n
  have words := congrArg Prod.snd (State.fetchWords_outside quiet s.posted s.pending l n)
  rw [after] at words ⊢
  exact words

theorem State.tick_inputs (s : State) (l : List Input) : ({ s with inputs := l } : State).tick = { s.tick with inputs := l } :=
  rfl

theorem State.forInstr_inputs (s : State) (l : List Input) (i : Instr) :
    ({ s with inputs := l } : State).forInstr i = { s.forInstr i with inputs := l } := by
  unfold State.forInstr
  rw [isSome_blitPlanOf i { s with inputs := l } s]

/-- Settles O8: the words fetched are those that memory holds, and the fetches leave PC past them, a cache and a record. -/
theorem stepRunsTheDecodedInstruction : Obligations.StepRunsTheDecodedInstruction := by
  intro s i quiet running noInterrupt aligned seen wf held fetched
  have fresh : ∀ k < i.words, s.FreshAt (s.pc + BitVec.ofNat 32 (16 * k)) := fun k hk =>
    seen.imp id fun coherent => ⟨wordAligned_add_words aligned k, coherent k hk⟩
  obtain ⟨c, r, after⟩ := State.fetchWords_of_quiet (s := s.received) quiet i.words
  have fetchedEq : fetched = (s.received.fetchWords i.words).2.tick.forInstr i := by
    simp only [fetched, after]
    rw [isSome_blitPlanOf i s (s.received.fetchWords i.words).2.tick, after]
    rfl
  refine ⟨fun noInput => ?_, fun rest h => ?_⟩
  · have instr := State.fetchInstr_of_held (s := s.received) quiet fresh wf held
    rw [step_of_no_input noInput, State.cpuStep_of_running (by exact running) (by exact noInterrupt), State.runInstr, instr,
      fetchedEq]
  · have start : ({ s with inputs := rest, inside := [] } : State).received = { s.received with inputs := rest } :=
      congrArg (fun inside => { s.received with inputs := rest, inside }) quiet.symm
    have instr := State.fetchInstr_of_held (s := { s.received with inputs := rest }) quiet fresh wf held
    rw [step_of_execute h, start, State.cpuStep_of_running (by exact running) (by exact noInterrupt), State.runInstr, instr,
      fetchedEq]
    simp only
    rw [State.snd_fetchWords_inputs (s := s.received) quiet, State.tick_inputs, State.forInstr_inputs]

end Sys2Proof.Machine

/-! SUPPORT. What of ST an instruction keeps (R18 to R25); and the instructions that leave a value in one register, branch, or
return, as uses of the laws of registers, status and stack. -/

namespace Sys2Proof.Machine

/-! ### The status register along an instruction -/

theorem State.KeepsStatus.of_eq {s t : State} (st : t.st = s.st) (resuming : t.resuming = s.resuming) : s.KeepsStatus t :=
  ⟨fun _ _ => by rw [st], resuming⟩

theorem State.OnlyMemory.keepsStatus {s t : State} (h : s.OnlyMemory t) : s.KeepsStatus t := .of_eq h.st h.resuming

theorem State.KeepsStatus.trans {s t u : State} (h : s.KeepsStatus t) (h' : t.KeepsStatus u) : s.KeepsStatus u where
  bits k hk := (h'.bits k hk).trans (h.bits k hk)
  resuming := h'.resuming.trans h.resuming

theorem State.keepsStatus_writeReg (s : State) (f : RFile) (i : RegIdx) (v : Word) : s.KeepsStatus (s.writeReg f i v) :=
  .of_eq (s.st_writeReg f i v) (s.resuming_writeReg f i v)

theorem State.keepsStatus_loadPc (s : State) (a : Word) : s.KeepsStatus (s.loadPc a) := .of_eq rfl rfl

/-- A jump, taken or not. -/
theorem State.keepsStatus_ite_loadPc (s : State) (taken : Bool) (a : Word) :
    s.KeepsStatus (if taken then s.loadPc a else s) := by
  cases taken with
  | true => exact s.keepsStatus_loadPc a
  | false => exact .of_eq rfl rfl

theorem State.keepsStatus_withB (s : State) (b : Vector Word 15) : s.KeepsStatus (s.withB b) := .of_eq rfl rfl

theorem State.keepsStatus_dropWords (s : State) (n : BitVec 5) : s.KeepsStatus (s.dropWords n) := .of_eq rfl rfl

theorem State.keepsStatus_push32 (s : State) (v : Word) : s.KeepsStatus (s.push32 v) :=
  .of_eq (s.st_push32 v) (s.resuming_push32 v)

theorem State.keepsStatus_pop32 (s : State) : s.KeepsStatus s.pop32.2 := .of_eq s.st_pop32 s.resuming_pop32

/-- Free flags over a state whose ST is as before. -/
theorem State.KeepsStatus.withFreeFlags {s t : State} (h : s.KeepsStatus t) : s.KeepsStatus t.withFreeFlags where
  bits k hk := by rw [State.st_withFreeFlags, getLsbD_setFlags_low _ _ hk, h.bits k hk]
  resuming := h.resuming

theorem State.onlyMemory_ite_drawPixel (s : State) (drawn : Bool) (op : PixelOp) :
    s.OnlyMemory (if drawn then s.drawPixel op else s) := by
  cases drawn with
  | true => exact s.onlyMemory_drawPixel op
  | false => exact .refl s

/-- A pixel, drawn or not. -/
theorem State.keepsStatus_ite_drawPixel (s : State) (drawn : Bool) (op : PixelOp) :
    s.KeepsStatus (if drawn then s.drawPixel op else s) := (s.onlyMemory_ite_drawPixel drawn op).keepsStatus

/-- A PIXBLT or FILL carries out the plan it has now. -/
theorem exec_of_blitPlanOf {i : Instr} {s : State} {p : BlitPlan} (h : blitPlanOf i s = some p) :
    exec i s = .next (s.finishBlit p) := by
  cases i with
  | pixbltLL | pixbltLXY | pixbltXYL | pixbltXYXY | pixbltBL | pixbltBXY | fillL | fillXY =>
    cases h
    rfl
  | _ => cases h

/-- Of ST an instruction that is no TRAP, RETI, PIXBLT or FILL changes N, C, Z and V alone. -/
theorem exec_keepsStatus {i : Instr} {s : State} (noBlit : (blitPlanOf i s).isSome = false) (noTrap : ∀ n, i ≠ .trap n)
    (noReti : i ≠ .reti) : ∃ t, exec i s = .next t ∧ s.KeepsStatus t := by
  cases i with
  | pixbltLL | pixbltLXY | pixbltXYL | pixbltXYXY | pixbltBL | pixbltBXY | fillL | fillXY => cases noBlit
  | trap n => exact absurd rfl (noTrap n)
  | reti => exact absurd rfl noReti
  | moveSame | moveOther | moviIW | moviIL | addiIW | addiIL | subxy | cvxyl | cpw =>
    exact ⟨_, rfl, s.keepsStatus_writeReg_withFreeFlags _ _ _⟩
  | line z =>
    exact ⟨_, exec_line s z, ((s.onlyMemory_drawPixels _).keepsStatus.trans (State.keepsStatus_withB _ _)).withFreeFlags⟩
  | drav f src dst =>
    exact ⟨_, exec_drav f src dst s,
      ((s.keepsStatus_ite_drawPixel _ _).trans (State.keepsStatus_writeReg _ _ _ _)).withFreeFlags⟩
  | pixtToXY f src dst => exact ⟨_, exec_pixtToXY f src dst s, (s.keepsStatus_ite_drawPixel _ _).withFreeFlags⟩
  | pixtXYToXY f src dst => exact ⟨_, exec_pixtXYToXY f src dst s, (s.keepsStatus_ite_drawPixel _ _).withFreeFlags⟩
  | pixtFromXY f src dst =>
    exact ⟨_, exec_pixtFromXY f src dst s,
      ((s.onlyMemory_load _ _).keepsStatus.trans (State.keepsStatus_writeReg _ _ _ _)).withFreeFlags⟩
  | calla addr =>
    exact ⟨_, exec_calla s addr, ((s.keepsStatus_push32 _).trans (State.keepsStatus_loadPc _ _)).withFreeFlags⟩
  | callRs f src =>
    exact ⟨_, exec_callRs f src s, ((s.keepsStatus_push32 _).trans (State.keepsStatus_loadPc _ _)).withFreeFlags⟩
  | jacc | jrcc8 | jrcc16 => exact ⟨_, rfl, s.keepsStatus_ite_loadPc _ _⟩
  | dsj | dsjeq | dsjne | dsjs =>
    exact ⟨_, rfl, ((s.keepsStatus_writeReg _ _ _).trans (State.keepsStatus_ite_loadPc _ _ _)).withFreeFlags⟩
  | jump f src => exact ⟨_, exec_jump f src s, (s.keepsStatus_loadPc _).withFreeFlags⟩
  | exgpc f dst =>
    exact ⟨_, exec_exgpc f dst s, ((s.keepsStatus_writeReg _ _ _).trans (State.keepsStatus_loadPc _ _)).withFreeFlags⟩
  | rets n =>
    exact ⟨_, exec_rets s n,
      ((s.keepsStatus_pop32.trans (State.keepsStatus_dropWords _ n)).trans (State.keepsStatus_loadPc _ _)).withFreeFlags⟩

/-- What a completed PIXBLT or FILL leaves in ST: PBX cleared, N, C, Z and V its own, the rest as before. -/
theorem State.status_finishBlit (s : State) (p : BlitPlan) :
    stPBX (s.finishBlit p).st = false ∧
      ∀ k, k < 28 → k ≠ 25 → (s.finishBlit p).st.getLsbD k = s.st.getLsbD k := by
  refine ⟨?_, fun k hk notPbx => ?_⟩
  · rw [State.st_finishBlit, stPBX, getLsbD_setFlags_low _ _ (by omega)]
    exact stPBX_setPBX s.st false
  · rw [State.st_finishBlit, getLsbD_setFlags_low _ _ hk, getLsbD_setPBX _ _ notPbx (by omega)]

/-- Settles O13: PIXBLT and FILL clear PBX; the instructions left change N, C, Z and V alone. -/
theorem onlyTrapAndReturnChangeControlBits : Obligations.OnlyTrapAndReturnChangeControlBits := by
  intro i s t ran noTrap noReti
  cases plan : blitPlanOf i s with
  | some p =>
    cases (exec_of_blitPlanOf plan).symm.trans ran
    obtain ⟨pbx, bits⟩ := s.status_finishBlit p
    exact ⟨bits, pbx, rfl⟩
  | none =>
    obtain ⟨u, ran', status⟩ := exec_keepsStatus (by rw [plan]; rfl) noTrap noReti
    cases ran'.symm.trans ran
    exact ⟨fun k hk _ => status.bits k hk, status.bits 25 (by omega), status.resuming⟩

/-! ### One register: MOVI, ADDI, SUBXY, CVXYL and CPW -/

/-- Settles O32: MOVI writes its constant to the one register it names. -/
theorem moviLoadsTheConstant : Obligations.MoviLoadsTheConstant := fun s f dst imm =>
  ⟨_, exec_moviIL f dst s imm, s.oneRegister_writeReg_withFreeFlags f dst imm⟩

/-- Sign extension keeps the value (R91). -/
theorem shortImmediate_eq_ofInt (imm : Word16) : shortImmediate imm = BitVec.ofInt 32 imm.toInt := rfl

/-- Settles O33: the sum of words is the sum of their signed values, modulo 2^32. -/
theorem shortImmediatesAreSignExtended : Obligations.ShortImmediatesAreSignExtended := by
  intro s f dst imm
  have sum : BitVec.ofInt 32 ((s.readReg f dst).toInt + imm.toInt) = s.readReg f dst + shortImmediate imm := by
    rw [BitVec.ofInt_add, BitVec.ofInt_toInt, shortImmediate_eq_ofInt]
  rw [sum]
  exact ⟨⟨_, exec_moviIW f dst s imm, s.oneRegister_writeReg_withFreeFlags f dst _⟩,
    ⟨_, exec_addiIW f dst s imm, s.oneRegister_writeReg_withFreeFlags f dst _⟩⟩

@[simp] theorem yHalf_packXY (y x : Word16) : yHalf (packXY y x) = y := BitVec.extractLsb'_append_eq_left

@[simp] theorem xHalf_packXY (y x : Word16) : xHalf (packXY y x) = x := BitVec.extractLsb'_append_eq_right

/-- Settles O35: the halves are subtracted apart and put side by side. -/
theorem subxySubtractsEachHalf : Obligations.SubxySubtractsEachHalf := fun s f src dst =>
  ⟨_, _, exec_subxy f src dst s, s.oneRegister_writeReg_withFreeFlags f dst _, yHalf_packXY _ _, xHalf_packXY _ _⟩

/-- The origin lies at OFFSET (R70, R134). -/
theorem State.linearOf_origin (s : State) (use : XYUse) : s.linearOf use 0#32 = s.offset := by
  rw [State.linearOf, if_pos rfl, BitVec.add_zero]

/-- Settles O47: both write one register. -/
theorem cvxylAndCpwWriteOneRegister : Obligations.CvxylAndCpwWriteOneRegister := fun f src dst s =>
  ⟨⟨_, _, exec_cvxyl f src dst s, s.oneRegister_writeReg_withFreeFlags f dst _, rfl,
      fun origin => by rw [origin, State.linearOf_origin]⟩,
    ⟨_, exec_cpw f src dst s, s.oneRegister_writeReg_withFreeFlags f dst _⟩⟩

end Sys2Proof.Machine

/-! SUPPORT. The stack word by word (R60), fields stored and loaded back (R58), and the instructions that jump, call and
return. -/

namespace Sys2Proof.Machine

/-! ### The two cycles of a push -/

/-- A 32-bit access of an aligned address touches two words (R55). -/
theorem wordPieces_of_wordAligned {a : Word} (h : wordAligned a) : wordPieces a 32 = [(0, 16), (16, 16)] := by
  rw [wordAligned_iff_toNat] at h
  simp [wordPieces, h]

theorem State.store_of_wordAligned (s : State) {a : Word} (h : wordAligned a) (v : Word) :
    s.store a 32 v = (s.cycle.writeWord a 16 v).cycle.writeWord (a + 16#32) 16 (v >>> 16) := by
  rw [State.store, wordPieces_of_wordAligned h]
  simp [List.foldl]

/-- Two neighbouring words do not meet. -/
theorem not_covers_next_word (a : Word) {j : Nat} (hj : j < 16) :
    covers a 16 (a + 16#32 + BitVec.ofNat 32 j) = false := by
  have offset : (a + 16#32 + BitVec.ofNat 32 j - a).toNat = 16 + j := by
    rw [add_assoc, ← BitVec.ofNat_add, toNat_add_ofNat_sub_self a (by omega)]
  simp [covers, offset]

theorem not_covers_word_before (a : Word) {j : Nat} (hj : j < 16) :
    covers (a + 16#32) 16 (a + BitVec.ofNat 32 j) = false := by
  rw [← Bool.not_eq_true, covers_piece_iff a _ (by omega), toNat_add_ofNat_sub_self a (by omega)]
  omega

/-- A cycle of a write leaves a value none of whose bits it covers. -/
theorem State.readBits_writeWord_of_not_covers (s : State) {a b : Word} (v : Word) {n k : Nat}
    (h : ∀ j < k, covers a n (b + BitVec.ofNat 32 j) = false) :
    (s.writeWord a n v).mem.readBits b k = s.mem.readBits b k :=
  Memory.readBits_congr fun j hj => Memory.readBit_writeBitsBut_of_not_covers _ _ (h j hj)

/-- A cycle of a write, read back where HLT does not lie under it. -/
theorem State.readBits_writeWord_self (s : State) (a v : Word) {n : Nat} (hn : n ≤ 32)
    (hlt : covers a n s.hltAddr = false) : (s.writeWord a n v).mem.readBits a n = v.setWidth n := by
  apply BitVec.eq_of_getLsbD_eq
  intro i hi
  have self := toNat_add_ofNat_sub_self a (i := i) (by omega)
  have notHlt : a + BitVec.ofNat 32 i ≠ s.hltAddr := by
    intro same
    rw [← same, ← Bool.not_eq_true, covers_iff, self] at hlt
    exact hlt hi
  rw [Memory.getLsbD_readBits, State.readBit_writeWord _ _ _ _ (by omega), self, if_pos ⟨notHlt, hi⟩,
    BitVec.getLsbD_setWidth]

theorem sub_add_word (sp : Word) : sp - 32#32 + 16#32 = sp - 16#32 := by
  rw [sub_add]
  rfl

/-- A push on an aligned stack: two cycles of one word each. -/
theorem State.push32_of_wordAligned {s : State} (h : wordAligned s.sp) (v : Word) :
    s.push32 v =
      (({ s with sp := s.sp - 32#32 } : State).cycle.writeWord (s.sp - 32#32) 16 v).cycle.writeWord
        (s.sp - 16#32) 16 (v >>> 16) := by
  rw [State.push32, State.store_of_wordAligned _ (wordAligned_sub h (by decide)), sub_add_word]

/-- The second word of a push is in flight after it (R63). -/
theorem State.posted_push32_of_quiet {s : State} (quiet : s.inside = []) (h : wordAligned s.sp) (v : Word) :
    (s.push32 v).posted =
      some { addr := s.sp - 16#32, len := 16, value := v >>> 16, old := s.mem.readZext (s.sp - 16#32) 16 } := by
  let t : State := ({ s with sp := s.sp - 32#32 } : State).writeWord (s.sp - 32#32) 16 v
  have old : t.mem.readBits (s.sp - 16#32) 16 = s.mem.readBits (s.sp - 16#32) 16 :=
    State.readBits_writeWord_of_not_covers _ v fun j hj => by
      rw [← sub_add_word]
      exact not_covers_next_word _ hj
  have cycles : s.push32 v = t.writeWord (s.sp - 16#32) 16 (v >>> 16) := by
    rw [State.push32_of_wordAligned h, State.cycle_of_quiet (s := { s with sp := s.sp - 32#32 }) quiet]
    exact congrArg (fun u : State => u.writeWord (s.sp - 16#32) 16 (v >>> 16)) (State.cycle_of_quiet (s := t) quiet)
  rw [cycles, Memory.readZext, ← old]
  rfl

/-- A host write to the first word of a push, between its two cycles, stays: the value is torn (R57, D15). -/
theorem State.readBits_push32_torn {s : State} {w : HostWrite} (inside : s.inside = [none, some w]) (h : wordAligned s.sp)
    (first : wordAddr w.addr = s.sp - 32#32) (v : Word) :
    (s.push32 v).mem.readBits (s.sp - 32#32) 16 = w.value ∧
      (covers (s.sp - 16#32) 16 s.hltAddr = false →
        (s.push32 v).mem.readBits (s.sp - 16#32) 16 = v.extractLsb' 16 16) := by
  let t : State := ({ s with sp := s.sp - 32#32, inside := [some w] } : State).writeWord (s.sp - 32#32) 16 v
  have cycles : s.push32 v =
      ({ t.hostStore w.addr w.value with inside := [] } : State).writeWord (s.sp - 16#32) 16 (v >>> 16) := by
    rw [State.push32_of_wordAligned h, State.cycle, show ({ s with sp := s.sp - 32#32 } : State).inside = _ from inside]
    rfl
  rw [cycles]
  refine ⟨?_, fun notHlt => ?_⟩
  · rw [State.readBits_writeWord_of_not_covers]
    · have host : (t.hostStore w.addr w.value).mem.readBits (wordAddr w.addr) 16 = (w.value.setWidth 32).setWidth 16 :=
        Memory.readBits_writeBits_self _ _ _ (by norm_num)
      rw [← first]
      refine host.trans ?_
      simp
    · intro j hj
      rw [← sub_add_word]
      exact not_covers_word_before _ hj
  · refine (State.readBits_writeWord_self _ _ _ (by norm_num) (by exact notHlt)).trans ?_
    apply BitVec.eq_of_getLsbD_eq
    intro i hi
    simp [hi]

/-- Settles O20: a push and a pop by their rules, the two words by the cycles of an aligned push. -/
theorem pushAndPopFollowTheStack : Obligations.PushAndPopFollowTheStack := by
  intro s v
  refine ⟨s.pushes_push32 v, s.sp_pop32, fun quiet => ⟨State.pop32_of_quiet quiet, fun notHlt => ⟨?_, ?_⟩, fun aligned => ?_⟩,
    fun w inside aligned first => State.readBits_push32_torn inside aligned first v⟩
  · rw [State.pop32_of_quiet (State.inside_push32_of_quiet quiet v), State.sp_push32]
    exact State.readBits_push32_of_quiet quiet v notHlt
  · rw [State.sp_pop32, State.sp_push32, sub_add_cancel]
  · exact State.posted_push32_of_quiet quiet aligned v

/-! ### Fields stored and loaded back (R58) -/

theorem State.snd_readField_of_quiet {s : State} (quiet : s.inside = []) (k : FieldSel) (a : Word) :
    (s.readField k a).2 = s := by
  rw [State.readField, State.load_of_quiet quiet a (stFieldSize_le s.st k)]

/-- However it is extended, the low bits of a field loaded are memory's. -/
theorem State.setWidth_fst_readField_of_quiet {s : State} (quiet : s.inside = []) (k : FieldSel) (a : Word) :
    (s.readField k a).1.setWidth (stFieldSize s.st k) = s.mem.readBits a (stFieldSize s.st k) := by
  have hle := stFieldSize_le s.st k
  rw [State.fst_readField_of_quiet quiet]
  split_ifs
  · apply BitVec.eq_of_getLsbD_eq
    intro i hi
    have : i < 32 := by omega
    rw [BitVec.getLsbD_setWidth, BitVec.getLsbD_signExtend]
    simp [hi, this]
  · rw [BitVec.setWidth_setWidth_of_le _ hle, BitVec.setWidth_eq]

/-- A value stored is read back where HLT does not lie under it. -/
theorem State.Stores.readBits_self {s t : State} {a v : Word} {n : Nat} (h : s.Stores t a n v) (hn : n ≤ 32)
    (notHlt : covers a n s.hltAddr = false) : t.mem.readBits a n = v.setWidth n := by
  apply BitVec.eq_of_getLsbD_eq
  intro i hi
  have self := toNat_add_ofNat_sub_self a (i := i) (by omega)
  have covered : covers a n (a + BitVec.ofNat 32 i) = true := (covers_iff _ _ _).2 (by rw [self]; exact hi)
  have apart : a + BitVec.ofNat 32 i ≠ s.hltAddr := fun same => by
    rw [same, notHlt] at covered
    cases covered
  rw [Memory.getLsbD_readBits, h.bits _ covered apart, self, BitVec.getLsbD_setWidth]

theorem State.keepsStorage_writeReg (s : State) (f : RFile) (i : RegIdx) (v : Word) : s.KeepsStorage (s.writeReg f i v) := by
  refine ⟨⟨?_, ?_, ?_, ?_, ?_⟩, ⟨?_, ?_, ?_, ?_, ?_⟩, ?_⟩ <;> simp

/-- Settles O22: the store and the load by their rules, the register loaded by the rule of registers. -/
theorem fieldStoreWritesItsBits : Obligations.FieldStoreWritesItsBits := by
  intro s k f g src dst a quiet stored loaded
  have stores : s.Stores stored a (stFieldSize s.st k) (s.readReg f src) :=
    State.stores_store quiet a _ ((stFieldSize_le s.st k).trans (by norm_num))
  have storedQuiet : stored.inside = [] := State.inside_store_of_quiet quiet _ _ _
  have load : loaded = stored.writeReg g dst (stored.readField k a).1 :=
    congrArg (fun t : State => t.writeReg g dst (stored.readField k a).1) (State.snd_readField_of_quiet storedQuiet k a)
  have reached : s.OnlyMemory stored := State.onlyMemory_store s a (stFieldSize s.st k) (s.readReg f src)
  refine ⟨stores, ⟨reached.a, reached.b, reached.sp⟩, reached.st, reached.pc,
    fun notHlt => ?back, fun h j other => ?others, ?st, ?pc, ?storage⟩
  case back =>
    have bits := State.setWidth_fst_readField_of_quiet storedQuiet k a
    rw [reached.st] at bits
    rw [load, State.readReg_writeReg_self, bits]
    exact stores.readBits_self (stFieldSize_le s.st k) notHlt
  case others => rw [load, State.readReg_writeReg, if_neg other]
  case st => rw [load, State.st_writeReg, reached.st]
  case pc => rw [load, State.pc_writeReg, reached.pc]
  case storage => rw [load]; exact stored.keepsStorage_writeReg g dst _

/-! ### Exceptions and calls -/

/-- What an exception leaves besides the stack, PC and ST. -/
theorem State.enterException_kept (s : State) (pc st target : Word) :
    (s.enterException pc st target).a = s.a ∧ (s.enterException pc st target).b = s.b ∧
      (s.enterException pc st target).resuming = s.resuming ∧
      (s.enterException pc st target).suspended = s.suspended := by
  have pushed := s.onlyMemory_pushFrame pc st
  unfold State.enterException
  simp [pushed.a, pushed.b, pushed.resuming, pushed.suspended]

/-- Settles O51: TRAP is an exception, and that changes nothing else. -/
theorem trapTakesAnException : Obligations.TrapTakesAnException := by
  intro n s
  obtain ⟨a, b, resuming, suspended⟩ := s.enterException_kept s.pc (setPBX s.st false) (Config.trapAddress s.freeCount n)
  exact ⟨_, exec_trap s n, s.enterException_spec _ _ _, a, b, resuming, suspended,
    (s.framed_enterException _ _ _).toKeepsOutside⟩

/-- A call: the return address pushed, PC loaded, flags free. -/
theorem State.pushes_call (s : State) (v target : Word) : s.Pushes ((s.push32 v).loadPc target).withFreeFlags v where
  sp := by simp
  stored quiet := by
    obtain ⟨bits, halt, others, flush⟩ := (s.pushes_push32 v).stored quiet
    have cf : ((s.push32 v).loadPc target).withFreeFlags.cf = (s.push32 v).cf := State.cf_congr (by simp) (by simp)
    exact ⟨by simpa using bits, (State.hlt_congr (by simp) (by simp)).trans halt, by simpa using others,
      by rw [cf]; simpa using flush⟩
  cache := by simpa [State.KeepsCacheOrFlushes] using s.cache_push32 v

/-- What a call leaves besides the stack and PC. -/
theorem State.call_kept (s : State) (v target : Word) :
    ((s.push32 v).loadPc target).withFreeFlags.a = s.a ∧ ((s.push32 v).loadPc target).withFreeFlags.b = s.b ∧
      ((s.push32 v).loadPc target).withFreeFlags.suspended = s.suspended :=
  ⟨by simp, by simp, by simp⟩

theorem State.keepsStatus_call (s : State) (v target : Word) :
    s.KeepsStatus ((s.push32 v).loadPc target).withFreeFlags :=
  ((s.keepsStatus_push32 v).trans (State.keepsStatus_loadPc _ target)).withFreeFlags

/-- Settles O52: either call pushes PC' and loads PC. -/
theorem callsPushTheReturnAddress : Obligations.CallsPushTheReturnAddress := by
  intro s
  have call (target : Word) := s.call_kept s.pc target
  refine ⟨fun addr => ⟨_, exec_calla s addr, s.pushes_call s.pc addr, by simp [alignPc_eq_and], ?_⟩,
    fun f src => ⟨_, exec_callRs f src s, s.pushes_call s.pc _, by simp [alignPc_eq_and], ?_⟩⟩
  · obtain ⟨a, b, suspended⟩ := call addr
    exact ⟨a, b, s.keepsStatus_call _ _, suspended, (s.framed_call addr).toKeepsOutside⟩
  · obtain ⟨a, b, suspended⟩ := call (s.readReg f src)
    exact ⟨a, b, s.keepsStatus_call _ _, suspended, (s.framed_call _).toKeepsOutside⟩

/-! ### Jumps through registers and decrementing jumps -/

theorem State.keepsStorage_loadPc_withFreeFlags (s : State) (a : Word) : s.KeepsStorage (s.loadPc a).withFreeFlags := by
  exact ⟨⟨rfl, rfl, rfl, rfl, rfl⟩, ⟨rfl, rfl, rfl, rfl, rfl⟩, rfl⟩

/-- Settles O56: PC alone is loaded. -/
theorem jumpLoadsPcFromRegister : Obligations.JumpLoadsPcFromRegister := fun f src s =>
  ⟨_, exec_jump f src s, alignPc_eq_and _, ⟨rfl, rfl, rfl⟩, (s.keepsStatus_loadPc _).withFreeFlags,
    s.keepsStorage_loadPc_withFreeFlags _⟩

/-- Storage is kept along two steps. -/
theorem State.KeepsStorage.trans {s t u : State} (h : s.KeepsStorage t) (h' : t.KeepsStorage u) : s.KeepsStorage u :=
  ⟨⟨h'.io.trans h.io, h'.pending.trans h.pending, h'.params.trans h.params, h'.freeCount.trans h.freeCount,
      h'.inputs.trans h.inputs⟩,
    ⟨h'.mem.trans h.mem, h'.posted.trans h.posted, h'.inside.trans h.inside, h'.cache.trans h.cache,
      h'.rewritten.trans h.rewritten⟩, h'.suspended.trans h.suspended⟩

/-- Settles O57: the register is written after it is read for PC. -/
theorem exgpcExchangesPcAndRegister : Obligations.ExgpcExchangesPcAndRegister := by
  intro f dst s
  refine ⟨_, exec_exgpc f dst s, alignPc_eq_and _, ?_, fun g j other => ?_,
    ((s.keepsStatus_writeReg f dst s.pc).trans (State.keepsStatus_loadPc _ _)).withFreeFlags,
    (s.keepsStorage_writeReg f dst s.pc).trans (State.keepsStorage_loadPc_withFreeFlags _ _)⟩
  · exact State.readReg_writeReg_self s f dst s.pc
  · exact (State.readReg_writeReg s f g dst j s.pc).trans (if_neg other)

theorem State.keepsStorage_ite_loadPc_withFreeFlags (s : State) (taken : Bool) (a : Word) :
    s.KeepsStorage (if taken then s.loadPc a else s).withFreeFlags := by
  cases taken with
  | true => exact s.keepsStorage_loadPc_withFreeFlags a
  | false => exact ⟨⟨rfl, rfl, rfl, rfl, rfl⟩, ⟨rfl, rfl, rfl, rfl, rfl⟩, rfl⟩

theorem State.readReg_ite_loadPc (s : State) (taken : Bool) (a : Word) (f : RFile) (i : RegIdx) :
    (if taken then s.loadPc a else s).readReg f i = s.readReg f i := by
  cases taken <;> rfl

theorem State.pc_ite_loadPc (s : State) (taken : Bool) (a : Word) :
    (if taken then s.loadPc a else s).pc = if taken then alignPc a else s.pc := by
  cases taken <;> rfl

/-- What a DSJ form keeps, and where it goes (R181). -/
theorem State.decrementJump_spec (s : State) (form : DsjForm) (f : RFile) (dst : RegIdx) (target : Word) :
    s.KeepsRegistersBut (s.decrementJump form f dst target) f dst ∧ s.KeepsStatus (s.decrementJump form f dst target) ∧
      s.KeepsStorage (s.decrementJump form f dst target) ∧
      (s.decrementJump form f dst target).pc =
        if Config.dsjTaken form s.st (s.readReg f dst) then alignPc target else s.pc := by
  refine ⟨fun g j other => ?_, ((s.keepsStatus_writeReg _ _ _).trans (State.keepsStatus_ite_loadPc _ _ _)).withFreeFlags,
    (s.keepsStorage_writeReg _ _ _).trans (State.keepsStorage_ite_loadPc_withFreeFlags _ _ _), ?_⟩
  · refine (State.readReg_ite_loadPc _ _ _ g j).trans ?_
    rw [State.readReg_writeReg, if_neg other]
  · refine (State.pc_ite_loadPc _ _ _).trans ?_
    rw [State.pc_writeReg]

/-- Settles O55: each form is one decrementing jump; a target by whole words from an aligned PC is aligned. -/
theorem decrementJumpsBranchOrGoOn : Obligations.DecrementJumpsBranchOrGoOn := by
  intro f dst s aligned
  refine ⟨fun d i form listed => ?_, fun back off => ?_⟩
  · have ran : exec i s = .next (s.decrementJump form f dst (s.pc + offset16 d)) := by
      simp only [List.mem_cons, Prod.mk.injEq, List.not_mem_nil, or_false] at listed
      rcases listed with ⟨rfl, rfl⟩ | ⟨rfl, rfl⟩ | ⟨rfl, rfl⟩
      exacts [exec_dsj f dst s d, exec_dsjeq f dst s d, exec_dsjne f dst s d]
    obtain ⟨registers, status, storage, pc⟩ := s.decrementJump_spec form f dst (s.pc + offset16 d)
    refine ⟨_, ran, registers, status, storage, pc.trans ?_⟩
    rw [offset16_eq_ofInt, alignPc_of_wordAligned (wordAligned_add aligned (wordAligned_ofInt_mul d.toInt))]
  · obtain ⟨registers, status, storage, pc⟩ := s.decrementJump_spec .dsjs f dst (Config.dsjsTarget s.pc back off)
    refine ⟨_, exec_dsjs f dst s back off, registers, status, storage, ?_, pc⟩
    rw [pc]
    split_ifs
    · exact wordAligned_alignPc _
    · exact aligned

/-! ### Returns -/

/-- SP raised by the two words of PC and `n` words more (R184, log 15). -/
theorem sp_dropWords (sp : Word) (n : BitVec 5) :
    sp + 32#32 + 16#32 * n.setWidth 32 = sp + BitVec.ofNat 32 (32 + 16 * n.toNat) := by
  rw [add_assoc, BitVec.ofNat_add, BitVec.ofNat_mul, BitVec.ofNat_toNat]

/-- A pop changes SP alone. -/
theorem State.keepsStorage_pop32_of_quiet {s : State} (quiet : s.inside = []) : s.KeepsStorage s.pop32.2 := by
  rw [State.pop32_of_quiet quiet]
  exact ⟨⟨rfl, rfl, rfl, rfl, rfl⟩, ⟨rfl, rfl, rfl, rfl, rfl⟩, rfl⟩

theorem State.keepsStorage_dropWords (s : State) (n : BitVec 5) : s.KeepsStorage (s.dropWords n) :=
  ⟨⟨rfl, rfl, rfl, rfl, rfl⟩, ⟨rfl, rfl, rfl, rfl, rfl⟩, rfl⟩

@[simp] theorem State.a_dropWords (s : State) (n : BitVec 5) : (s.dropWords n).a = s.a := rfl

@[simp] theorem State.b_dropWords (s : State) (n : BitVec 5) : (s.dropWords n).b = s.b := rfl

@[simp] theorem State.suspended_dropWords (s : State) (n : BitVec 5) : (s.dropWords n).suspended = s.suspended := rfl

/-- Settles O58: PC is popped, SP raised past the words dropped. -/
theorem returnPopsPc : Obligations.ReturnPopsPc := by
  intro n s
  have status := (s.keepsStatus_pop32.trans (State.keepsStatus_dropWords _ n)).trans (State.keepsStatus_loadPc _ s.pop32.1)
  refine ⟨_, exec_rets s n, ?_, by simp, by simp, status.withFreeFlags, by rw [State.pc_withFreeFlags]; exact wordAligned_alignPc _, by simp,
    (framed_of_exec (exec_rets s n)).toKeepsOutside, fun quiet => ⟨?_, ?_⟩⟩
  · rw [← sp_dropWords, ← State.sp_pop32]
    rfl
  · rw [State.pop32_of_quiet quiet]
    exact alignPc_eq_and _
  · exact ((State.keepsStorage_pop32_of_quiet quiet).trans (State.keepsStorage_dropWords _ n)).trans
      (State.keepsStorage_loadPc_withFreeFlags _ _)

/-- What a return from an exception leaves whatever the order of the frame: SP raised by 64, the registers and the contexts
kept, PC aligned, and PBX telling whether to resume (R234, R235). -/
theorem State.returnFromException_spec (s : State) :
    s.returnFromException.sp = s.sp + 64#32 ∧ s.returnFromException.a = s.a ∧ s.returnFromException.b = s.b ∧
      s.returnFromException.resuming = stPBX s.returnFromException.st ∧ wordAligned s.returnFromException.pc ∧
      s.returnFromException.suspended = s.suspended := by
  have sp : s.sp + 32#32 + 32#32 = s.sp + 64#32 := by rw [add_assoc]; rfl
  rw [State.returnFromException_eq]
  cases s.params.intFrame <;>
    exact ⟨by simp [sp], by simp, by simp, by simp, by rw [State.pc_restore]; exact wordAligned_alignPc _, by simp⟩

/-- The frame popped in a quiet state: ST and PC from the places their order gives. -/
theorem State.returnFromException_of_quiet {s : State} (quiet : s.inside = []) :
    (s.params.intFrame = .pcFirst → s.returnFromException =
      ({ s with sp := s.sp + 64#32 } : State).restore (s.mem.readBits (s.sp + 32#32) 32) (s.mem.readBits s.sp 32)) ∧
    (s.params.intFrame = .stFirst → s.returnFromException =
      ({ s with sp := s.sp + 64#32 } : State).restore (s.mem.readBits s.sp 32) (s.mem.readBits (s.sp + 32#32) 32)) := by
  have sp : s.sp + 32#32 + 32#32 = s.sp + 64#32 := by rw [add_assoc]; rfl
  have twice : s.pop32.2.pop32 = (s.mem.readBits (s.sp + 32#32) 32, { s with sp := s.sp + 64#32 }) := by
    rw [State.pop32_of_quiet quiet, ← sp]
    exact State.pop32_of_quiet (s := { s with sp := s.sp + 32#32 }) quiet
  have popped := s.returnFromException_eq
  rw [twice, State.pop32_of_quiet quiet] at popped
  constructor <;> intro order <;> rw [order] at popped <;> exact popped

/-- Settles O59: two pops, and PC and ST restored. -/
theorem returnFromInterruptPopsPcAndSt : Obligations.ReturnFromInterruptPopsPcAndSt := by
  intro s
  obtain ⟨sp, a, b, resuming, pc, suspended⟩ := s.returnFromException_spec
  refine ⟨_, exec_reti s, sp, a, b, resuming, pc, suspended, s.framed_returnFromException.toKeepsOutside, fun quiet => ?_⟩
  obtain ⟨pcFirst, stFirst⟩ := State.returnFromException_of_quiet quiet
  cases order : s.params.intFrame with
  | pcFirst =>
    rw [pcFirst order]
    refine ⟨⟨⟨rfl, rfl, rfl, rfl, rfl⟩, ⟨rfl, rfl, rfl, rfl, rfl⟩, rfl⟩, fun _ => ⟨rfl, alignPc_eq_and _⟩, fun h => ?_⟩
    cases h
  | stFirst =>
    rw [stFirst order]
    refine ⟨⟨⟨rfl, rfl, rfl, rfl, rfl⟩, ⟨rfl, rfl, rfl, rfl, rfl⟩, rfl⟩, fun h => ?_, fun _ => ⟨rfl, alignPc_eq_and _⟩⟩
    cases h

/-- Settles O60: the return address lies where SP points, and is popped as it was pushed. -/
theorem returnUndoesCall : Obligations.ReturnUndoesCall := by
  intro s i call quiet aligned notHlt
  obtain ⟨t, called, pushed, keepsA, keepsB⟩ : ∃ t, exec i s = .next t ∧ s.Pushes t s.pc ∧ t.a = s.a ∧ t.b = s.b := by
    obtain ⟨absolute, register⟩ := callsPushTheReturnAddress s
    rcases call with ⟨addr, rfl⟩ | ⟨f, src, rfl⟩
    · obtain ⟨t, called, pushed, -, keepsA, keepsB, -⟩ := absolute addr
      exact ⟨t, called, pushed, keepsA, keepsB⟩
    · obtain ⟨t, called, pushed, -, keepsA, keepsB, -⟩ := register f src
      exact ⟨t, called, pushed, keepsA, keepsB⟩
  obtain ⟨u, returned, raised, keepsA', keepsB', -, -, -, -, popped⟩ := returnPopsPc 0 t
  obtain ⟨pc, storage⟩ := popped ((framed_of_exec called).quiet quiet)
  have stored := pushed.stored quiet
  have address : t.mem.readBits t.sp 32 = s.pc := by
    rw [pushed.sp, stored.readBits_self (by omega) notHlt, BitVec.setWidth_eq]
  refine ⟨t, u, called, returned, ?_, ⟨keepsA'.trans keepsA, keepsB'.trans keepsB, ?_⟩, fun x outside => ?_⟩
  · rw [pc, address, ← alignPc_eq_and, alignPc_of_wordAligned aligned]
  · rw [raised, pushed.sp]
    exact sub_add_cancel s.sp 32#32
  · rw [storage.mem, stored.others x outside]

end Sys2Proof.Machine

/-! SUPPORT. Interrupts (R231 to R236): which request is taken, what its entry saves, that RETI undoes it, and an interrupt
inside a PIXBLT or FILL with the resumption of the rest. -/

namespace Sys2Proof.Machine

/-! ### Which request is taken -/

theorem mem_of_mostUrgent {l : List Irq} {irq : Irq} (h : mostUrgent l = some irq) : irq ∈ l := by
  induction l generalizing irq with
  | nil => cases h
  | cons first others ih =>
    rw [mostUrgent] at h
    split at h
    case h_1 other found =>
      split_ifs at h
      · cases h
        exact List.mem_cons_of_mem _ (ih found)
      · cases h
        exact List.mem_cons_self
    case h_2 =>
      cases h
      exact List.mem_cons_self

/-- The request taken is the first of the highest priority (R236). -/
theorem mostUrgent_eq_some {before later : List Irq} {irq : Irq} (lower : ∀ other ∈ before, other.priority < irq.priority)
    (noHigher : ∀ other ∈ later, other.priority ≤ irq.priority) : mostUrgent (before ++ irq :: later) = some irq := by
  induction before with
  | nil =>
    rw [List.nil_append, mostUrgent]
    split
    case h_1 other found => rw [if_neg (Nat.not_lt.2 (noHigher other (mem_of_mostUrgent found)))]
    case h_2 => rfl
  | cons first before ih =>
    rw [List.cons_append, mostUrgent, ih (fun other h => lower other (List.mem_cons_of_mem _ h))]
    exact if_pos (lower first List.mem_cons_self)

/-- A request is admitted where IE is 1 or does not mask it (R232). -/
theorem State.admits_iff {s : State} {irq : Irq} : s.admits irq = true ↔ stIE s.st = true ∨ irq.maskable = false := by
  unfold State.admits
  rw [Bool.or_eq_true, Bool.not_eq_true', or_comm]

theorem State.takeable_eq_none {s : State} (h : ∀ irq ∈ s.pending, s.admits irq = false) : s.takeable = none := by
  have none : s.pending.filter s.admits = [] := List.filter_eq_nil_iff.2 fun irq mem => by simp [h irq mem]
  rw [State.takeable, none]
  rfl

theorem State.takeable_eq_some {s : State} {before later : List Irq} {irq : Irq} (pending : s.pending = before ++ irq :: later)
    (admitted : s.admits irq = true) (lower : ∀ other ∈ before, s.admits other = true → other.priority < irq.priority)
    (noHigher : ∀ other ∈ later, s.admits other = true → other.priority ≤ irq.priority) :
    s.takeable = some (irq, before ++ later) := by
  have first : irq ∉ before := fun mem => absurd (lower irq mem admitted) (lt_irrefl _)
  have urgent : mostUrgent (s.pending.filter s.admits) = some irq := by
    rw [pending, List.filter_append, List.filter_cons_of_pos admitted]
    refine mostUrgent_eq_some (fun other mem => ?_) (fun other mem => ?_)
    · obtain ⟨mem, admitted⟩ := List.mem_filter.1 mem
      exact lower other mem admitted
    · obtain ⟨mem, admitted⟩ := List.mem_filter.1 mem
      exact noHigher other mem admitted
  rw [State.takeable, urgent, Option.map_some, pending, List.erase_append_right _ first, List.erase_cons_head]

/-- Settles O14: nothing to take, or the most urgent of those that may be taken. -/
theorem interruptsAreMaskedByIE : Obligations.InterruptsAreMaskedByIE := by
  refine ⟨fun s noInput running masked maskable => ?_,
    fun s irq before later noInput running pending admitted lower noHigher => ?_⟩
  · have none : s.takeable = none := State.takeable_eq_none fun irq mem => by
      simp [State.admits, masked, maskable irq mem]
    rw [step_of_no_input noInput, State.cpuStep_of_running (by exact running) (by exact none)]
  · have taken : s.takeable = some (irq, before ++ later) :=
      State.takeable_eq_some pending (State.admits_iff.2 admitted) (fun other mem h => lower other mem (State.admits_iff.1 h))
        (fun other mem h => noHigher other mem (State.admits_iff.1 h))
    rw [step_of_no_input noInput, State.cpuStep_of_taken (by exact running) (by exact taken)]

/-! ### Interrupts between instructions -/

/-- The entry of an interrupt between instructions, said once (R231, R234). -/
theorem State.takeInterrupt_spec (s : State) (irq : Irq) :
    s.TakesException (s.takeInterrupt irq) s.pc (setPBX s.st s.midTransfer) irq.vector := by
  obtain ⟨sp, frame, cache, pc, st⟩ := s.enterException_spec s.pc (setPBX s.st s.midTransfer) irq.vector
  refine ⟨sp, fun quiet => ?_, cache, pc, st⟩
  obtain ⟨savedPc, savedSt, halt, others⟩ := frame quiet
  exact ⟨savedPc, savedSt, halt, others⟩

/-- What the entry leaves besides the stack, PC and ST. -/
theorem State.takeInterrupt_kept (s : State) (irq : Irq) :
    (s.takeInterrupt irq).a = s.a ∧ (s.takeInterrupt irq).b = s.b ∧ (s.takeInterrupt irq).resuming = false ∧
      (s.takeInterrupt irq).suspended = s.suspended ∧ (s.takeInterrupt irq).io = s.io ∧
      (s.takeInterrupt irq).pending = s.pending ∧ (s.takeInterrupt irq).params = s.params ∧
      (s.takeInterrupt irq).freeCount = s.freeCount + 1 ∧ (s.takeInterrupt irq).inputs = s.inputs := by
  obtain ⟨a, b, -, suspended⟩ := s.enterException_kept s.pc (setPBX s.st s.midTransfer) irq.vector
  obtain ⟨io, pending, params, freeCount, inputs⟩ :=
    (s.framed_enterException s.pc (setPBX s.st s.midTransfer) irq.vector).toKeepsOutside
  exact ⟨a, b, rfl, suspended, io, pending, params, congrArg (· + 1) freeCount, inputs⟩

/-- Settles O15: the entry, from the state that the step begins with. -/
theorem interruptEntrySavesPcAndSt : Obligations.InterruptEntrySavesPcAndSt := by
  intro s irq rest noInput running taken
  have moved : step s = .next ({ s.received with pending := rest }.takeInterrupt irq) := by
    rw [step_of_no_input noInput, State.cpuStep_of_taken (by exact running) (by exact taken)]
  have mid : ({ s.received with pending := rest } : State).midTransfer = s.midTransfer :=
    s.midTransfer_outside none rest s.inputs s.inside
  obtain ⟨a, b, resuming, suspended, io, pending, params, freeCount, inputs⟩ :=
    State.takeInterrupt_kept { s.received with pending := rest } irq
  obtain ⟨sp, frame, cache, pc, st⟩ := State.takeInterrupt_spec { s.received with pending := rest } irq
  rw [mid] at frame st
  refine ⟨_, moved, ⟨sp, fun quiet => ?_, cache, pc, st⟩, resuming, a, b, io, pending, suspended, params, freeCount, inputs⟩
  obtain ⟨savedPc, savedSt, halt, others⟩ := frame quiet
  exact ⟨savedPc, savedSt, halt, others⟩

/-! ### The return from an interrupt -/

/-- A slot that holds a value bit by bit, HLT apart, reads as the value where HLT does not lie under it. -/
theorem readBits_of_slot {m : Memory} {a hlt v : Word}
    (slot : ∀ x, covers a 32 x = true → x ≠ hlt → m.readBit x = v.getLsbD (x - a).toNat)
    (notHlt : covers a 32 hlt = false) : m.readBits a 32 = v := by
  apply BitVec.eq_of_getLsbD_eq
  intro i hi
  have self := toNat_add_ofNat_sub_self a (i := i) (by omega)
  have covered : covers a 32 (a + BitVec.ofNat 32 i) = true := (covers_iff _ _ _).2 (by rw [self]; exact hi)
  have apart : a + BitVec.ofNat 32 i ≠ hlt := fun same => by
    rw [same, notHlt] at covered
    cases covered
  rw [Memory.getLsbD_readBits, slot _ covered apart, self, decide_eq_true hi, Bool.true_and]

/-- What lies outside the frame lies outside its two slots. -/
theorem not_covers_slots {sp x : Word} (outside : covers (sp - 64#32) 64 x = false) :
    covers (sp - 32#32) 32 x = false ∧ covers (sp - 64#32) 32 x = false := by
  rw [← Bool.not_eq_true, covers_iff] at outside
  obtain ⟨upper, lower⟩ := frame_slots sp x
  constructor
  · rw [← Bool.not_eq_true, covers_iff]
    exact fun h => outside (upper h).2
  · rw [← Bool.not_eq_true, covers_iff]
    exact fun h => outside (lower h)

/-- The frame read back, both slots, where HLT does not lie under it. -/
theorem State.HoldsFrame.readBits {s t : State} {pc st : Word} (h : s.HoldsFrame t pc st)
    (notHlt : covers (s.sp - 64#32) 64 s.hltAddr = false) :
    t.mem.readBits s.framePc 32 = pc ∧ t.mem.readBits s.frameSt 32 = st := by
  obtain ⟨upper, lower⟩ := not_covers_slots notHlt
  refine ⟨readBits_of_slot h.savedPc ?_, readBits_of_slot h.savedSt ?_⟩
  · unfold State.framePc
    cases s.params.intFrame with
    | pcFirst => exact upper
    | stFirst => exact lower
  · unfold State.frameSt
    cases s.params.intFrame with
    | pcFirst => exact lower
    | stFirst => exact upper

theorem sub_add_frame (sp : Word) : sp - 64#32 + 32#32 = sp - 32#32 ∧ sp - 64#32 + 64#32 = sp := by
  constructor
  · rw [sub_add]
    rfl
  · exact sub_add_cancel sp 64#32

/-- Settles O16: the two pops read the two slots in the reverse order of the pushes. -/
theorem returnUndoesInterruptEntry : Obligations.ReturnUndoesInterruptEntry := by
  intro s irq quiet aligned notHlt
  obtain ⟨entrySp, frame, -⟩ := s.takeInterrupt_spec irq
  obtain ⟨a, b, -, suspended, -, pending, params, -⟩ := s.takeInterrupt_kept irq
  have held := frame quiet
  obtain ⟨savedPc, savedSt⟩ := held.readBits notHlt
  obtain ⟨lower, upper⟩ := sub_add_frame s.sp
  obtain ⟨u, returned, sp', a', b', resuming, -, suspended', -, popped⟩ :=
    returnFromInterruptPopsPcAndSt (s.takeInterrupt irq)
  obtain ⟨storage, pcFirst, stFirst⟩ := popped ((s.steady_takeInterrupt irq).quiet quiet)
  rw [params, entrySp, lower] at pcFirst stFirst
  have restored : u.st = setPBX s.st s.midTransfer ∧ u.pc = alignPc s.pc := by
    unfold State.framePc at savedPc
    unfold State.frameSt at savedSt
    cases order : s.params.intFrame with
    | pcFirst =>
      obtain ⟨st, pc⟩ := pcFirst order
      simp only [order] at savedPc savedSt
      exact ⟨st.trans savedSt, by rw [pc, savedPc, alignPc_eq_and]⟩
    | stFirst =>
      obtain ⟨st, pc⟩ := stFirst order
      simp only [order] at savedPc savedSt
      exact ⟨st.trans savedSt, by rw [pc, savedPc, alignPc_eq_and]⟩
  obtain ⟨st, pc⟩ := restored
  refine ⟨u, returned, pc.trans (alignPc_of_wordAligned aligned), st, ?_, ⟨a'.trans a, b'.trans b, ?_⟩, fun x outside => ?_,
    suspended'.trans suspended, storage.pending.trans pending⟩
  · rw [resuming, st, stPBX_setPBX]
  · rw [sp', entrySp, upper]
  · rw [storage.mem, held.others x outside]

/-! ### Inside a PIXBLT or FILL -/

/-- A PIXBLT or FILL is one word long, and its plan is a fresh one or the one that waits to be resumed. -/
theorem blitPlanOf_cases {i : Instr} {s : State} (h : (blitPlanOf i s).isSome = true) :
    i.words = 1 ∧ ∃ fresh, blitPlanOf i s = some (s.currentPlan fresh) := by
  cases i with
  | pixbltLL | pixbltLXY | pixbltXYL | pixbltXYXY | pixbltBL | pixbltBXY | fillL | fillXY => exact ⟨rfl, _, rfl⟩
  | _ => cases h

/-- The instruction fetched is as long as its first word says. -/
theorem State.lengthOf_fetchedWord {s t : State} {i : Instr} (h : s.fetchInstr = .ok (i, t)) :
    lengthOf (s.fetchedWord s.pc) = i.words := by
  obtain ⟨rest, decoded, -⟩ := State.fetchInstr_cases h
  obtain ⟨wf, words⟩ := encodeOfDecodeIsIdentity _ _ _ decoded
  obtain ⟨w, tail, encoded⟩ := exists_encode_eq_cons i
  obtain ⟨n, length⟩ : ∃ n, lengthOf (s.fetchedWord s.pc) = n + 1 := by
    unfold lengthOf
    cases findRow (s.fetchedWord s.pc) with
    | some r => exact ⟨r.extra, rfl⟩
    | none => exact ⟨0, rfl⟩
  have fetched : (s.fetchWords (n + 1)).1 = s.fetchedWord s.pc :: (s.advance.fetchWords n).1 := rfl
  rw [length, fetched, encoded, List.cons_append] at words
  obtain ⟨rfl, -⟩ := List.cons.inj words
  exact lengthOf_of_encode wf encoded

/-- A PIXBLT or FILL fetched in a quiet state: PC past its one word, the rest as before but for the cache. -/
theorem State.fetchInstr_blit {s t : State} {i : Instr} (quiet : s.inside = []) (fetched : s.fetchInstr = .ok (i, t))
    (blit : (blitPlanOf i t).isSome = true) :
    ({ s with pc := s.pc + 16#32, freeCount := s.freeCount + 1 } : State).OnlyMemory t ∧ t.mem = s.mem ∧ t.inside = [] := by
  obtain ⟨length, -⟩ := blitPlanOf_cases blit
  have reached := State.onlyMemory_fetchInstr fetched
  rw [State.lengthOf_fetchedWord fetched, length] at reached
  obtain ⟨-, -, after⟩ := State.fetchInstr_cases fetched
  obtain ⟨c, r, words⟩ := State.fetchWords_of_quiet quiet (lengthOf (s.fetchedWord s.pc))
  refine ⟨reached, ?_, (State.steady_fetchInstr fetched).quiet quiet⟩
  rw [after, State.mem_tick, words]

/-- The context's B file: the operands from OFFSET to COLOR1 as before (log 19). -/
theorem State.kept_contextB (s : State) (p : BlitPlan) (next : Option PixelOp) {k : Nat} (h : k < 10) (h4 : 4 ≤ k) :
    (s.contextB p next)[k] = s.b[k] := by
  unfold State.contextB
  rw [State.getElem_clobberTemps _ _ h]
  split_ifs
  · repeat rw [Vector.getElem_set_ne (by omega) (by omega) (by omega)]
  · repeat rw [Vector.getElem_set_ne (by omega) (by omega) (by omega)]

/-- DADDR points to the next word of pixels (R126). -/
theorem State.daddr_contextB (s : State) (p : BlitPlan) (next : PixelOp) :
    (s.contextB p (some next))[2] = wordAddr (PixelOp.start next) := by
  unfold State.contextB
  rw [State.getElem_clobberTemps _ _ (by norm_num)]
  simp

/-- So does SADDR of a PIXBLT, to the next word of source pixels (R126). -/
theorem State.saddr_contextB (s : State) {p : BlitPlan} (source : p.hasSource = true) {next : PixelOp} {a : Word}
    (address : PixelSource.address next.src = some a) : (s.contextB p (some next))[0] = wordAddr a := by
  unfold State.contextB
  rw [State.getElem_clobberTemps _ _ (by norm_num)]
  simp [source, address]

/-- What an interrupted PIXBLT or FILL leaves: the entry from the pixels drawn so far, and the context in the B file. -/
theorem State.interruptPlan_spec (s : State) (p : BlitPlan) (done : Nat) (irq : Irq) :
    (s.drawPixels (p.ops.take done)).TakesException (s.interruptPlan p done irq) (s.pc - 16#32) (setPBX s.st true)
      irq.vector := by
  obtain ⟨sp, frame, cache, pc, st⟩ := (s.heldContext p done).enterException_spec (s.pc - 16#32) (setPBX s.st true) irq.vector
  rw [State.interruptPlan_eq]
  refine ⟨sp, fun quiet => ?_, cache, pc, st⟩
  obtain ⟨savedPc, savedSt, halt, others⟩ := frame quiet
  exact ⟨savedPc, savedSt, halt, others⟩

theorem State.interruptPlan_kept (s : State) (p : BlitPlan) (done : Nat) (irq : Irq) :
    (s.interruptPlan p done irq).a = s.a ∧ (s.interruptPlan p done irq).b = s.contextB p p.ops[done]? ∧
      (s.interruptPlan p done irq).resuming = false ∧
      (s.interruptPlan p done irq).suspended =
        { bfile := s.contextB p p.ops[done]?, rest := { p with ops := p.ops.drop done } } :: s.otherContexts ∧
      (s.interruptPlan p done irq).pending = s.pending ∧ (s.interruptPlan p done irq).inputs = s.inputs := by
  obtain ⟨a, b, resuming, suspended⟩ := (s.heldContext p done).enterException_kept (s.pc - 16#32) (setPBX s.st true) irq.vector
  obtain ⟨-, pending, -, -, inputs⟩ :=
    ((s.heldContext p done).framed_enterException (s.pc - 16#32) (setPBX s.st true) irq.vector).toKeepsOutside
  have drawn := s.onlyMemory_drawPixels (p.ops.take done)
  rw [State.interruptPlan_eq]
  exact ⟨a.trans drawn.a, b, resuming, suspended, pending.trans drawn.pending, inputs.trans drawn.inputs⟩

/-- A request at a boundary between words inside a PIXBLT or FILL is taken there, if nothing is due from the host. -/
theorem State.stepInterrupted_of_boundary {s t : State} {irq : Irq} {done : Nat} {i : Instr} {p : BlitPlan}
    (quiet : s.inside = []) (running : s.hlt = false) (noInterrupt : s.takeable = none) (admitted : s.admits irq = true)
    (fetched : s.fetchInstr = .ok (i, t)) (plan : blitPlanOf i t = some p) (inside : 0 < done)
    (boundary : wordBoundary p.ops done = true) : s.stepInterrupted irq done = .next (t.interruptPlan p done irq) := by
  obtain ⟨reached, mem, tQuiet⟩ := State.fetchInstr_blit quiet fetched (by rw [plan]; rfl)
  have halt : (t.drawPixels (p.ops.take done)).hlt = false := by
    rw [State.hlt_drawPixels_of_quiet tQuiet, State.hlt_congr mem reached.params, running]
  unfold State.stepInterrupted
  simp only [running, admitted, noInterrupt, fetched, plan, inside, boundary, halt]
  rfl

/-- Elsewhere it waits while the instruction runs. -/
theorem State.stepInterrupted_of_no_boundary {s t : State} {irq : Irq} {done : Nat} {i : Instr} {p : BlitPlan}
    (running : s.hlt = false) (noInterrupt : s.takeable = none) (admitted : s.admits irq = true)
    (fetched : s.fetchInstr = .ok (i, t)) (plan : blitPlanOf i t = some p) (noBoundary : wordBoundary p.ops done = false) :
    s.stepInterrupted irq done = exec i ((t.forInstr i).request irq) := by
  unfold State.stepInterrupted
  simp [running, admitted, noInterrupt, fetched, plan, noBoundary]

/-- Settles O17: at a boundary the transfer is interrupted with its context; elsewhere the request waits. -/
theorem interruptInsideTransferSetsPBX : Obligations.InterruptInsideTransferSetsPBX := by
  intro s irq done rest i t p input running noInterrupt admitted fetched plan
  refine ⟨fun inside boundary => ?_, fun noBoundary => ?_⟩
  · have moved := State.stepInterrupted_of_boundary (irq := irq) rfl (by exact running) (by exact noInterrupt)
      (by exact admitted) fetched plan inside boundary
    obtain ⟨reached, mem, quiet⟩ := State.fetchInstr_blit rfl fetched (by rw [plan]; rfl)
    have settledQuiet : (t.interruptPlan p done irq).inside = [] := (t.steady_interruptPlan p done irq).quiet quiet
    obtain ⟨a, b, resuming, suspended, pending, inputs⟩ := t.interruptPlan_kept p done irq
    have entry := t.interruptPlan_spec p done irq
    have pc : t.pc - 16#32 = s.pc := by rw [reached.pc]; exact add_sub_cancel_right s.pc 16#32
    have st : t.st = s.st := reached.st
    rw [pc, st] at entry
    refine ⟨_, by rw [step_of_interruptBlit input, moved, Outcome.settled, State.hostRest_of_quiet settledQuiet], entry,
      by rw [b]; exact suspended, resuming, a.trans reached.a, fun k hk => ?_, fun next found => ⟨?_, fun source address addr => ?_⟩,
      pending.trans reached.pending, inputs.trans reached.inputs⟩
    · have index : k.val < 15 := by omega
      have kept := t.kept_contextB p p.ops[done]? k.isLt hk
      change (t.interruptPlan p done irq).b[k.val] = s.b[k.val]
      rw [b, kept]
      exact congrArg (fun v : Vector Word 15 => v[k.val]) reached.b
    · rw [b, found]
      exact t.daddr_contextB p next
    · rw [b, found]
      exact t.saddr_contextB source addr
  · rw [step_of_interruptBlit input, State.stepInterrupted_of_no_boundary (by exact running) (by exact noInterrupt)
      (by exact admitted) fetched plan noBoundary]

/-- Run on the B file that an interrupt left, a PIXBLT or FILL takes up the latest context. -/
theorem State.resumes_context {r : State} {c : Suspended} {others : List Suspended} (resuming : r.resuming = true)
    (suspended : r.suspended = c :: others) (b : r.b = c.bfile) (fresh : BlitPlan) :
    r.currentPlan fresh = c.rest ∧ r.otherContexts = others := by
  unfold State.currentPlan State.otherContexts State.context
  simp [resuming, suspended, b]

/-- Settles O18: the context found is the one that the interrupt left, and its rest is carried out. -/
theorem resumedTransferFinishesTheRest : Obligations.ResumedTransferFinishesTheRest := by
  intro s r p done irq i registers contexts resuming blit
  obtain ⟨-, b, -, suspended, -⟩ := s.interruptPlan_kept p done irq
  obtain ⟨-, fresh, plan⟩ := blitPlanOf_cases blit
  obtain ⟨current, others⟩ := State.resumes_context resuming (contexts.trans suspended) (registers.trans b) fresh
  rw [current] at plan
  obtain ⟨pbx, -⟩ := r.status_finishBlit { p with ops := p.ops.drop done }
  exact ⟨_, exec_of_blitPlanOf plan, rfl, r.saddr_finalB _, r.sptch_finalB _, r.daddr_finalB _, r.dptch_finalB _,
    r.dydx_finalB _, pbx, rfl, others, r.pc_finishBlit _⟩

end Sys2Proof.Machine

/-! SUPPORT. Fetches that hit, fetches that bypass the cache, stores that a cached word does not see, and the segment tags
along fetches (R195 b, R199, R205 to R212). -/

namespace Sys2Proof.Machine

/-! ### Hits (R199) -/

theorem Cache.lookup_eq_hit {c : Cache} {a : Word} {g : Fin 4} (unique : ∀ h, (c.seg h).ssa = tagOf a → h = g)
    (tag : (c.seg g).ssa = tagOf a) (present : (c.seg g).isPresent (subOf a) = true) (choice : Nat) :
    c.lookup choice a = .hit g := by
  rcases c.lookup_cases choice a with ⟨h, hit, matched, -⟩ | ⟨h, -, matched, absent⟩ | ⟨-, unmatched⟩
  · rw [hit, unique h matched]
  · rw [unique h matched, present] at absent
    cases absent
  · exact absurd tag (unmatched g)

/-- Settles O24: the lookup of the fetch, at its turn, is a hit in the one segment with the tag. -/
theorem cacheHitReturnsTheCopy : Obligations.CacheHitReturnsTheCopy := by
  intro s a g t enabled tag unique present
  refine ⟨?_, fun quiet => State.cycle_of_quiet quiet⟩
  have hit := Cache.lookup_eq_hit unique tag present (t.fetchChoice a)
  change t.fetchNow a = _
  rw [State.fetchNow, enabled, hit]
  rfl

/-! ### Stores over cached words (R67, R212) -/

theorem State.fetchedWord_of_hit {s : State} {a : Word} {g : Fin 4} (quiet : s.inside = []) (enabled : s.bypass = false)
    (tag : (s.cache.seg g).ssa = tagOf a) (unique : ∀ h, (s.cache.seg h).ssa = tagOf a → h = g)
    (present : (s.cache.seg g).isPresent (subOf a) = true) :
    s.fetchedWord a = ((s.cache.seg g).line (subOf a)).get (wordOf a) := by
  have hit := (cacheHitReturnsTheCopy s a g)
  rw [State.cycle_of_quiet quiet] at hit
  rw [State.fetchedWord, (hit enabled tag unique present).1]

/-- A hit looks at the cache alone, once CF and CD have let it. -/
theorem State.fetchedWord_congr_of_hit {s t : State} {a : Word} {g : Fin 4} (quiet : s.inside = []) (enabled : s.bypass = false)
    (tag : (s.cache.seg g).ssa = tagOf a) (unique : ∀ h, (s.cache.seg h).ssa = tagOf a → h = g)
    (present : (s.cache.seg g).isPresent (subOf a) = true) (quiet' : t.inside = []) (enabled' : t.bypass = s.bypass)
    (cache : t.cache = s.cache) : t.fetchedWord a = s.fetchedWord a := by
  rw [State.fetchedWord_of_hit quiet enabled tag unique present, ← cache]
  rw [← cache] at tag unique present
  exact State.fetchedWord_of_hit quiet' (enabled'.trans enabled) tag unique present

/-- CF and CD as before, the cache is as before bypassed or not. -/
theorem State.bypass_of_bits {s t : State} (params : t.params = s.params)
    (cf : t.mem.readBit s.cfAddr = s.mem.readBit s.cfAddr) (cd : t.mem.readBit s.cdAddr = s.mem.readBit s.cdAddr) :
    t.bypass = s.bypass := by
  unfold State.bypass State.cf State.cd
  rw [State.cfAddr_congr params, State.cdAddr_congr params, cf, cd]

/-- A store that does not cover CF does not flush. -/
theorem State.cache_store_of_not_covers {s : State} (quiet : s.inside = []) {b v : Word} {n : Nat}
    (cf : covers b n s.cfAddr = false) : (s.store b n v).cache = s.cache := by
  have small : n ≤ 2 ^ 32 := by
    rw [← Bool.not_eq_true, covers_iff] at cf
    have := (s.cfAddr - b).isLt
    omega
  rw [(State.stores_store quiet b v small).cache, cf, Bool.false_and, if_neg Bool.false_ne_true]

/-- Settles O29: neither store reaches the cache, CF or CD, and the fetch hits as before. -/
theorem storedWordIsNotSeenInCache : Obligations.StoredWordIsNotSeenInCache := by
  intro s a g quiet enabled tag unique present
  refine ⟨fun b v n cf cd => ?_, fun b v cf cd => ?_⟩
  · refine State.fetchedWord_congr_of_hit quiet enabled tag unique present (State.inside_store_of_quiet quiet b v n) ?_
      (State.cache_store_of_not_covers quiet cf)
    exact State.bypass_of_bits (State.params_store _ _ _ _) (State.readBit_store_of_not_covers quiet cf)
      (State.readBit_store_of_not_covers quiet cd)
  · refine State.fetchedWord_congr_of_hit quiet enabled tag unique present quiet ?_ ?_
    · refine State.bypass_of_bits rfl ?_ ?_
      · rw [State.readBit_hostStore, cf, if_neg Bool.false_ne_true]
      · rw [State.readBit_hostStore, cd, if_neg Bool.false_ne_true]
    · rw [State.cache_hostStore_eq, cf, Bool.false_and, if_neg Bool.false_ne_true]

/-- Settles O28: the host's word covers CF with a 1, and CF = 1 bypasses the flushed cache. -/
theorem writingCFFlushesTheCache : Obligations.WritingCFFlushesTheCache := by
  intro s addr value rest h covered one
  let t := ({ s with inputs := rest } : State).hostStore addr value
  have cf : t.cf = true := by
    refine (State.readBit_hostStore { s with inputs := rest } addr s.cfAddr value).trans ?_
    rw [covered, if_pos rfl, one]
  have cache : t.cache = s.cache.flush := by
    refine (State.cache_hostStore_eq { s with inputs := rest } addr value).trans (if_pos ?_)
    exact Bool.and_eq_true_iff.2 ⟨covered, cf⟩
  refine ⟨t, step_of_hostWrite h, cf, ?_, ?_, fun g => ?_, fun g j => ?_, fun quiet a => ?_⟩
  · rw [cache]
    exact s.cache.empty_flush
  · rw [cache, Cache.lru_flush]
  · rw [cache, Cache.seg_flush, Segment.ssa_clear]
  · rw [cache, Cache.seg_flush]
    rfl
  · exact State.fetchedWord_bypass_of_quiet (s := t) quiet (State.bypass_of_cf cf) a

/-! ### Bypassed fetches (R206, R208, R211) -/

theorem State.cache_fetchWords_of_bypass {s : State} (quiet : s.inside = []) (bypass : s.bypass = true) (n : Nat) :
    (s.fetchWords n).2.cache = s.cache := by
  induction n generalizing s with
  | zero => rfl
  | succ n ih =>
    have after := State.advance_of_quiet quiet
    have cache : s.advance.cache = s.cache := by rw [after]; exact State.fetchCache_bypass_of_quiet quiet bypass s.pc
    have bypass' : s.advance.bypass = true := by
      refine (State.bypass_congr ?_ ?_).trans bypass <;> rw [after]
    exact (ih (by rw [after]; exact quiet) bypass').trans cache

/-- A fetched instruction leaves the bypassed cache alone. -/
theorem State.cache_fetchInstr_of_bypass {s t : State} {i : Instr} (quiet : s.inside = []) (bypass : s.bypass = true)
    (fetched : s.fetchInstr = .ok (i, t)) : t.cache = s.cache := by
  obtain ⟨-, -, rfl⟩ := State.fetchInstr_cases fetched
  exact State.cache_fetchWords_of_bypass quiet bypass _

theorem State.cache_cpuStep_of_bypass {s t : State} (quiet : s.inside = []) (bypass : s.bypass = true)
    (moved : s.cpuStep = .next t) : s.KeepsCacheOrFlushes t := by
  rcases State.cpuStep_cases moved with ⟨-, rfl⟩ | ⟨irq, rest, -, rfl⟩ | ⟨i, u, fetched, ran⟩
  · exact .inl rfl
  · exact (State.takeInterrupt_spec { s with pending := rest } irq).cache
  · have cache : u.cache = s.cache := State.cache_fetchInstr_of_bypass quiet bypass fetched
    have kept : s.KeepsCacheOrFlushes (u.forInstr i) := .inl cache
    exact kept.trans (framed_of_exec ran).cache

/-- Settles O27: each fetch sees memory, leaves the cache and keeps the bypass. -/
theorem bypassedFetchesLeaveTheCacheAlone : Obligations.BypassedFetchesLeaveTheCacheAlone := by
  intro s quiet bypass
  refine ⟨fun n k hk => State.getElem?_fst_fetchWords quiet (fun _ _ => .inl bypass) hk,
    State.cache_fetchWords_of_bypass quiet bypass, fun t noInput moved => ?_⟩
  rw [step_of_no_input noInput] at moved
  exact State.cache_cpuStep_of_bypass (s := s.received) quiet bypass moved

/-! ### The tags of the segments (R195 b) -/

/-- The four tags are as before. -/
def Cache.SameTags (c d : Cache) : Prop := ∀ g, (d.seg g).ssa = (c.seg g).ssa

theorem Cache.SameTags.refl (c : Cache) : c.SameTags c := fun _ => rfl

theorem Cache.SameTags.trans {c d e : Cache} (h : c.SameTags d) (h' : d.SameTags e) : c.SameTags e :=
  fun g => (h' g).trans (h g)

theorem Cache.SameTags.distinct {c d : Cache} (h : c.SameTags d) (distinct : c.distinct) : d.distinct := by
  intro g k same
  rw [h g, h k] at same
  exact distinct g k same

theorem State.KeepsCacheOrFlushes.sameTags {s t : State} (h : s.KeepsCacheOrFlushes t) : s.cache.SameTags t.cache := by
  intro g
  rcases h with kept | flushed
  · rw [kept]
  · rw [flushed, Cache.seg_flush, Segment.ssa_clear]

theorem Cache.sameTags_claim (c : Cache) (g : Fin 4) (sub : Fin 8) : c.SameTags (c.claim g sub) := by
  intro h
  rw [Cache.seg_claim]
  split_ifs with same
  · rw [same]
  · rfl

theorem Cache.sameTags_install (c : Cache) (g : Fin 4) (sub : Fin 8) (line : Vector Word16 4) :
    c.SameTags (c.install g sub line) := by
  intro h
  rw [Cache.seg_install]
  split_ifs with same
  · rw [same, Segment.ssa_fill]
  · rfl

/-- A segment that gets a tag which no segment has. -/
theorem Cache.distinct_retag {c : Cache} {tag : BitVec 23} (distinct : c.distinct) (unmatched : ∀ g, (c.seg g).ssa ≠ tag)
    (g : Fin 4) : (c.retag g tag).distinct := by
  intro h k same
  rw [Cache.seg_retag, Cache.seg_retag] at same
  split_ifs at same with hg kg kg
  · exact hg.trans kg.symm
  · exact absurd same.symm (unmatched k)
  · exact absurd same (unmatched h)
  · exact distinct h k same

theorem State.cache_loadLine (s : State) (tag : BitVec 23) (sub : Fin 8) :
    s.KeepsCacheOrFlushes (s.loadLine tag sub).2 :=
  (((s.cache_load _ _).trans (State.cache_load _ _ _)).trans (State.cache_load _ _ _)).trans (State.cache_load _ _ _)

/-- The load of a subsegment keeps the tags, whatever the host writes meanwhile. -/
theorem State.sameTags_fillFrom (s : State) (g : Fin 4) (a : Word) : s.cache.SameTags (s.fillFrom g a).2.cache := by
  unfold State.fillFrom
  simp only
  refine (s.cache.sameTags_claim g (subOf a)).trans ?_
  have loaded := (State.cache_loadLine { s with
    cache := s.cache.claim g (subOf a)
    rewritten := s.rewritten.filter (fun c => c != (g, subOf a)) } (tagOf a) (subOf a)).sameTags
  split_ifs
  · exact loaded.trans (Cache.sameTags_install _ _ _ _)
  · exact loaded

theorem State.distinct_fetchNow {s : State} (distinct : s.cache.distinct) (a : Word) :
    (s.fetchNow a).2.cache.distinct := by
  unfold State.fetchNow
  split_ifs
  · exact (s.cache_load a 16).sameTags.distinct distinct
  · rcases s.cache.lookup_cases (s.fetchChoice a) a with ⟨g, lookup, -⟩ | ⟨g, lookup, -⟩ | ⟨lookup, unmatched⟩ <;>
      rw [lookup]
    · exact distinct
    · exact (s.sameTags_fillFrom g a).distinct distinct
    · exact (State.sameTags_fillFrom _ _ a).distinct (Cache.distinct_retag distinct unmatched _)

theorem State.distinct_fetchWords {s : State} (distinct : s.cache.distinct) (n : Nat) :
    (s.fetchWords n).2.cache.distinct := by
  induction n generalizing s with
  | zero => exact distinct
  | succ n ih => exact ih (State.distinct_fetchNow (s.cache_cycle.sameTags.distinct distinct) s.pc)

/-- Settles O30: a new tag is loaded only where no segment has it. -/
theorem fetchKeepsSegmentTagsDistinct : Obligations.FetchKeepsSegmentTagsDistinct :=
  fun _ n distinct => State.distinct_fetchWords distinct n

end Sys2Proof.Machine

/-! SUPPORT. PIXBLT and FILL completed: the registers and the frame (R123, R125, R127), and window option 1 (R128). -/

namespace Sys2Proof.Machine

/-! ### Completion -/

/-- The transfers of a plan are all that completing it does to memory. -/
theorem State.draws_finishBlit (s : State) (p : BlitPlan) : s.Draws (s.finishBlit p) (spotsOf p.ops) where
  others := (s.draws_drawPixels p.ops).others
  halt := (s.framed_finishBlit p).halt
  cache := (s.framed_finishBlit p).cache

theorem State.otherContexts_of_fresh {s : State} (fresh : s.resuming = false) : s.otherContexts = s.suspended := by
  simp [State.otherContexts, fresh]

theorem fillForm_eq_xy_iff {xy : Bool} : fillForm xy = .xy ↔ xy = true := by cases xy <;> simp [fillForm]

/-- What completing any plan leaves as it is (R123, R134 to R136, R138, R139). -/
theorem State.finishBlit_kept (s : State) (p : BlitPlan) :
    (s.finishBlit p).a = s.a ∧ (s.finishBlit p).sp = s.sp ∧ (s.finishBlit p).pc = s.pc ∧
      s.KeepsOutside (s.finishBlit p) ∧
      (s.finishBlit p).b[4] = s.b[4] ∧ (s.finishBlit p).b[5] = s.b[5] ∧ (s.finishBlit p).b[6] = s.b[6] ∧
      (s.finishBlit p).b[8] = s.b[8] ∧ (s.finishBlit p).b[9] = s.b[9] := by
  have kept {k : Nat} (h : k < 10) (h4 : 4 ≤ k) (h7 : k ≠ 7) : (s.finishBlit p).b[k] = s.b[k] := s.kept_finalB p h h4 h7
  exact ⟨s.a_finishBlit p, s.sp_finishBlit p, s.pc_finishBlit p, (s.framed_finishBlit p).toKeepsOutside,
    kept (by omega) (by omega) (by omega), kept (by omega) (by omega) (by omega), kept (by omega) (by omega) (by omega),
    kept (by omega) (by omega) (by omega), kept (by omega) (by omega) (by omega)⟩

/-- Settles O36: completion keeps the frame whatever the plan is, and a fresh plan keeps the pitches and DYDX. -/
theorem pixbltCompletesAndKeepsItsOperands : Obligations.PixbltCompletesAndKeepsItsOperands := by
  intro i src dst s forms
  let p := s.currentPlan (s.pixbltPlan src dst)
  obtain ⟨pbx, bits⟩ := s.status_finishBlit p
  obtain ⟨a, sp, pc, outside, offset, wstart, wend, color0, color1⟩ := s.finishBlit_kept p
  refine ⟨s.finishBlit p, exec_of_pixbltForms forms s, a, sp, pc, outside, offset, wstart, wend, color0, color1,
    fun fresh => ?_, pbx, rfl, bits, s.draws_finishBlit p⟩
  have plan : p = s.pixbltPlan src dst := State.currentPlan_of_not_resuming fresh _
  obtain ⟨sptch, dptch, dydx⟩ := s.pixbltPlan_kept src dst
  rw [plan]
  exact ⟨(s.sptch_finalB _).trans sptch, (s.dptch_finalB _).trans dptch, State.otherContexts_of_fresh fresh,
    fun option => (s.dydx_finalB _).trans (dydx option)⟩

/-- Settles O40: as O36, and a fresh FILL keeps SADDR besides, which is no operand of it. -/
theorem fillCompletesAndKeepsItsOperands : Obligations.FillCompletesAndKeepsItsOperands := by
  intro xy s
  let p := s.currentPlan (s.fillPlan (fillForm xy))
  obtain ⟨pbx, bits⟩ := s.status_finishBlit p
  obtain ⟨a, sp, pc, outside, offset, wstart, wend, color0, color1⟩ := s.finishBlit_kept p
  refine ⟨s.finishBlit p, exec_fillOf xy s, a, sp, pc, outside, offset, wstart, wend, color0, color1,
    fun fresh => ?_, pbx, rfl, bits, s.draws_finishBlit p⟩
  have plan : p = s.fillPlan (fillForm xy) := State.currentPlan_of_not_resuming fresh _
  obtain ⟨saddr, sptch, dptch, dydx⟩ := s.fillPlan_kept (fillForm xy)
  rw [plan]
  refine ⟨(s.saddr_finalB _).trans saddr, (s.sptch_finalB _).trans sptch, (s.dptch_finalB _).trans dptch,
    State.otherContexts_of_fresh fresh, fun option => (s.dydx_finalB _).trans (dydx ?_)⟩
  rwa [fillForm_eq_xy_iff]

/-! ### The row after the last (R125) -/

/-- Where a PIXBLT that moves something with PBV = 0 ends. -/
theorem State.pixbltPlan_end {s : State} (src : ArrayForm) {dst : ArrayForm} (pbv : s.io.pbv = false)
    (option : ¬ (dst = .xy ∧ s.io.window = .option1)) (full : emptyArray s.dydx = false) :
    (s.pixbltPlan src dst).saddr = s.sourceBase src dst + BitVec.ofNat 32 (rowsOf s.dydx) * s.sptch ∧
      (s.pixbltPlan src dst).daddr = s.destBase src dst + BitVec.ofNat 32 (rowsOf s.dydx) * s.dptch := by
  unfold State.pixbltPlan
  rw [if_neg (by simpa using option), full]
  simp [pbv]

/-- With PBV = 0 an operand starts at a corner exactly in PIXBLT L,L with PBH = 1. -/
theorem State.manualCorner_iff {s : State} (pbv : s.io.pbv = false) (src dst : ArrayForm) :
    s.manualCorner src dst = true ↔ src = .linear ∧ dst = .linear ∧ s.io.pbh = true := by
  simp [State.manualCorner, pbv, and_assoc]

/-- Settles O37: the plan's final addresses are the bases and DY pitches. -/
theorem pixbltEndsAtTheRowAfterTheLast : Obligations.PixbltEndsAtTheRowAfterTheLast := by
  intro i src dst s forms fresh pbv option rows columns
  have full : emptyArray s.dydx = false := by
    rw [← Bool.not_eq_true, emptyArray_iff]
    exact fun h => h.elim rows columns
  obtain ⟨saddr, daddr⟩ := State.pixbltPlan_end src pbv option full
  refine ⟨_, exec_of_pixbltForms forms s, ?_, ?_⟩
  · rw [State.currentPlan_of_not_resuming fresh]
    refine ((s.saddr_finalB _).trans saddr).trans ?_
    simp only [State.sourceBase, State.manualCorner_iff pbv]
  · rw [State.currentPlan_of_not_resuming fresh]
    refine ((s.daddr_finalB _).trans daddr).trans ?_
    simp only [State.destBase, State.manualCorner_iff pbv]

/-! ### Window option 1 (R128) -/

/-- A coordinate names its half. -/
theorem ofInt_coordinate (signed : Bool) (h : Word16) : BitVec.ofInt 16 (coordinate signed h) = h := by
  cases signed with
  | true => exact BitVec.ofInt_toInt
  | false => exact (BitVec.ofInt_natCast 16 h.toNat).trans (by simp)

/-- The greater of two coordinates is a coordinate, so its half gives it back. -/
theorem coordinate_ofInt_max (signed : Bool) (h k : Word16) :
    coordinate signed (BitVec.ofInt 16 (max (coordinate signed h) (coordinate signed k))) =
      max (coordinate signed h) (coordinate signed k) := by
  rcases max_choice (coordinate signed h) (coordinate signed k) with e | e <;> rw [e, ofInt_coordinate]

/-- Part of a range of `n` numbers has a length that fits in a half, where `n` does. -/
theorem toNat_ofInt_length {first lo hi : Int} {n : Word16} (left : first ≤ lo) (right : hi ≤ first + n.toNat - 1)
    (some : lo ≤ hi) : ((BitVec.ofInt 16 (hi - lo + 1)).toNat : Int) = hi - lo + 1 := by
  have small := n.isLt
  rw [BitVec.toNat_ofInt]
  omega

/-- V is bit 0 of the four flags, which stays 0. -/
theorem stV_setFlags_flagsNoRectangle {st : Word} (clear : stV st = false) (base : Word) (free : BitVec 4) :
    stV (setFlags base (flagsNoRectangle st free)) = false := by
  unfold flagsNoRectangle
  rw [if_neg (by simp [clear]), stV, getLsbD_setFlags_high _ _ (by omega), BitVec.getLsbD_and]
  exact Bool.and_false _

theorem State.commonRectPlan_of_some {s : State} {start dims : Word} (hasSource : Bool)
    (found : commonRectangle s.params.signedXY s.daddr s.dydx s.wstart s.wend = some (start, dims)) :
    (s.commonRectPlan hasSource).daddr = start ∧ (s.commonRectPlan hasSource).dydx = dims := by
  unfold State.commonRectPlan
  rw [found]
  exact ⟨rfl, rfl⟩

theorem State.flags_commonRectPlan_of_none {s : State} (hasSource : Bool)
    (none_found : commonRectangle s.params.signedXY s.daddr s.dydx s.wstart s.wend = none) :
    (s.commonRectPlan hasSource).flags = flagsNoRectangle s.st (Config.freeFlags s.freeCount) := by
  unfold State.commonRectPlan
  rw [none_found]

/-- Under window option 1 an instruction with an XY destination carries out the common-rectangle plan. -/
theorem exec_of_option1 {i : Instr} {s : State} (xy : (∃ src, pixbltForms i = some (src, .xy)) ∨ i = .fillXY)
    (fresh : s.resuming = false) (option : s.io.window = .option1) :
    ∃ hasSource, exec i s = .next (s.finishBlit (s.commonRectPlan hasSource)) := by
  rcases xy with ⟨src, forms⟩ | rfl
  · refine ⟨true, ?_⟩
    rw [exec_of_pixbltForms forms s, State.currentPlan_of_not_resuming fresh, s.pixbltPlan_option1 src option]
  · have plan : s.fillPlan (fillForm true) = s.commonRectPlan false := s.fillPlan_option1 option
    refine ⟨false, (exec_fillOf true s).trans ?_⟩
    rw [State.currentPlan_of_not_resuming fresh, plan]

/-- Settles O39: start and dimensions of the common rectangle fit in halves, where the plan puts them. -/
theorem windowOptionOneFindsTheCommonRectangle : Obligations.WindowOptionOneFindsTheCommonRectangle := by
  intro i s xy fresh option n x0 y0 x1 y1
  obtain ⟨hasSource, ran⟩ := exec_of_option1 xy fresh option
  obtain ⟨mem, cache⟩ := s.mem_cache_finishBlit_of_ops_nil (s.commonRectPlan_spec hasSource).1
  refine ⟨_, ran, mem, cache, fun meet => ?_, fun apart clear => ?_⟩
  · obtain ⟨daddr, dydx⟩ := State.commonRectPlan_of_some (s := s) hasSource (if_pos meet)
    have start := (s.daddr_finalB (s.commonRectPlan hasSource)).trans daddr
    have dims := (s.dydx_finalB (s.commonRectPlan hasSource)).trans dydx
    rw [State.b_finishBlit, start, dims, xHalf_packXY, yHalf_packXY, xHalf_packXY, yHalf_packXY]
    exact ⟨coordinate_ofInt_max _ _ _, coordinate_ofInt_max _ _ _,
      toNat_ofInt_length (le_max_left _ _) (min_le_left _ _) meet.1,
      toNat_ofInt_length (le_max_left _ _) (min_le_left _ _) meet.2⟩
  · rw [State.st_finishBlit, State.flags_commonRectPlan_of_none hasSource (if_neg apart)]
    exact stV_setFlags_flagsNoRectangle clear _ _

end Sys2Proof.Machine

/-! SUPPORT. What plain pixels leave in memory, one by one and many (R29, R138, R139), and the instructions that draw or
load single pixels (R150, R151, R154 to R156). -/

namespace Sys2Proof.Machine

/-! ### Drawing inside a longer effect -/

/-- A state with the memory of one in which the spots are drawn, framed as instructions are, has them drawn too. -/
theorem State.Draws.of_framed {s t u : State} {spots : List (Word × Nat)} (drawn : s.Draws t spots) (framed : s.Framed u)
    (mem : u.mem = t.mem) : s.Draws u spots where
  others quiet x out := by rw [mem]; exact drawn.others quiet x out
  halt := framed.halt
  cache := framed.cache

@[simp] theorem State.start_wholePixel (s : State) (src : PixelSource) (dst : Word) :
    PixelOp.start (s.wholePixel src dst) = dst := BitVec.add_zero dst

theorem State.draws_ite_drawPixel (s : State) (drawn : Bool) (src : PixelSource) (dst : Word) :
    s.Draws (if drawn then s.drawPixel (s.wholePixel src dst) else s)
      (if drawn then [(dst, (s.io.pixelSize : Nat))] else []) := by
  cases drawn with
  | false => exact s.draws_drawPixels []
  | true =>
    have one := s.draws_drawPixels [s.wholePixel src dst]
    rw [spotsOf, List.map_singleton, State.start_wholePixel] at one
    exact one

/-! ### Plain pixels -/

/-- A state that plain transfers pass: as the first but for memory, where the bits that are sources are as they were. -/
structure State.Passes (s : State) (source : Word → Prop) (t : State) : Prop extends State.OnlyMemory s t where
  quiet : t.inside = []
  sources : ∀ y, source y → t.mem.readBit y = s.mem.readBit y

theorem State.Passes.drawPixel {s t : State} {source : Word → Prop} (h : s.Passes source t) {op : PixelOp}
    (apart : ∀ y, source y → covers (PixelOp.start op) op.len y = false) : s.Passes source (t.drawPixel op) where
  toOnlyMemory := h.toOnlyMemory.trans (t.onlyMemory_drawPixel op)
  quiet := State.inside_drawPixel_of_quiet h.quiet op
  sources y isSource := (State.readBit_drawPixel_of_not_covers h.quiet op (apart y isSource)).trans (h.sources y isSource)

/-- A bit under plain transfers that write over none of their sources: the bit that all the source pixels over it hold. -/
theorem State.readBit_drawPixels_of_plain {s : State} (plain : s.PlainPixels) {source : Word → Prop} {ops : List PixelOp}
    {x : Word} {v : Bool} (notHlt : x ≠ s.hltAddr) (short : ∀ op ∈ ops, op.lo + op.len ≤ 32)
    (apart : ∀ op ∈ ops, ∀ y, source y → covers (PixelOp.start op) op.len y = false)
    (value : ∀ t, ∀ op ∈ ops, s.Passes source t → covers (PixelOp.start op) op.len x = true →
      (t.sourcePixel op).1.getLsbD (x - op.dst).toNat = v)
    (covered : ∃ op ∈ ops, covers (PixelOp.start op) op.len x = true) : (s.drawPixels ops).mem.readBit x = v := by
  have start : s.Passes source s := { State.OnlyMemory.refl s with quiet := plain.quiet, sources := fun _ _ => rfl }
  refine (State.readBit_drawPixels_of_value (Q := s.Passes source) s ops start
    (fun t op isOp passes => passes.drawPixel (apart op isOp)) (fun t passes => ?_) (fun op isOp => ?_)
    (fun t op isOp passes covers => ?_)).1 covered
  · exact ⟨passes.quiet, by rwa [passes.toOnlyMemory.hltAddr]⟩
  · have := short op isOp
    omega
  · have processes : GfxRegs.processes t.io = false := by rw [passes.io]; exact plain.plain
    have := short op isOp
    rw [State.resultPixel_of_plain processes, PixelOp.offset_of_covers (by omega) covers]
    exact value t op isOp passes covers

/-- A bit under one plain pixel. -/
theorem State.readBit_drawPixel_of_plain {s : State} (plain : s.PlainPixels) {src : PixelSource} {dst x : Word}
    (here : s.inPixel dst x) :
    (s.drawPixel (s.wholePixel src dst)).mem.readBit x =
      (s.sourcePixel (s.wholePixel src dst)).1.getLsbD (x - dst).toNat := by
  have size := pixelSize_le s.io
  have bit := State.readBit_drawPixel_of_quiet plain.quiet (s.wholePixel src dst) x (by simp only [State.wholePixel]; omega)
  rw [if_neg here.2, State.start_wholePixel, State.resultPixel_of_plain plain.plain] at bit
  refine (bit.trans (if_pos here.1)).trans ?_
  rw [State.wholePixel, Nat.zero_add]

/-! ### Source pixels -/

/-- The number of a covered bit, counted from a base, and its place in a 16-bit word. -/
theorem add_sub_mod_word (a x : Word) : (a.toNat + (x - a).toNat) % 16 = x.toNat % 16 := by
  bv_omega

/-- A pixel of a colour register's bits, at its place. -/
theorem State.getLsbD_sourcePixel_color (s : State) {op : PixelOp} {c x : Word} (src : op.src = .color c)
    (near : (x - op.dst).toNat < 32) :
    (s.sourcePixel op).1.getLsbD (x - op.dst).toNat = c.getLsbD (x.toNat % 16) := by
  unfold State.sourcePixel
  rw [src, ← add_sub_mod_word op.dst x]
  exact getLsbD_alignedColor c op.dst near

/-- A pixel of memory, bit by bit. -/
theorem State.getLsbD_sourcePixel_memory {s : State} (quiet : s.inside = []) {op : PixelOp} {a x : Word}
    (src : op.src = .memory a) (near : (x - op.dst).toNat < s.io.pixelSize) :
    (s.sourcePixel op).1.getLsbD (x - op.dst).toNat = s.mem.readBit (a + (x - op.dst)) := by
  have size := pixelSize_le s.io
  have near' : (x - op.dst).toNat < 32 := by omega
  have pixel : (s.sourcePixel op).1 = s.mem.readZext a s.io.pixelSize := by
    simp only [State.sourcePixel, src, State.load_of_quiet quiet a size]
  rw [pixel, Memory.getLsbD_readZext, BitVec.ofNat_toNat, BitVec.setWidth_eq, decide_eq_true near, decide_eq_true near']
  rfl

/-- A pixel of a source bit, expanded. -/
theorem State.getLsbD_sourcePixel_expand {s : State} (quiet : s.inside = []) {op : PixelOp} {a c0 c1 x : Word}
    (src : op.src = .expand a c0 c1) (near : (x - op.dst).toNat < 32) :
    (s.sourcePixel op).1.getLsbD (x - op.dst).toNat = (if s.mem.readBit a then c1 else c0).getLsbD (x.toNat % 16) := by
  have bit : (s.mem.readZext a 1).getLsbD 0 = s.mem.readBit a := by
    rw [Memory.getLsbD_readZext, BitVec.add_zero]
    rfl
  have pixel : (s.sourcePixel op).1 = alignedColor (if s.mem.readBit a then c1 else c0) op.dst := by
    simp only [State.sourcePixel, src, State.load_of_quiet quiet a (show 1 ≤ 32 by omega), bit]
  rw [pixel, getLsbD_alignedColor _ op.dst near, add_sub_mod_word]

/-! ### Clipping of single pixels -/

theorem State.inWindow_iff (s : State) (x y : Int) :
    s.inWindow x y = true ↔
      coordinate s.params.signedXY (xHalf s.wstart) ≤ x ∧ x ≤ coordinate s.params.signedXY (xHalf s.wend) ∧
        coordinate s.params.signedXY (yHalf s.wstart) ≤ y ∧ y ≤ coordinate s.params.signedXY (yHalf s.wend) :=
  decide_eq_true_iff

/-- Settles O50: `drawsAt` by the window option, the window as its four bounds. -/
theorem pixelsAreClippedToTheWindow : Obligations.PixelsAreClippedToTheWindow := by
  intro s xy n inside
  have window := s.inWindow_iff (n (xHalf xy)) (n (yHalf xy))
  refine ⟨fun off => ?_, fun clip => ?_, fun option outside => ?_⟩
  · simp only [State.drawsAt, off]
  · simp only [State.drawsAt, clip]
    exact window
  · simp only [State.drawsAt, option]
    rw [Bool.and_eq_false_iff, ← Bool.not_eq_true]
    exact .inl (mt window.1 outside)

/-! ### DRAV and PIXT -/

/-- DRAV's registers: the address advanced, the others as before. -/
theorem State.readReg_drav (s : State) (f : RFile) (addrReg stepReg : RegIdx) (g : RFile) (j : RegIdx) :
    (s.drav f addrReg stepReg).readReg g j =
      if sameRegister f addrReg g j then Config.advanceXY (s.readReg f addrReg) (s.readReg f stepReg)
      else s.readReg g j := by
  have memory := s.onlyMemory_ite_drawPixel (s.drawsAt (s.readReg f addrReg)) (s.colorOp (s.readReg f addrReg))
  rw [State.drav, State.readReg_withFreeFlags, State.readReg_writeReg, State.readReg_congr memory.a memory.b memory.sp]

/-- Settles O46: the pixel is drawn first, and then one register is written. -/
theorem dravDrawsOnePixelAndAdvances : Obligations.DravDrawsOnePixelAndAdvances := by
  intro f src dst s addrReg stepReg xy
  have memory := s.onlyMemory_ite_drawPixel (s.drawsAt xy) (s.colorOp xy)
  have drawn := s.draws_ite_drawPixel (s.drawsAt xy) (.color s.color1) (s.linearOf .pixelDestination xy)
  have mem : (s.drav f addrReg stepReg).mem = (if s.drawsAt xy then s.drawPixel (s.colorOp xy) else s).mem :=
    State.mem_writeReg _ _ _ _
  have framed := s.framed_drav f addrReg stepReg
  refine ⟨s.drav f addrReg stepReg, exec_drav f src dst s, ?_, fun g j other => ?_,
    (memory.keepsStatus.trans (State.keepsStatus_writeReg _ _ _ _)).withFreeFlags,
    (State.pc_writeReg _ _ _ _).trans memory.pc, (State.suspended_writeReg _ _ _ _).trans memory.suspended,
    framed.toKeepsOutside, drawn.of_framed framed mem, fun plain draws x here => ?_⟩
  · rw [State.readReg_drav, if_pos ⟨rfl, .inr rfl⟩]
  · rw [State.readReg_drav, if_neg other]
  · rw [mem, if_pos draws]
    have size := pixelSize_le s.io
    have near := (covers_iff _ _ _).1 here.1
    exact (State.readBit_drawPixel_of_plain plain here).trans (s.getLsbD_sourcePixel_color rfl (near.trans_le size))

/-- What storing a pixel leaves alone, and where it draws. -/
theorem State.storePixel_spec (s : State) (source : PixelSource) (xy : Word) :
    let t := s.storePixel source xy
    s.KeepsRegisters t ∧ s.KeepsStatus t ∧ t.pc = s.pc ∧ t.suspended = s.suspended ∧ s.KeepsOutside t ∧
      s.Draws t (if s.drawsAt xy then [(s.linearOf .pixelDestination xy, (s.io.pixelSize : Nat))] else []) := by
  intro t
  have memory := s.onlyMemory_ite_drawPixel (s.drawsAt xy) (s.wholePixel source (s.linearOf .pixelDestination xy))
  have framed := s.framed_storePixel source xy
  exact ⟨⟨memory.a, memory.b, memory.sp⟩, memory.keepsStatus.withFreeFlags, memory.pc, memory.suspended,
    framed.toKeepsOutside, (s.draws_ite_drawPixel _ source _).of_framed framed rfl⟩

/-- The stored pixel, where the window lets it. -/
theorem State.readBit_storePixel {s : State} (plain : s.PlainPixels) {source : PixelSource} {xy x : Word}
    (draws : s.drawsAt xy = true) (here : s.inPixel (s.linearOf .pixelDestination xy) x) :
    (s.storePixel source xy).mem.readBit x =
      (s.sourcePixel (s.wholePixel source (s.linearOf .pixelDestination xy))).1.getLsbD
        (x - s.linearOf .pixelDestination xy).toNat := by
  have stored := State.readBit_drawPixel_of_plain (src := source) plain here
  have mem : (s.storePixel source xy).mem =
      (if s.drawsAt xy then s.drawPixel (s.wholePixel source (s.linearOf .pixelDestination xy)) else s).mem := rfl
  rwa [mem, if_pos draws]

/-- Settles O48: both store a pixel, of a register or of memory. -/
theorem pixtStoresOnePixel : Obligations.PixtStoresOnePixel := by
  intro f src dst s xy a spots
  constructor
  · obtain ⟨registers, status, pc, suspended, outside, draws⟩ := s.storePixel_spec (.value (s.readReg f src)) xy
    exact ⟨_, exec_pixtToXY f src dst s, registers, status, pc, suspended, outside, draws,
      fun plain drawn _ here => State.readBit_storePixel plain drawn here⟩
  · obtain ⟨registers, status, pc, suspended, outside, draws⟩ :=
      s.storePixel_spec (.memory (s.linearOf .pixelSource (s.readReg f src))) xy
    exact ⟨_, exec_pixtXYToXY f src dst s, registers, status, pc, suspended, outside, draws,
      fun plain drawn _ here => (State.readBit_storePixel plain drawn here).trans
        (State.getLsbD_sourcePixel_memory plain.quiet rfl ((covers_iff _ _ _).1 here.1))⟩

/-- Settles O49: the pixel is loaded, and the register written with free bits above it. -/
theorem pixtLoadsOnePixel : Obligations.PixtLoadsOnePixel := by
  intro f src dst s
  let loaded := s.loadPixel (s.readReg f src)
  let v := loaded.1 ||| (Config.freeWord s.freeCount .highBits <<< (s.io.pixelSize : Nat))
  have size := pixelSize_le s.io
  have memory : s.OnlyMemory loaded.2 := s.onlyMemory_load _ _
  have framed : s.Framed loaded.2 := s.framed_load _ size
  refine ⟨(loaded.2.writeReg f dst v).withFreeFlags, v, exec_pixtFromXY f src dst s, ?_, fun g j other => ?_,
    (memory.keepsStatus.trans (State.keepsStatus_writeReg _ _ _ _)).withFreeFlags,
    (State.pc_writeReg _ _ _ _).trans memory.pc, (State.suspended_writeReg _ _ _ _).trans memory.suspended,
    (framed.trans (State.framed_writeReg_withFreeFlags _ _ _ _)).toKeepsOutside, fun quiet => ⟨?_, fun k hk => ?_⟩⟩
  · rw [State.readReg_withFreeFlags, State.readReg_writeReg_self]
  · rw [State.readReg_withFreeFlags, State.readReg_writeReg, if_neg other,
      State.readReg_congr memory.a memory.b memory.sp]
  · have same : loaded.2 = s := congrArg Prod.snd (State.load_of_quiet quiet _ size)
    rw [same]
    exact s.oneRegister_writeReg_withFreeFlags f dst v
  · have pixel : loaded.1 = s.mem.readZext (s.linearOf .pixelSource (s.readReg f src)) s.io.pixelSize :=
      congrArg Prod.fst (State.load_of_quiet quiet _ size)
    have hk' : k < 32 := by omega
    rw [BitVec.getLsbD_or, BitVec.getLsbD_shiftLeft, pixel, Memory.getLsbD_readZext]
    simp [hk, hk']

end Sys2Proof.Machine

/-! SUPPORT. LINE: the points it draws, the registers it advances, and its pixels (R132, R139, R150). -/

namespace Sys2Proof.Machine

/-- B13 is no operand of LINE (U5, D11): what its points depend on does not read it. -/
theorem State.linePoints_set_reserved (z : Bool) (s : State) (v : Word) :
    ({ s with b := s.b.set 13 v } : State).linePoints z = s.linePoints z := by
  let r : State := { s with b := s.b.set 13 v }
  have kept {k : Nat} (hk : k < 15) (other : 13 ≠ k) : r.b[k] = s.b[k] := Vector.getElem_set_ne (by omega) hk other
  have regs : r.lineRegs = s.lineRegs := by
    simp only [State.lineRegs, State.saddr, State.daddr]
    rw [kept (by omega) (by omega), kept (by omega) (by omega), kept (by omega) (by omega), kept (by omega) (by omega),
      kept (by omega) (by omega), kept (by omega) (by omega)]
  have wstart : r.wstart = s.wstart := kept (by omega) (by omega)
  have wend : r.wend = s.wend := kept (by omega) (by omega)
  have dydx : r.dydx = s.dydx := kept (by omega) (by omega)
  have count : r.lineCount z = s.lineCount z := by
    rw [State.lineCount, State.lineCount, regs, wstart, wend, dydx]
  have after (n : Nat) : r.lineAfter z n = s.lineAfter z n := by
    induction n with
    | zero => exact regs
    | succ n ih => rw [State.lineAfter, State.lineAfter, ih, wstart, wend, dydx]
  show r.linePoints z = s.linePoints z
  simp only [State.linePoints, count, after]

theorem State.head?_linePoints (z : Bool) (s : State) :
    (s.linePoints z).head? = if s.lineCount z = 0 then none else some s.daddr := by
  rw [State.linePoints, List.head?_map, List.head?_range]
  split_ifs <;> rfl

/-- LINE's registers, put back and read again. -/
theorem State.lineRegs_withLineRegs (s t : State) (r : LineRegs) : (t.withB (s.withLineRegs r)).lineRegs = r := by
  have temps : #v[r.temps[0], r.temps[1], r.temps[2], r.temps[3]] = r.temps := by
    ext k hk
    match k with
    | 0 | 1 | 2 | 3 => rfl
  simp only [State.lineRegs, State.withB, State.withLineRegs, State.saddr, State.daddr]
  simp [temps]

/-- The registers that LINE keeps. -/
theorem State.kept_withLineRegs (s : State) (r : LineRegs) {k : Nat} (h : k < 10) (h0 : k ≠ 0) (h2 : k ≠ 2) :
    (s.withLineRegs r)[k] = s.b[k] := by
  unfold State.withLineRegs
  repeat rw [Vector.getElem_set_ne (by omega) (by omega) (by omega)]

/-- Settles O45: LINE's pixels are of COLOR1, drawn before its registers are put back. -/
theorem lineDrawsColor1 : Obligations.LineDrawsColor1 := by
  intro z s spots
  let ops := ((s.linePoints z).filter s.drawsAt).map s.colorOp
  let after := s.lineAfter z (s.lineCount z)
  let t := ((s.drawPixels ops).withB (s.withLineRegs after)).withFreeFlags
  have memory := s.onlyMemory_drawPixels ops
  have framed : s.Framed t :=
    ((s.framed_drawPixels ops).trans (State.framed_withB _ _)).trans (State.framed_withFreeFlags _)
  have places : spotsOf ops = spots := by
    rw [spotsOf, List.map_map]
    exact List.map_congr_left fun xy _ => congrArg (·, (s.io.pixelSize : Nat)) (s.start_wholePixel _ _)
  refine ⟨s.head?_linePoints z, s.linePoints_set_reserved z, t, exec_line s z, memory.a, memory.sp, memory.pc,
    memory.suspended, framed.toKeepsOutside, (memory.keepsStatus.trans (State.keepsStatus_withB _ _)).withFreeFlags,
    s.kept_withLineRegs after (by omega) (by omega) (by omega), fun k hk => ?_, ?_,
    (places ▸ s.draws_drawPixels ops).of_framed framed rfl, fun plain x ⟨spot, isSpot, covered, notHlt⟩ => ?_⟩
  · exact s.kept_withLineRegs after k.isLt (by omega) (by omega)
  · exact s.lineRegs_withLineRegs (s.drawPixels ops) after
  · have isColor {op : PixelOp} (isOp : op ∈ ops) : ∃ xy, s.colorOp xy = op := by
      obtain ⟨xy, -, rfl⟩ := List.mem_map.1 isOp
      exact ⟨xy, rfl⟩
    have size := pixelSize_le s.io
    refine State.readBit_drawPixels_of_plain plain (source := fun _ => False) (ops := ops) notHlt (fun op isOp => ?_)
      (fun _ _ _ absent => absent.elim) (fun u op isOp passes above => ?_) ?_
    · obtain ⟨xy, rfl⟩ := isColor isOp
      exact (Nat.zero_add _).trans_le size
    · obtain ⟨xy, rfl⟩ := isColor isOp
      have near := (covers_iff _ _ _).1 above
      rw [State.colorOp, State.start_wholePixel] at near
      exact u.getLsbD_sourcePixel_color rfl (near.trans_le size)
    · obtain ⟨xy, drawn, rfl⟩ := List.mem_map.1 isSpot
      refine ⟨s.colorOp xy, List.mem_map.2 ⟨xy, drawn, rfl⟩, ?_⟩
      rw [State.colorOp, State.start_wholePixel]
      exact covered

end Sys2Proof.Machine

/-! SUPPORT. What arrays leave in memory: the places their transfers write, FILL's colour, the expanded or copied source
of a plain PIXBLT, and clipping (R142 to R149). -/

namespace Sys2Proof.Machine

/-! ### The transfers of an array -/

theorem State.covers_wholePixel_iff (s : State) (src : PixelSource) (dst x : Word) :
    (∃ op ∈ PixelOp.byWord (s.wholePixel src dst), covers (PixelOp.start op) op.len x = true) ↔
      covers dst s.io.pixelSize x = true :=
  PixelOp.exists_byWord_iff (s.wholePixel src dst) ((pixelSize_le s.io).trans (by norm_num)) x

/-- The transfers of an array write the elements that are drawn, and nothing else. -/
theorem State.exists_arrayOps_iff (s : State) (up left : Bool) (dst : ArrayForm) (base : Word)
    (srcOf : Nat → Nat → PixelSource) (x : Word) :
    (∃ op ∈ s.arrayOps up left dst base srcOf, covers (PixelOp.start op) op.len x = true) ↔
      ∃ row col, s.inElement base x row col ∧ s.keepsElement dst row col = true := by
  constructor
  · rintro ⟨op, isOp, covered⟩
    obtain ⟨row, col, hrow, hcol, kept, word⟩ := (s.mem_arrayOps up left dst base srcOf op).1 isOp
    exact ⟨row, col, ⟨hrow, hcol, (s.covers_wholePixel_iff _ _ x).1 ⟨op, word, covered⟩⟩, kept⟩
  · rintro ⟨row, col, ⟨hrow, hcol, covered⟩, kept⟩
    obtain ⟨op, word, covered⟩ := (s.covers_wholePixel_iff _ _ x).2 covered
    exact ⟨op, (s.mem_arrayOps up left dst base srcOf op).2 ⟨row, col, hrow, hcol, kept, word⟩, covered⟩

/-- A transfer is part of an element, with that element's source unless the array overwrites the source. -/
theorem State.of_mem_arrayOps {s : State} {up left : Bool} {dst : ArrayForm} {base : Word}
    {srcOf : Nat → Nat → PixelSource} {op : PixelOp} (isOp : op ∈ s.arrayOps up left dst base srcOf) :
    op.lo + op.len ≤ s.io.pixelSize ∧ ∃ row col, row < rowsOf s.dydx ∧ col < columnsOf s.dydx ∧
      op.dst = elementAddr base s.dptch s.io.pixelSize row col ∧
      (∀ x, covers (PixelOp.start op) op.len x = true → s.inElement base x row col) ∧
      (PixelSource.overwritten (srcOf row col) s.io.pixelSize ((s.arrayPixels up left dst base srcOf).map PixelOp.dst) = false →
        op.src = srcOf row col) := by
  obtain ⟨row, col, hrow, hcol, -, word⟩ := (s.mem_arrayOps up left dst base srcOf op).1 isOp
  obtain ⟨src, place, short⟩ := PixelOp.of_mem_byWord word
  refine ⟨short, row, col, hrow, hcol, place, fun x covered => ⟨hrow, hcol, ?_⟩, fun kept => ?_⟩
  · exact (s.covers_wholePixel_iff _ _ x).1 ⟨op, word, covered⟩
  · rw [src, kept]
    rfl

/-- An array with a zero dimension has no transfers, said of the list itself. -/
theorem State.ite_emptyArray_arrayOps (s : State) (up left : Bool) (dst : ArrayForm) (base : Word)
    (srcOf : Nat → Nat → PixelSource) :
    (if emptyArray s.dydx then [] else s.arrayOps up left dst base srcOf) = s.arrayOps up left dst base srcOf := by
  split_ifs with empty
  · refine (List.eq_nil_iff_forall_not_mem.2 fun op isOp => ?_).symm
    obtain ⟨-, row, col, hrow, hcol, -⟩ := State.of_mem_arrayOps isOp
    rcases emptyArray_iff.1 empty with none | none <;> omega
  · rfl

/-- Without a window option every element is drawn. -/
theorem State.keepsElement_of_off {s : State} (off : s.io.window = .off) (dst : ArrayForm) (row col : Nat) :
    s.keepsElement dst row col = true := by
  simp [State.keepsElement, off]

/-! ### A plain array -/

/-- The value at a bit of a plain array whose sources lie apart from it: what the elements over the bit hold there. -/
theorem State.readBit_arrayOps_of_plain {s : State} (plain : s.PlainTransfer) {source : Word → Prop} {dst : ArrayForm}
    {base : Word} {srcOf : Nat → Nat → PixelSource} {x : Word} {v : Bool} (notHlt : x ≠ s.hltAddr)
    (inside : ∃ row col, s.inElement base x row col)
    (apart : ∀ y row col, source y → ¬ s.inElement base y row col)
    (kept : ∀ row col, row < rowsOf s.dydx → col < columnsOf s.dydx →
      PixelSource.overwritten (srcOf row col) s.io.pixelSize
        ((s.arrayPixels false false dst base srcOf).map PixelOp.dst) = false)
    (value : ∀ t op row col, s.Passes source t → s.inElement base x row col →
      op.dst = elementAddr base s.dptch s.io.pixelSize row col → op.src = srcOf row col →
      (t.sourcePixel op).1.getLsbD (x - op.dst).toNat = v) :
    (s.drawPixels (s.arrayOps false false dst base srcOf)).mem.readBit x = v := by
  obtain ⟨row, col, element⟩ := inside
  refine State.readBit_drawPixels_of_plain plain.toPlainPixels (source := source) notHlt (fun op isOp => ?_) (fun op isOp y isSource => ?_)
    (fun t op isOp passes covered => ?_)
    ((s.exists_arrayOps_iff false false dst base srcOf x).2
      ⟨row, col, element, State.keepsElement_of_off plain.unclipped dst row col⟩)
  · exact (State.of_mem_arrayOps isOp).1.trans (pixelSize_le s.io)
  · obtain ⟨-, row, col, -, -, -, writes, -⟩ := State.of_mem_arrayOps isOp
    rw [← Bool.not_eq_true]
    exact fun covered => apart y row col isSource (writes y covered)
  · obtain ⟨-, row, col, hrow, hcol, place, writes, src⟩ := State.of_mem_arrayOps isOp
    exact value t op row col passes (writes x covered) place (src (kept row col hrow hcol))

/-! ### FILL -/

/-- Without a window option a fresh FILL transfers its array. -/
theorem State.ops_fillPlan_of_off {s : State} (off : s.io.window = .off) (dst : ArrayForm) :
    (s.fillPlan dst).ops = s.arrayOps false false dst (s.fillBase dst) (fun _ _ => .color s.color1) := by
  rw [s.ops_fillPlan dst (by simp [off]), State.ite_emptyArray_arrayOps]

/-- Settles O41: each element holds COLOR1 at its place, and FILL writes nothing but elements. -/
theorem fillPaintsColor1 : Obligations.FillPaintsColor1 := by
  intro xy s plain
  let dst := fillForm xy
  have plan : s.currentPlan (s.fillPlan dst) = s.fillPlan dst := State.currentPlan_of_not_resuming plain.fresh _
  refine ⟨_, exec_fillOf xy s, fun x notHlt inside => ?_, fun x outside => ?_⟩
  · rw [State.mem_finishBlit, plan, State.ops_fillPlan_of_off plain.unclipped]
    refine State.readBit_arrayOps_of_plain plain (source := fun _ => False) notHlt inside
      (fun _ _ _ absent => absent.elim) (fun _ _ _ _ => rfl) (fun t op row col _ element place src => ?_)
    have near := (covers_iff _ _ _).1 element.2.2
    rw [← place] at near
    exact t.getLsbD_sourcePixel_color src (near.trans_le (pixelSize_le s.io))
  · rw [State.mem_finishBlit, plan, State.ops_fillPlan_of_off plain.unclipped]
    refine State.readBit_drawPixels_of_not_covers plain.quiet _ fun op isOp => ?_
    rw [← Bool.not_eq_true]
    intro covered
    obtain ⟨row, col, element, -⟩ := (s.exists_arrayOps_iff _ _ _ _ _ x).1 ⟨op, isOp, covered⟩
    exact outside ⟨row, col, element⟩

/-! ### PIXBLT -/

/-- A plain PIXBLT transfers its array from the bases its registers hold. -/
theorem State.ops_pixbltPlan_of_plain {s : State} (plain : s.PlainTransfer) (src dst : ArrayForm) :
    (s.pixbltPlan src dst).ops =
      s.arrayOps false false dst (if dst = .xy then s.linearOf .destination s.daddr else s.daddr)
        (s.pixbltSource src dst) := by
  have corner : s.manualCorner src dst = false := by simp [State.manualCorner, plain.pbh, plain.pbv]
  rw [s.ops_pixbltPlan src dst (by simp [plain.unclipped]), State.ite_emptyArray_arrayOps, plain.pbh, plain.pbv,
    State.destBase, corner]
  rfl

/-- What a plain PIXBLT leaves in memory. -/
theorem exec_of_plain {i : Instr} {src dst : ArrayForm} (forms : pixbltForms i = some (src, dst)) {s : State}
    (plain : s.PlainTransfer) :
    ∃ t, exec i s = .next t ∧
      t.mem = (s.drawPixels (s.arrayOps false false dst
        (if dst = .xy then s.linearOf .destination s.daddr else s.daddr) (s.pixbltSource src dst))).mem := by
  refine ⟨_, exec_of_pixbltForms forms s, ?_⟩
  rw [State.mem_finishBlit, State.currentPlan_of_not_resuming plain.fresh, State.ops_pixbltPlan_of_plain plain]

/-- Where a plain PIXBLT's source array starts. -/
theorem State.sourceBase_of_plain {s : State} (plain : s.PlainTransfer) (src dst : ArrayForm) :
    s.sourceBase src dst = if src = .xy then s.linearOf .source s.saddr else s.saddr := by
  have corner : s.manualCorner src dst = false := by simp [State.manualCorner, plain.pbh, plain.pbv]
  rw [State.sourceBase, corner]
  rfl

/-- The destination pixels of an array are elements of it, each over its own first bit where pixels have bits at all. -/
theorem State.inElement_of_dst {s : State} {up left : Bool} {dst : ArrayForm} {base d y : Word}
    {srcOf : Nat → Nat → PixelSource} (isDst : d ∈ (s.arrayPixels up left dst base srcOf).map PixelOp.dst)
    (covered : covers d s.io.pixelSize y = true) : ∃ row col, s.inElement base y row col := by
  obtain ⟨row, col, hrow, hcol, -, rfl⟩ := (s.mem_dsts_arrayPixels up left dst base srcOf d).1 isDst
  exact ⟨row, col, hrow, hcol, covered⟩

/-- Settles O42: no source bit is overwritten, so the one element over a bit holds the colour its source bit selects. -/
theorem pixbltExpandsBinarySource : Obligations.PixbltExpandsBinarySource := by
  intro i dst s forms plain base bit apart
  obtain ⟨t, ran, mem⟩ := exec_of_plain forms plain
  refine ⟨t, ran, fun x row col notHlt element only => ?_⟩
  have srcOf (row col : Nat) : s.pixbltSource .binary dst row col = .expand (bit row col) s.color0 s.color1 := by
    rw [State.pixbltSource, State.sourceBase_of_plain plain]
    rfl
  let source := fun y => ∃ row col, row < rowsOf s.dydx ∧ col < columnsOf s.dydx ∧ bit row col = y
  rw [mem]
  refine State.readBit_arrayOps_of_plain plain (source := source) notHlt ⟨row, col, element⟩ ?_ (fun r c hr hc => ?_)
    (fun u op r c passes element' place src => ?_)
  · rintro _ row' col' ⟨r, c, hr, hc, rfl⟩
    exact apart r c row' col' hr hc
  · rw [srcOf, PixelSource.overwritten, List.any_eq_false]
    intro d isDst covered
    obtain ⟨row', col', element'⟩ := State.inElement_of_dst isDst covered
    exact apart r c row' col' hr hc element'
  · obtain ⟨rfl, rfl⟩ := only r c element'
    have near := (covers_iff _ _ _).1 element.2.2
    rw [← place] at near
    rw [State.getLsbD_sourcePixel_expand passes.quiet (src.trans (srcOf r c)) (near.trans_le (pixelSize_le s.io)),
      passes.sources _ ⟨r, c, element.1, element.2.1, rfl⟩]

/-- Settles O43: no source pixel is overwritten, so the one element over a bit holds its source pixel's bit. -/
theorem pixbltCopiesPixels : Obligations.PixbltCopiesPixels := by
  intro i src dst s forms notBinary plain base from_ pixel apart
  obtain ⟨t, ran, mem⟩ := exec_of_plain forms plain
  refine ⟨t, ran, fun x row col notHlt element only => ?_⟩
  have srcOf (row col : Nat) : s.pixbltSource src dst row col = .memory (pixel row col) := by
    cases src with
    | binary => exact absurd rfl notBinary
    | linear | xy => rw [State.pixbltSource, State.sourceBase_of_plain plain]
  have within := (covers_iff _ _ _).1 element.2.2
  have first (a : Word) : covers a s.io.pixelSize a = true := by
    rw [covers_iff, sub_self]
    exact within.pos
  let source := fun y => ∃ row col, row < rowsOf s.dydx ∧ col < columnsOf s.dydx ∧
    covers (pixel row col) s.io.pixelSize y = true
  rw [mem]
  refine State.readBit_arrayOps_of_plain plain (source := source) notHlt ⟨row, col, element⟩ ?_ (fun r c hr hc => ?_)
    (fun u op r c passes element' place srcOp => ?_)
  · rintro y row' col' ⟨r, c, hr, hc, covered⟩
    exact apart r c row' col' y hr hc covered
  · rw [srcOf, PixelSource.overwritten, List.any_eq_false]
    intro d isDst meet
    rcases (Bool.or_eq_true _ _).mp meet with covered | covered
    · obtain ⟨row', col', element'⟩ := State.inElement_of_dst isDst covered
      exact apart r c row' col' _ hr hc (first _) element'
    · obtain ⟨row', col', element'⟩ := State.inElement_of_dst isDst (first d)
      exact apart r c row' col' d hr hc covered element'
  · obtain ⟨rfl, rfl⟩ := only r c element'
    have inPixel : covers (pixel r c) s.io.pixelSize
        (pixel r c + (x - elementAddr base s.dptch s.io.pixelSize r c)) = true := by
      rw [covers_iff, add_sub_cancel_left]
      exact within
    have near : (x - op.dst).toNat < u.io.pixelSize := by rw [place, passes.io]; exact within
    rw [State.getLsbD_sourcePixel_memory passes.quiet (srcOp.trans (srcOf r c)) near, place,
      passes.sources _ ⟨r, c, element.1, element.2.1, inPixel⟩]

/-! ### Clipping -/

/-- A fresh transfer to an XY destination outside window option 1 moves the elements of its array, from some sources and
in some order. -/
theorem exec_of_xy {i : Instr} {s : State} (xy : (∃ src, pixbltForms i = some (src, .xy)) ∨ i = .fillXY)
    (fresh : s.resuming = false) (window : s.io.window ≠ .option1) :
    ∃ t up left srcOf, exec i s = .next t ∧
      t.mem = (s.drawPixels (s.arrayOps up left .xy (s.linearOf .destination s.daddr) srcOf)).mem := by
  rcases xy with ⟨src, forms⟩ | rfl
  · refine ⟨_, s.io.pbv, s.io.pbh, s.pixbltSource src .xy, exec_of_pixbltForms forms s, ?_⟩
    rw [State.mem_finishBlit, State.currentPlan_of_not_resuming fresh, s.ops_pixbltPlan src .xy (fun h => window h.2),
      State.ite_emptyArray_arrayOps]
    rfl
  · refine ⟨_, false, false, fun _ _ => .color s.color1, exec_fillOf true s, ?_⟩
    rw [State.mem_finishBlit, State.currentPlan_of_not_resuming fresh, s.ops_fillPlan _ (fun h => window h.2),
      State.ite_emptyArray_arrayOps]
    rfl

/-- Under a window option that clips, the elements drawn are those in the window. -/
theorem State.keepsElement_iff_of_clip {s : State} (clip : s.io.window = .clip) (row col : Nat) :
    s.keepsElement .xy row col = true ↔
      s.inWindow (coordinate s.params.signedXY (xHalf s.daddr) + col)
        (coordinate s.params.signedXY (yHalf s.daddr) + row) = true := by
  simp [State.keepsElement, clip]

/-- Settles O44: a transfer over a bit would make it lie in an element inside the window. -/
theorem clippedTransfersStayInTheWindow : Obligations.ClippedTransfersStayInTheWindow := by
  intro i s xy quiet fresh clip n
  obtain ⟨t, up, left, srcOf, ran, mem⟩ := exec_of_xy xy fresh (by rw [clip]; exact WindowOption.noConfusion)
  refine ⟨t, ran, fun x outside => ?_⟩
  rw [mem]
  refine State.readBit_drawPixels_of_not_covers quiet _ fun op isOp => ?_
  rw [← Bool.not_eq_true]
  intro covered
  obtain ⟨row, col, element, kept⟩ := (s.exists_arrayOps_iff _ _ _ _ _ x).1 ⟨op, isOp, covered⟩
  exact outside row col element ((s.inWindow_iff _ _).1 ((State.keepsElement_iff_of_clip clip row col).1 kept))

end Sys2Proof.Machine
